-- ==== Sys2Proof/Word.lean ====
section
/-! DEFINITION. The two word types of the block and its one wrapping operation (spec/00_scope.md R7). -/

namespace Sys2Proof

/-- An unsigned 8-bit value (R7). -/
abbrev Byte := BitVec 8

/-- `u32`: an unsigned 32-bit value (R7). -/
abbrev Word := BitVec 32

/-- `wrap32(v) = v mod 2^32` (R7). -/
def wrap32 (v : Nat) : Word := BitVec.ofNat 32 v

end Sys2Proof
end

