-- ==== Sys2Proof/Syntax.lean ====
section
/-! DEFINITION. The commands of the block: one constructor per row of spec/opcode_table.json (spec/30_encoding.md R77). -/

namespace Sys2Proof

/-- A command as its word names it (R71). `c` is a channel unit, `r` a reader cursor: the UNIT field read as an unsigned
number (R72). `auto` is the A bit, the `radix_autodetect` operand of RB_READUINT. The operands ARG0, ARG1 and DIN are
not in the word (R74). -/
inductive Instr where
  /-- 0x01: checksum of DIN (spec/41_checksum.md R101). -/
  | cksum
  /-- 0x02: read register ARG0 (spec/45_system.md R221). -/
  | regRead
  /-- 0x10: remaining capacity (spec/42_ring_byte_channel.md R122). -/
  | rbRemcap (c : Nat)
  /-- 0x11: append DIN (R124). -/
  | rbAppend (c : Nat)
  /-- 0x12: search for the marker DIN from ARG0 (R126). -/
  | rbFind (c : Nat)
  /-- 0x13: decode the region [ARG0, ARG1) (R129). -/
  | rbReaduint (c : Nat) (auto : Bool)
  /-- 0x14: consume ARG0 bytes (R131). -/
  | rbAdvance (c : Nat)
  /-- 0x20: append the frame of DIN (spec/43_sentinel_framer.md R153). -/
  | frAppend (c : Nat)
  /-- 0x21: extract the next frame (R155). -/
  | frScan (c : Nat)
  /-- 0x30: zero the send counter (spec/44_broadcast_ring.md R182). -/
  | brInit
  /-- 0x31: enqueue one item (R183). -/
  | brEnq
  /-- 0x32: zero a reader cursor (R188). -/
  | brRinit (r : Nat)
  /-- 0x33: dequeue for a reader (R189). -/
  | brDeq (r : Nat)
  /-- 0x34: advisory emptiness check (R197). -/
  | brIsempty (r : Nat)
  deriving DecidableEq, Repr

/-- OPC, bits 7:0 of the command word (R77). -/
def Instr.opc : Instr → Nat
  | .cksum => 0x01
  | .regRead => 0x02
  | .rbRemcap _ => 0x10
  | .rbAppend _ => 0x11
  | .rbFind _ => 0x12
  | .rbReaduint _ _ => 0x13
  | .rbAdvance _ => 0x14
  | .frAppend _ => 0x20
  | .frScan _ => 0x21
  | .brInit => 0x30
  | .brEnq => 0x31
  | .brRinit _ => 0x32
  | .brDeq _ => 0x33
  | .brIsempty _ => 0x34

/-- UNIT, bits 15:8: the channel or reader number, 0 for a command without a unit (R71, R76). -/
def Instr.unit : Instr → Nat
  | .cksum | .regRead | .brInit | .brEnq => 0
  | .rbRemcap c | .rbAppend c | .rbFind c | .rbReaduint c _ | .rbAdvance c | .frAppend c | .frScan c => c
  | .brRinit r | .brDeq r | .brIsempty r => r

/-- A, bit 16: `radix_autodetect` of RB_READUINT, 0 for every other command (R71). -/
def Instr.autoBit : Instr → Bool
  | .rbReaduint _ auto => auto
  | .cksum | .regRead | .rbRemcap _ | .rbAppend _ | .rbFind _ | .rbAdvance _ | .frAppend _ | .frScan _ | .brInit
  | .brEnq | .brRinit _ | .brDeq _ | .brIsempty _ => false

/-- The commands with a channel unit: OPC 0x10–0x14, 0x20, 0x21 (R72). -/
def Instr.channelUnit? : Instr → Option Nat
  | .rbRemcap c | .rbAppend c | .rbFind c | .rbReaduint c _ | .rbAdvance c | .frAppend c | .frScan c => some c
  | .cksum | .regRead | .brInit | .brEnq | .brRinit _ | .brDeq _ | .brIsempty _ => none

/-- The commands with a reader unit: OPC 0x32–0x34 (R72). -/
def Instr.readerUnit? : Instr → Option Nat
  | .brRinit r | .brDeq r | .brIsempty r => some r
  | .cksum | .regRead | .brInit | .brEnq | .rbRemcap _ | .rbAppend _ | .rbFind _ | .rbReaduint _ _ | .rbAdvance _
  | .frAppend _ | .frScan _ => none

end Sys2Proof
end

