-- ==== Sys2Proof/WellFormed.lean ====
section
/-! DEFINITION. Which terms of Instr a command word can hold: UNIT is an 8-bit field (spec/30_encoding.md R71, R72). A unit
at or above NCH or NRD is well-formed: the word decodes, and the command ends with BAD_UNIT when it runs (R72). -/

namespace Sys2Proof

/-- The unit number fits bits 15:8 (R71). -/
def Instr.wf (i : Instr) : Bool := decide (i.unit < 256)

end Sys2Proof
end

