-- ==== Sys2Proof/Decode.lean ====
section
/-! DEFINITION. Decoding a 32-bit command word and encoding a command (spec/30_encoding.md R71, R77, R78, R80). -/

namespace Sys2Proof

/-- Why a word is illegal (R78). All four end the command with STATUS = ILLEGAL_COMMAND. -/
inductive IllegalReason where
  /-- RSV, bits 31:17, is not 0. -/
  | reservedBits
  /-- OPC is not in the table of R77. -/
  | unknownOpcode
  /-- Bit 16 is set and OPC is not 0x13. -/
  | autoBitSet
  /-- UNIT is not 0 for a command without a unit. -/
  | unitNotZero
  deriving DecidableEq, Repr

/-- What the decoder answers: exactly one command, or illegal (R78, R80). -/
inductive Decoded where
  | instr (i : Instr)
  | illegal (why : IllegalReason)
  deriving DecidableEq, Repr

/-- OPC, bits 7:0 (R71). -/
def opcField (w : Word) : Nat := (w.extractLsb' 0 8).toNat

/-- UNIT, bits 15:8, zero-extended (R71, R72). -/
def unitField (w : Word) : Nat := (w.extractLsb' 8 8).toNat

/-- A, bit 16 (R71). -/
def autoField (w : Word) : Bool := w.getLsbD 16

/-- RSV, bits 31:17 (R71). -/
def rsvField (w : Word) : Nat := (w.extractLsb' 17 15).toNat

/-- A row of R77: match, mask and the command it stands for, given UNIT and A. -/
structure OpRow where
  pattern : Word
  mask : Word
  build : Nat → Bool → Instr

/-- The fourteen rows of R77, in the table's order. -/
def opRows : List OpRow :=
  [ ⟨0x00000001, 0xFFFFFFFF, fun _ _ => .cksum⟩,
    ⟨0x00000002, 0xFFFFFFFF, fun _ _ => .regRead⟩,
    ⟨0x00000010, 0xFFFF00FF, fun u _ => .rbRemcap u⟩,
    ⟨0x00000011, 0xFFFF00FF, fun u _ => .rbAppend u⟩,
    ⟨0x00000012, 0xFFFF00FF, fun u _ => .rbFind u⟩,
    ⟨0x00000013, 0xFFFE00FF, fun u a => .rbReaduint u a⟩,
    ⟨0x00000014, 0xFFFF00FF, fun u _ => .rbAdvance u⟩,
    ⟨0x00000020, 0xFFFF00FF, fun u _ => .frAppend u⟩,
    ⟨0x00000021, 0xFFFF00FF, fun u _ => .frScan u⟩,
    ⟨0x00000030, 0xFFFFFFFF, fun _ _ => .brInit⟩,
    ⟨0x00000031, 0xFFFFFFFF, fun _ _ => .brEnq⟩,
    ⟨0x00000032, 0xFFFF00FF, fun u _ => .brRinit u⟩,
    ⟨0x00000033, 0xFFFF00FF, fun u _ => .brDeq u⟩,
    ⟨0x00000034, 0xFFFF00FF, fun u _ => .brIsempty u⟩ ]

/-- The word has the row's pattern under the row's mask: `cmd & mask == m` (R80). -/
def OpRow.hits (w : Word) (row : OpRow) : Bool := (w &&& row.mask) == row.pattern

/-- The reason a word that no row matches is illegal, in the order of R78. -/
def illegalReason (w : Word) : IllegalReason :=
  if rsvField w ≠ 0 then .reservedBits
  else if (opRows.any fun row => (row.pattern.extractLsb' 0 8).toNat == opcField w) = false then .unknownOpcode
  else if autoField w then .autoBitSet
  else .unitNotZero

/-- `Decode(cmd)`, total on every 32-bit word (R80). -/
def decode (w : Word) : Decoded :=
  match opRows.find? (OpRow.hits w) with
  | some row => .instr (row.build (unitField w) (autoField w))
  | none => .illegal (illegalReason w)

/-- The word of a command: RSV = 0, A, UNIT, OPC in their places (R71). -/
def encode (i : Instr) : Word := wrap32 (i.autoBit.toNat * 2 ^ 16 + i.unit * 2 ^ 8 + i.opc)

/-- The instruction the decoder reads from a table row's word; a command is always one 32-bit word (R71). -/
def decodeTableWord (nbits w : Nat) : Option Instr :=
  match decode (wrap32 (w % 2 ^ nbits)) with
  | .instr i => some i
  | .illegal _ => none

end Sys2Proof
end

