-- ==== Sys2Proof/Config.lean ====
section
/-! DEFINITION. The implementation parameters (spec/00_scope.md R5, spec/30_encoding.md R73) as plain data, the values
the test vectors use, and the free values that decide what the spec leaves to the interleaving. -/

namespace Sys2Proof

/-- The parameters of R5, under the spec's names. `RING_INIT` and `SLOT_INIT` are arbitrary byte arrays, written as
(index, byte) pairs; an index that is not listed holds 0x00, so every byte array is written in exactly one way.
`SLOT_INIT` is indexed by image offset (4 and up). `NUSER` is the number of channel-user ports, "as many channel users
as a system has" (R73). -/
structure Params where
  N : Nat
  Q : Nat
  MAX : Nat
  NCH : Nat
  NRD : Nat
  DIN_MAX : Nat
  NUSER : Nat
  RING_INIT : List Host.Cell
  SLOT_INIT : List Host.Cell
  deriving DecidableEq, Repr

/-- `RING_BYTES = 4 + Q × (4 + MAX)`, the size of the broadcast-ring memory image (spec/20_memory.md R50). -/
def Params.ringBytes (p : Params) : Nat := 4 + p.Q * (4 + p.MAX)

/-- A byte array in its one form: indexes strictly rising from `lo`, all below `hi`, no byte 0x00. -/
def cellsWithin (lo hi : Nat) : List Host.Cell → Bool
  | [] => true
  | c :: cs => decide (lo ≤ c.1) && decide (c.1 < hi) && decide (c.2 ≠ 0) && cellsWithin (c.1 + 1) hi cs

/-- The constraints of R5: `Q` is a power of two, and every size lies in its range. -/
def Params.valid (p : Params) : Bool :=
  decide (2 ≤ p.N) && decide (p.N ≤ 2 ^ 31) &&
  decide (2 ≤ p.Q) && decide (p.Q ≤ 2 ^ 31) && decide (p.Q = 2 ^ Nat.log2 p.Q) &&
  decide (p.MAX ≤ 2 ^ 16) &&
  decide (1 ≤ p.NCH) && decide (p.NCH ≤ 256) && decide (1 ≤ p.NRD) && decide (p.NRD ≤ 256) &&
  decide (p.MAX ≤ p.DIN_MAX) && decide (p.DIN_MAX ≤ 2 ^ 32 - 1) &&
  cellsWithin 0 p.N p.RING_INIT && cellsWithin 4 p.ringBytes p.SLOT_INIT

/-- The values the test vectors use (R5's last column). DESIGN CHOICE, unsafe to rely on: `State.reset` is built with
them because it must be one plain value (notes/assumptions/1.md, 2.md); `State.resetWith` takes any. -/
def Params.vectors : Params :=
  { N := 65536, Q := 16, MAX := 4, NCH := 2, NRD := 2, DIN_MAX := 2 ^ 32 - 1, NUSER := 2, RING_INIT := [],
    SLOT_INIT := [] }

namespace Config

/-- FREE VALUE: which of the agents that can act moves next, at the n-th free choice (spec/20_memory.md R59: "Any
interleaving is admitted"; notes/assumptions/6.md). -/
opaque freeAgent : Nat → Nat

/-- FREE VALUE: which pending slot byte is written or copied next, at the n-th free choice (spec/44_broadcast_ring.md
R185, R194: "in an order the model leaves open"; notes/assumptions/7.md). -/
opaque freePick : Nat → Nat

/-- FREE VALUE: how many free choices pass before the n-th turn that is kept for a command in flight. Any number, so any
interleaving in which "an agent with a command in flight is eventually scheduled" is some choice of it (spec/20_memory.md
R59; notes/assumptions/6.md). -/
opaque freeGap : Nat → Nat

end Config

end Sys2Proof
end

