-- ==== Sys2Proof/Machine/State.lean ====
section
/-! DEFINITION. Everything the spec gives the machine, as plain data (spec/10_state.md R20 to R33), the reasons a step can
stop, and the state after reset (spec/70_reset_and_hazards.md R270). -/

namespace Sys2Proof.Machine

/-- A memory of the block (spec/20_memory.md R50): (index, byte) pairs, indexes strictly rising, no byte 0x00 listed. An
index that is not listed holds 0x00 (notes/assumptions/5.md). -/
abbrev Memory := List Host.Cell

/-- What an agent presents on its port: the command word and the operand inputs (spec/30_encoding.md R70, R74). -/
structure Command where
  word : Word
  arg0 : Word
  arg1 : Word
  din : List Byte
  deriving DecidableEq, Repr

/-- One line of an agent's list: a command for the block, or a line of the host notation that the agent runs itself
(spec/30_encoding.md R83), its label given as the index of the line it names. -/
inductive Line where
  /-- Issue a command. -/
  | command (cmd : Command)
  /-- `bcode k, L`: continue at L if the last CODE = k. -/
  | bcode (k : Word) (target : Nat)
  /-- `bncode k, L`: continue at L if the last CODE ≠ k. -/
  | bncode (k : Word) (target : Nat)
  /-- `bstat s, L`: continue at L if the last STATUS = s. -/
  | bstat (st : BitVec 8) (target : Nat)
  /-- `halt`: the agent's program ends. -/
  | halt
  deriving DecidableEq, Repr

/-- A port (spec/10_state.md R22): operand inputs, result registers, and the issuing agent's list with the index of its
next line (R21). -/
structure Port where
  arg0 : Word
  arg1 : Word
  din : List Byte
  status : BitVec 8
  code : Word
  val0 : Word
  val1 : Word
  dout : List Byte
  program : List Line
  pc : Nat
  deriving DecidableEq, Repr

/-- A channel unit (R23 to R27): byte RAM, cursors, telemetry counters. -/
structure Channel where
  data : Memory
  writeOffset : Nat
  readOffset : Nat
  validCount : Word
  invalidCount : Word
  disregardedCount : Word
  deriving DecidableEq, Repr

/-- `wop` (R31): the writer's operation in flight. `pending` holds the image offsets not yet written. -/
inductive WriterOp where
  | idle
  | enq (s : Word) (len : Word) (payload : List Byte) (pending : List Nat)
  deriving DecidableEq, Repr

/-- `rop[r]` (R32): a reader's operation in flight. `copy` holds the slot's 4 + MAX bytes by place, `none` where not yet
copied; `pending` holds the image offsets not yet copied. -/
inductive ReaderOp where
  | idle
  | deq (sent dropped idx : Word) (copy : List (Option Byte)) (pending : List Nat)
  deriving DecidableEq, Repr

/-- A reader cursor (R30, R32). `owner` and `received` are the model's own: the port that uses the cursor, and the
unbounded count behind `numRecv` (spec/60_exceptions.md R258 item 2, spec/44_broadcast_ring.md R193;
notes/assumptions/10.md, 11.md). -/
structure Reader where
  numRecv : Word
  valid : Bool
  rop : ReaderOp
  owner : Option Nat
  received : Nat
  deriving DecidableEq, Repr

/-- How far the writer is ahead of a reader (spec/60_exceptions.md R258 item 5, spec/70_reset_and_hazards.md R277), the
model's own count: the items left unseen when the reader last set its cursor (BR_RINIT, BR_DEQ), and the enqueues
completed since (notes/assumptions/11.md). -/
structure Lag where
  left : Nat
  since : Nat
  deriving DecidableEq, Repr

/-- An event of the trace (R33, spec/60_exceptions.md R256). -/
inductive Event where
  | frameAppended (c : Nat)
  | itemEnqueued
  deriving DecidableEq, Repr

/-- One move of the interleaving (spec/20_memory.md R59): the agent of a port takes its next micro-step, choosing a
pending slot byte by `pick` where the micro-step writes or copies one; or the reset input is asserted (R270); or nobody
moves. -/
inductive Turn where
  | agent (port : Nat) (pick : Nat)
  | reset
  | idle
  deriving DecidableEq, Repr

/-- The free scheduling choices so far, the model's own count (spec/20_memory.md R59; notes/assumptions/6.md): how many
were made, how many since the last turn kept for a command in flight, and how many such turns there were. -/
structure Choices where
  made : Nat
  since : Nat
  kept : Nat
  deriving DecidableEq, Repr

/-- The machine. `params` to `ports` are the spec's; `cur` to `choices` are the model's own (INVENTORY.md, State). -/
structure State where
  /-- The parameters, fixed for the machine (spec/00_scope.md R5). -/
  params : Params
  /-- The NCH channel units. -/
  channels : List Channel
  /-- The broadcast-ring memory image: `sendCounter`, then the slots (spec/20_memory.md R51). -/
  image : Memory
  /-- `sc_valid` (spec/10_state.md R28). -/
  scValid : Bool
  /-- The NRD reader cursors. -/
  readers : List Reader
  /-- `wop`. -/
  wop : WriterOp
  /-- The event trace, oldest first. -/
  events : List Event
  /-- One port per agent: 0 is W, 1 + r is Rr, 1 + NRD + k is Uk (spec/30_encoding.md R73). -/
  ports : List Port
  /-- The port whose command is executing. -/
  cur : Nat
  /-- The port that has used BR_INIT or BR_ENQ (spec/60_exceptions.md R258 item 1). -/
  writer : Option Nat
  /-- Enqueues completed since BR_INIT, unbounded (R258 item 5). -/
  published : Nat
  /-- How far the writer is ahead of each reader cursor (R258 item 5). -/
  lags : List Lag
  /-- The interleaving still to be followed, the next move first. -/
  turns : List Turn
  /-- The free scheduling choices so far. -/
  choices : Choices
  deriving DecidableEq, Repr

/-- Why the machine stops with a fault. -/
inductive Fault where
  /-- Raised by a slot-byte micro-step whose image offset lies outside the ring image (spec/20_memory.md R50: no such
  address exists). Safe: no state that a run reaches raises it (notes/assumptions/14.md). -/
  | noSuchAddress (offset : Nat)
  deriving DecidableEq, Repr

/-- Why a step gives no meaning. -/
inductive Refusal where
  /-- Raised by exec for an instruction that has no meaning yet; no arm raises it now. Safe. -/
  | notModelled (mnemonic : String)
  /-- Raised by BR_INIT and BR_ENQ from a second agent (spec/60_exceptions.md R258 item 1: "refused"). Safe. -/
  | secondWriter
  /-- Raised by BR_RINIT, BR_DEQ and BR_ISEMPTY on a cursor another agent uses (R258 item 2: "refused"). Safe. -/
  | sharedCursor (r : Nat)
  /-- Raised where the writer comes to be 2^32 or more items ahead of a reader (R258 item 5: "refused"). Safe. -/
  | counterLapped
  deriving DecidableEq, Repr

/-- The outcome of a step of this machine. -/
abbrev StepOutcome := Host.Outcome State Fault Refusal

/-- A port at reset (R270, R22). ARG0, ARG1, DIN are inputs without a reset value: DESIGN CHOICE 0, 0, empty
(notes/assumptions/3.md). The command list is loaded from outside (notes/assumptions/8.md). -/
def Port.reset : Port :=
  { arg0 := 0, arg1 := 0, din := [], status := 0, code := 0, val0 := 0, val1 := 0, dout := [], program := [], pc := 0 }

/-- A channel unit at reset (R270, R23 to R27), given RING_INIT. -/
def Channel.reset (ringInit : Memory) : Channel :=
  { data := ringInit, writeOffset := 0, readOffset := 0, validCount := 0, invalidCount := 0, disregardedCount := 0 }

/-- A reader cursor at reset (R270, R30). `numRecv` has no value while `valid` is false: DESIGN CHOICE 0
(notes/assumptions/4.md). -/
def Reader.reset : Reader :=
  { numRecv := 0, valid := false, rop := .idle, owner := none, received := 0 }

/-- No free choice made. -/
def Choices.reset : Choices := { made := 0, since := 0, kept := 0 }

/-- No item ahead. -/
def Lag.reset : Lag := { left := 0, since := 0 }

/-- The machine right after reset, for any parameters (R270). `sendCounter` has no value while `scValid` is false: its
four bytes are DESIGN CHOICE 0 (notes/assumptions/4.md). -/
def State.resetWith (p : Params) : State :=
  { params := p
    channels := List.replicate p.NCH (Channel.reset p.RING_INIT)
    image := p.SLOT_INIT
    scValid := false
    readers := List.replicate p.NRD Reader.reset
    wop := .idle
    events := []
    ports := List.replicate (1 + p.NRD + p.NUSER) Port.reset
    cur := 0
    writer := none
    published := 0
    lags := List.replicate p.NRD Lag.reset
    turns := []
    choices := Choices.reset }

/-- The machine right after reset with the parameters of the test vectors (notes/assumptions/1.md). -/
def State.reset : State := State.resetWith Params.vectors

end Sys2Proof.Machine
end

