-- ==== Sys2Proof/Machine/Flags.lean ====
section
/-! DEFINITION. The flag-like results of a command, STATUS and CODE, and their numbers (spec/10_state.md R34,
spec/60_exceptions.md R240, spec/30_encoding.md R84). -/

namespace Sys2Proof.Machine

/-- The STATUS codes by name (R240). -/
inductive Status where
  | done
  | illegalCommand
  | badUnit
  | badOperand
  | uninitialized
  deriving DecidableEq, Repr

/-- The 8-bit number of a STATUS (R240). -/
def Status.number : Status → BitVec 8
  | .done => 0x00
  | .illegalCommand => 0x01
  | .badUnit => 0x02
  | .badOperand => 0x03
  | .uninitialized => 0x04

/-- The ends of FR_SCAN (R84, spec/43_sentinel_framer.md R154). -/
inductive FrameEnd where
  | ok
  | incomplete
  | malformed
  | bufferTooSmall
  | integrityFailure
  deriving DecidableEq, Repr

/-- CODE of FR_SCAN (R84). -/
def FrameEnd.number : FrameEnd → Word
  | .ok => 0
  | .incomplete => 1
  | .malformed => 2
  | .bufferTooSmall => 3
  | .integrityFailure => 4

/-- The ends of BR_DEQ (R84). -/
inductive DeqEnd where
  | empty
  | ok
  | racy
  deriving DecidableEq, Repr

/-- CODE of BR_DEQ (R84). -/
def DeqEnd.number : DeqEnd → Word
  | .empty => 0
  | .ok => 1
  | .racy => 2

/-- CODE of a boolean result: 1 = true, 0 = false (spec/10_state.md R34). -/
def boolCode (b : Bool) : Word := if b then 1 else 0

/-- The result outputs a rule assigns before it returns; what it does not assign is 0 or empty (R75). -/
structure Results where
  code : Word := 0
  val0 : Word := 0
  val1 : Word := 0
  dout : List Byte := []
  deriving DecidableEq, Repr

end Sys2Proof.Machine
end

