-- ==== Sys2Proof/Machine/Ops.lean ====
section
/-! DEFINITION. The shared operations: bytes of a memory, the ring image, ports and result registers, ending a command with
an error (the block's only exception, spec/60_exceptions.md R242, R245), and the contract of R258. -/

namespace Sys2Proof.Machine

/-! ## A memory -/

/-- What an index that a memory does not list holds (notes/assumptions/5.md). -/
def Memory.unlisted : Byte := 0

/-- The byte at an index. -/
def Memory.read : Memory → Nat → Byte
  | [], _ => Memory.unlisted
  | c :: m, k => if c.1 = k then c.2 else Memory.read m k

/-- `m` with the byte at index `k` set to `v`, in the one form. -/
def Memory.write : Memory → Nat → Byte → Memory
  | [], k, v => if v = Memory.unlisted then [] else [(k, v)]
  | c :: m, k, v =>
    if k < c.1 then (if v = Memory.unlisted then c :: m else (k, v) :: c :: m)
    else if k = c.1 then (if v = Memory.unlisted then m else (k, v) :: m)
    else c :: Memory.write m k v

/-- The one form: indexes strictly rising, no listed byte equal to what an unlisted index holds. -/
def Memory.wf : Memory → Bool
  | [] => true
  | [c] => decide (c.2 ≠ Memory.unlisted)
  | c :: d :: m => decide (c.2 ≠ Memory.unlisted) && decide (c.1 < d.1) && Memory.wf (d :: m)

/-- Every listed index lies below `hi`. -/
def Memory.below (hi : Nat) (m : Memory) : Bool := m.all fun c => decide (c.1 < hi)

/-! ## The broadcast-ring image (spec/20_memory.md R51, R52) -/

/-- `SlotBase(i) = 4 + i × (4 + MAX)` (R51). -/
def slotBase (p : Params) (i : Nat) : Nat := 4 + i * (4 + p.MAX)

/-- The 4 + MAX image offsets of slot `i`, in rising order. -/
def slotOffsets (p : Params) (i : Nat) : List Nat := List.range' (slotBase p i) (4 + p.MAX)

/-- `MemRead(a, 4)`: the little-endian word at offset `a` (R52). -/
def readWord (m : Memory) (a : Nat) : Word :=
  Memory.read m (a + 3) ++ Memory.read m (a + 2) ++ Memory.read m (a + 1) ++ Memory.read m a

/-- `MemWrite(a, 4, v)`: `v` stored little-endian at offset `a` (R52). -/
def writeWord (m : Memory) (a : Nat) (v : Word) : Memory :=
  Memory.write (Memory.write (Memory.write (Memory.write m a (v.extractLsb' 0 8)) (a + 1) (v.extractLsb' 8 8))
    (a + 2) (v.extractLsb' 16 8)) (a + 3) (v.extractLsb' 24 8)

/-- The bytes of an item in slot order: the little-endian length, then the payload (R51, spec/44_broadcast_ring.md R185). -/
def itemBytes (len : Word) (payload : List Byte) : List Byte :=
  [len.extractLsb' 0 8, len.extractLsb' 8 8, len.extractLsb' 16 8, len.extractLsb' 24 8] ++ payload

/-- The little-endian word of the first four bytes of a list (R52); a missing byte counts as 0. -/
def wordOfBytes (bs : List Byte) : Word := bs.getD 3 0 ++ bs.getD 2 0 ++ bs.getD 1 0 ++ bs.getD 0 0

/-- `sendCounter`, the word at image offset 0 (R51, spec/10_state.md R28). -/
def State.sendCounter (s : State) : Word := readWord s.image 0

/-- The 4 + MAX bytes of slot `i`, in image order. -/
def State.slotBytes (s : State) (i : Nat) : List Byte := (slotOffsets s.params i).map (Memory.read s.image)

/-! ## Reading and replacing one unit, cursor or port -/

/-- Channel unit `c` (notes/assumptions/24.md for an index with no unit). -/
def State.channel (s : State) (c : Nat) : Channel := s.channels.getD c (Channel.reset s.params.RING_INIT)

/-- `s` with channel unit `c` replaced. -/
def State.setChannel (s : State) (c : Nat) (ch : Channel) : State := { s with channels := s.channels.set c ch }

/-- Reader cursor `r`. -/
def State.reader (s : State) (r : Nat) : Reader := s.readers.getD r Reader.reset

/-- `s` with reader cursor `r` replaced. -/
def State.setReader (s : State) (r : Nat) (rd : Reader) : State := { s with readers := s.readers.set r rd }

/-- Port `a`. -/
def State.port (s : State) (a : Nat) : Port := s.ports.getD a Port.reset

/-- `s` with port `a` replaced. -/
def State.setPort (s : State) (a : Nat) (p : Port) : State := { s with ports := s.ports.set a p }

/-- `emit`: append an event to the trace (spec/00_scope.md R8). -/
def State.emit (s : State) (e : Event) : State := { s with events := s.events ++ [e] }

/-! ## Ending a command -/

/-- A port whose command ends: STATUS, CODE, VAL0, VAL1, DOUT written (spec/30_encoding.md R75), and the agent's index
advanced by one (spec/10_state.md R21). -/
def Port.finish (p : Port) (st : Status) (res : Results) : Port :=
  { p with
    status := st.number, code := res.code, val0 := res.val0, val1 := res.val1, dout := res.dout, pc := p.pc + 1 }

/-- End the executing command with a STATUS and its results (R75). -/
def State.endCommand (s : State) (st : Status) (res : Results) : State :=
  s.setPort s.cur ((s.port s.cur).finish st res)

/-- `return`: end the command with STATUS = DONE (spec/00_scope.md R8). -/
def State.done (s : State) (res : Results) : StepOutcome := .next (s.endCommand .done res)

/-- `raise S`: the one exception of the block. The command ends with STATUS = S and every result 0 or empty; nothing else
changes, no mode, no vector, nothing to return from (spec/60_exceptions.md R242, R245, R246). -/
def State.raise (s : State) (st : Status) : StepOutcome := .next (s.endCommand st {})

/-! ## The agents' contract (spec/60_exceptions.md R258) -/

/-- Go on as the one writer agent, or be refused (R258 item 1; notes/assumptions/9.md). -/
def State.asWriter (s : State) (k : State → StepOutcome) : StepOutcome :=
  if s.writer = none ∨ s.writer = some s.cur then k { s with writer := some s.cur } else .refused .secondWriter

/-- Go on as the one agent of cursor `r`, or be refused (R258 item 2; notes/assumptions/10.md). -/
def State.asReader (s : State) (r : Nat) (k : State → StepOutcome) : StepOutcome :=
  if (s.reader r).owner = none ∨ (s.reader r).owner = some s.cur then
    k (s.setReader r { s.reader r with owner := some s.cur })
  else .refused (.sharedCursor r)

/-- How many items the writer is ahead of a reader. -/
def Lag.items (l : Lag) : Nat := l.left + l.since

/-- The lag of reader cursor `r`. -/
def State.lag (s : State) (r : Nat) : Lag := s.lags.getD r Lag.reset

/-- `s` with the lag of a cursor that was just set: `left` items unseen, none enqueued since. -/
def State.setLag (s : State) (r left : Nat) : State := { s with lags := s.lags.set r { left := left, since := 0 } }

/-- One more enqueue is completed since each cursor was set. -/
def countEnqueue (ls : List Lag) : List Lag := ls.map fun l => { l with since := l.since + 1 }

/-- The counter goes back to 0: the items left unseen are no longer ahead, the enqueues completed between two BR_DEQ still
count (spec/70_reset_and_hazards.md R276, R277). -/
def forgetLeft (ls : List Lag) : List Lag := ls.map fun l => { l with left := 0 }

/-- 2^32 or more items ahead (R258 item 5). -/
def tooFarAhead (items : Nat) : Bool := decide (2 ^ 32 ≤ items)

/-- One more enqueue would bring the writer 2^32 items ahead of some initialised reader. -/
def State.lapsReader (s : State) : Bool :=
  (List.range s.readers.length).any fun r => (s.reader r).valid && tooFarAhead ((s.lag r).items + 1)

end Sys2Proof.Machine
end

