-- ==== Sys2Proof/Machine/Operands.lean ====
section
/-! DEFINITION. The operand forms of the commands (spec/30_encoding.md R74, R76): the inputs of the executing port, and the
checks every command of a kind makes on them before its first state write (spec/60_exceptions.md R242, R243). -/

namespace Sys2Proof.Machine

/-- ARG0 of the executing port. -/
def State.arg0 (s : State) : Word := (s.port s.cur).arg0

/-- ARG1 of the executing port. -/
def State.arg1 (s : State) : Word := (s.port s.cur).arg1

/-- DIN of the executing port. -/
def State.din (s : State) : List Byte := (s.port s.cur).din

/-- A channel command's unit check: c ≥ NCH ends it with BAD_UNIT (R72). -/
def State.withChannel (s : State) (c : Nat) (k : Channel → StepOutcome) : StepOutcome :=
  if s.params.NCH ≤ c then s.raise .badUnit else k (s.channel c)

/-- A reader command's unit check: r ≥ NRD ends it with BAD_UNIT (R72). -/
def State.withReader (s : State) (r : Nat) (k : Reader → StepOutcome) : StepOutcome :=
  if s.params.NRD ≤ r then s.raise .badUnit else k (s.reader r)

/-- The DIN length check: len(DIN) > DIN_MAX ends the command with BAD_OPERAND (R74). -/
def State.withDin (s : State) (k : List Byte → StepOutcome) : StepOutcome :=
  if s.params.DIN_MAX < s.din.length then s.raise .badOperand else k s.din

/-- Load the operand inputs that an agent presents on port `a`, and make `a` the executing port (R74). -/
def State.present (s : State) (a : Nat) (cmd : Command) : State :=
  { s.setPort a { s.port a with arg0 := cmd.arg0, arg1 := cmd.arg1, din := cmd.din } with cur := a }

end Sys2Proof.Machine
end

