-- ==== Sys2Proof/Machine/BroadcastRing.lean ====
section
/-! DEFINITION. The BroadcastRing family (spec/44_broadcast_ring.md). exec of BR_ENQ is its first micro-step E0 and exec of
BR_DEQ its first micro-step D1; `enqStep` and `deqStep` are the micro-steps that follow (spec/20_memory.md R58). -/

namespace Sys2Proof.Machine

/-! ## Writer -/

/-- The counter at 0 and with a value (R182). -/
def zeroCounter (s : State) : State :=
  { s with image := writeWord s.image 0 0, scValid := true, published := 0, lags := forgetLeft s.lags }

/-- BR_INIT (R182). -/
def execBrInit (s : State) : StepOutcome := s.asWriter fun s => (zeroCounter s).done {}

/-- BR_ENQ: the checks and E0 (R183, R184). -/
def execBrEnq (s : State) : StepOutcome :=
  if s.din.length ≠ s.params.MAX then s.raise .badOperand
  else if s.scValid = false then s.raise .uninitialized
  else s.asWriter fun s => .next { s with
    wop := .enq s.sendCounter s.arg0 s.din (slotOffsets s.params (s.sendCounter.toNat % s.params.Q)) }

/-- The item's byte for image offset `o`, given the offset `base` of its slot (R185). -/
def itemByteAt (base : Nat) (len : Word) (payload : List Byte) (o : Nat) : Byte :=
  (itemBytes len payload).getD (o - base) 0

/-- The counter one past the item in flight, nothing in flight (R186). -/
def storeNext (s : State) (sent : Word) : State :=
  { s with
    image := writeWord s.image 0 (sent + 1), wop := .idle, published := s.published + 1, lags := countEnqueue s.lags }

/-- E2: publish, emit ItemEnqueued, end the command (R186). Refused where it would leave a reader 2^32 items behind
(spec/60_exceptions.md R258 item 5). -/
def publishItem (s : State) (sent : Word) : StepOutcome :=
  if s.lapsReader then .refused .counterLapped
  else ((storeNext s sent).emit .itemEnqueued).done {}

/-- E1: write the item's byte at one pending offset (R185). -/
def writeSlotByte (s : State) (sent len : Word) (payload : List Byte) (pending : List Nat) (o : Nat) : StepOutcome :=
  if o < s.params.ringBytes then
    .next { s with
      image := Memory.write s.image o (itemByteAt (slotBase s.params (sent.toNat % s.params.Q)) len payload o)
      wop := .enq sent len payload (pending.erase o) }
  else .fault (.noSuchAddress o)

/-- The pending offset that `pick` chooses. -/
def choosePending (o : Nat) (os : List Nat) (pick : Nat) : Nat := (o :: os).getD (pick % (o :: os).length) o

/-- The next micro-step of the enqueue in flight: E1 while bytes are pending, then E2. -/
def enqStep (s : State) (pick : Nat) : StepOutcome :=
  match s.wop with
  | .idle => .next s
  | .enq sent _ _ [] => publishItem s sent
  | .enq sent len payload (o :: os) => writeSlotByte s sent len payload (o :: os) (choosePending o os pick)

/-! ## Readers -/

/-- Cursor `r` at 0 and with a value: every item since BR_INIT is unseen (R188). -/
def zeroCursor (s : State) (r : Nat) : State :=
  (s.setReader r { s.reader r with numRecv := 0, valid := true, received := 0 }).setLag r s.published

/-- BR_RINIT (R188). Refused where the writer is already 2^32 items ahead (spec/60_exceptions.md R258 item 5). -/
def execBrRinit (r : Nat) (s : State) : StepOutcome :=
  s.withReader r fun _ => s.asReader r fun s =>
    if tooFarAhead s.published then .refused .counterLapped
    else (zeroCursor s r).done {}

/-- `dropped` of D1: `max(0, unseen − (Q − 1))` (R192). -/
def droppedItems (Q : Nat) (unseen : Word) : Word :=
  if Q - 1 < unseen.toNat then unseen - wrap32 (Q - 1) else 0

/-- D1 with an item to take: advance the cursor, start the copy (R193). -/
def startCopy (s : State) (r : Nat) (sent unseen : Word) : State :=
  let rd := s.reader r
  let dropped := droppedItems s.params.Q unseen
  let recv := rd.numRecv + dropped + 1
  let idx := wrap32 ((recv - 1).toNat % s.params.Q)
  (s.setReader r { rd with
    numRecv := recv
    received := rd.received + dropped.toNat + 1
    rop := .deq sent dropped idx (List.replicate (4 + s.params.MAX) none) (slotOffsets s.params idx.toNat) }).setLag r
      (sent - recv).toNat

/-- BR_DEQ: the checks and D1 (R189 to R193). -/
def execBrDeq (r : Nat) (s : State) : StepOutcome :=
  s.withReader r fun rd =>
    if rd.valid = false ∨ s.scValid = false then s.raise .uninitialized
    else s.asReader r fun s =>
      if s.sendCounter - rd.numRecv = 0 then (s.setLag r 0).done { code := DeqEnd.number .empty }
      else .next (startCopy s r s.sendCounter (s.sendCounter - rd.numRecv))

/-- D2: copy the image byte at one pending offset (R194). -/
def copySlotByte (s : State) (r : Nat) (sent dropped idx : Word) (copy : List (Option Byte)) (pending : List Nat)
    (o : Nat) : StepOutcome :=
  if o < s.params.ringBytes then
    .next (s.setReader r { s.reader r with
      rop := .deq sent dropped idx (copy.set (o - slotBase s.params idx.toNat) (some (Memory.read s.image o)))
        (pending.erase o) })
  else .fault (.noSuchAddress o)

/-- The bytes of a finished copy (notes/assumptions/16.md for a byte that is missing). -/
def copyBytes (copy : List (Option Byte)) : List Byte := copy.map (·.getD 0)

/-- D4's test on the counter read again at D3 (R195, R196). -/
def stillWhole (Q : Nat) (sent2 numRecv : Word) : Bool := decide ((sent2 - numRecv + 1).toNat < Q)

/-- D3 and D4, one micro-step: decide Ok or Racy and end the command (R195, R196). -/
def finishCopy (s : State) (r : Nat) (dropped : Word) (copy : List (Option Byte)) : StepOutcome :=
  let whole := stillWhole s.params.Q s.sendCounter (s.reader r).numRecv
  (s.setReader r { s.reader r with rop := .idle }).done
    { code := if whole then DeqEnd.number .ok else DeqEnd.number .racy
      val0 := if whole then dropped else dropped + 1
      val1 := wordOfBytes (copyBytes copy)
      dout := (copyBytes copy).drop 4 }

/-- The next micro-step of the dequeue in flight on cursor `r`: D2 while bytes are pending, then D3 with D4. -/
def deqStep (s : State) (r : Nat) (pick : Nat) : StepOutcome :=
  match (s.reader r).rop with
  | .idle => .next s
  | .deq _ dropped _ copy [] => finishCopy s r dropped copy
  | .deq sent dropped idx copy (o :: os) =>
    copySlotByte s r sent dropped idx copy (o :: os) (choosePending o os pick)

/-- BR_ISEMPTY (R197). -/
def execBrIsempty (r : Nat) (s : State) : StepOutcome :=
  s.withReader r fun rd =>
    if rd.valid = false ∨ s.scValid = false then s.raise .uninitialized
    else s.asReader r fun s => s.done { code := boolCode (s.sendCounter == rd.numRecv) }

end Sys2Proof.Machine
end

