-- ==== Sys2Proof/Machine/Checksum.lean ====
section
/-! DEFINITION. The checksum family (spec/41_checksum.md). -/

namespace Sys2Proof.Machine

/-- The additive checksum of a byte string: the sum of its bytes modulo 2^32 (R100). -/
def checksum (bs : List Byte) : Word := wrap32 (bs.map BitVec.toNat).sum

/-- CKSUM (R101). -/
def execCksum (s : State) : StepOutcome :=
  s.withDin fun din => s.done { val0 := checksum din }

end Sys2Proof.Machine
end

