-- ==== Sys2Proof/Machine/RingByteChannel.lean ====
section
/-! DEFINITION. The RingByteChannel family (spec/42_ring_byte_channel.md): the channel functions the framer shares, and the
five commands. `N` is the ring capacity. -/

namespace Sys2Proof.Machine

/-! ## Occupancy, capacity and the bytes of the ring -/

/-- `occupied(c) = (write_offset − read_offset) mod N` (R120); the read offset is below N (spec/10_state.md R25). -/
def occupied (N : Nat) (ch : Channel) : Nat := (ch.writeOffset + N - ch.readOffset) % N

/-- `remcap(c) = N − 1 − occupied(c)` (R121, spec/90_conflicts.md C1). -/
def remcap (N : Nat) (ch : Channel) : Nat := N - 1 - occupied N ch

/-- `RingByte(c, k)`: the byte at ring index k mod N (spec/00_scope.md R8, spec/20_memory.md R54). -/
def ringByte (N : Nat) (ch : Channel) (k : Nat) : Byte := Memory.read ch.data (k % N)

/-- The `count` bytes from ring index `start` on. -/
def ringBytes (N : Nat) (ch : Channel) (start count : Nat) : List Byte :=
  (List.range count).map fun k => ringByte N ch (start + k)

/-- The bytes appended and not yet consumed, oldest first (R133 (c)). -/
def unread (N : Nat) (ch : Channel) : List Byte := ringBytes N ch ch.readOffset (occupied N ch)

/-! ## Append (R123) -/

/-- Store bytes at ring indexes k, k + 1, … modulo N. -/
def writeRing (N : Nat) : Memory → Nat → List Byte → Memory
  | m, _, [] => m
  | m, k, b :: bs => writeRing N (Memory.write m (k % N) b) (k + 1) bs

/-- `AppendBytes(c, s)`, all or nothing: `none` where there is no room (R123). -/
def appendBytes (N : Nat) (ch : Channel) (bs : List Byte) : Option Channel :=
  if remcap N ch < bs.length then none
  else some { ch with
    data := writeRing N ch.data ch.writeOffset bs
    writeOffset := (ch.writeOffset + bs.length) % N }

/-! ## Marker search (R125) -/

/-- The start indexes that FindMarker tries, in order: start, start + 1, … while i + L ≤ occupied. -/
def markerStarts (N : Nat) (ch : Channel) (L start : Nat) : List Nat :=
  List.range' start (occupied N ch + 1 - L - start)

/-- `FindMarker(c, m, start)`: the offset just after the leftmost match at or after `start`, relative to the read offset
(R125). -/
def findMarker (N : Nat) (ch : Channel) (m : List Byte) (start : Nat) : Option Nat :=
  ((markerStarts N ch m.length start).find? fun i => ringBytes N ch (ch.readOffset + i) m.length == m).map
    (· + m.length)

/-! ## The ASCII integer decoder (R127, R128) -/

/-- `DigitValue(x, radix)` (R128). -/
def digitValue (x : Byte) (radix : Nat) : Option Nat :=
  let v := x.toNat
  if 0x30 ≤ v ∧ v ≤ 0x39 then (if v - 0x30 < radix then some (v - 0x30) else none)
  else if radix = 16 ∧ 0x61 ≤ v ∧ v ≤ 0x66 then some (v - 0x57)
  else if radix = 16 ∧ 0x41 ≤ v ∧ v ≤ 0x46 then some (v - 0x37)
  else none

/-- The digit loop of R127 from value `v` on: no value on a non-digit or above 2^32 − 1. -/
def readDigits (radix : Nat) : Nat → List Byte → Option Nat
  | v, [] => some v
  | v, x :: xs =>
    match digitValue x radix with
    | none => none
    | some d => if 2 ^ 32 - 1 < v * radix + d then none else readDigits radix (v * radix + d) xs

/-- Drop an optional leading '-' (ignored, not negated; R127). -/
def dropMinus : List Byte → List Byte
  | [] => []
  | x :: xs => if x = 0x2D then xs else x :: xs

/-- The radix and the bytes that hold the digits (R127): with `auto`, "0x" selects 16 and is dropped, a leading '0'
selects 8 and stays a digit; otherwise 10. -/
def detectRadix (auto : Bool) (bs : List Byte) : Nat × List Byte :=
  match auto, bs with
  | true, x :: y :: rest => if x = 0x30 then (if y = 0x78 then (16, rest) else (8, bs)) else (10, bs)
  | true, [x] => if x = 0x30 then (8, bs) else (10, bs)
  | _, _ => (10, bs)

/-- The decoder of R127 on the bytes of its region: leading spaces, an optional '-', the radix, then digits; an empty
digit string has no value. -/
def parseUint (bs : List Byte) (auto : Bool) : Option Nat :=
  match detectRadix auto (dropMinus (bs.dropWhile (· == 0x20))) with
  | (_, []) => none
  | (radix, d :: ds) => readDigits radix 0 (d :: ds)

/-- `ReadUint(c, b, s, e, auto)` (R127). -/
def readUint (N : Nat) (ch : Channel) (b s e : Nat) (auto : Bool) : Option Nat :=
  parseUint (ringBytes N ch (b + s) (e - s)) auto

/-! ## Consumption (R130) -/

/-- `AdvanceRead(c, n)` (R130). -/
def advanceRead (N : Nat) (ch : Channel) (n : Nat) : Channel :=
  { ch with readOffset := (ch.readOffset + n) % N }

/-! ## The commands -/

/-- RB_REMCAP (R122). -/
def execRbRemcap (c : Nat) (s : State) : StepOutcome :=
  s.withChannel c fun ch => s.done { val0 := wrap32 (remcap s.params.N ch) }

/-- RB_APPEND (R124). -/
def execRbAppend (c : Nat) (s : State) : StepOutcome :=
  s.withChannel c fun ch => s.withDin fun din =>
    match appendBytes s.params.N ch din with
    | some ch' => (s.setChannel c ch').done { code := boolCode true }
    | none => s.done { code := boolCode false }

/-- RB_FIND (R126). -/
def execRbFind (c : Nat) (s : State) : StepOutcome :=
  s.withChannel c fun ch =>
    if s.din.length = 0 ∨ s.params.DIN_MAX < s.din.length then s.raise .badOperand
    else match findMarker s.params.N ch s.din s.arg0.toNat with
      | some k => s.done { code := boolCode true, val0 := wrap32 k }
      | none => s.done { code := boolCode false }

/-- RB_READUINT (R129). -/
def execRbReaduint (c : Nat) (auto : Bool) (s : State) : StepOutcome :=
  s.withChannel c fun ch =>
    if ¬(s.arg0.toNat ≤ s.arg1.toNat ∧ s.arg1.toNat ≤ occupied s.params.N ch) then s.raise .badOperand
    else match readUint s.params.N ch ch.readOffset s.arg0.toNat s.arg1.toNat auto with
      | some v => s.done { code := boolCode true, val0 := wrap32 v }
      | none => s.done { code := boolCode false }

/-- RB_ADVANCE (R131). -/
def execRbAdvance (c : Nat) (s : State) : StepOutcome :=
  s.withChannel c fun ch =>
    if occupied s.params.N ch < s.arg0.toNat then s.raise .badOperand
    else (s.setChannel c (advanceRead s.params.N ch s.arg0.toNat)).done {}

end Sys2Proof.Machine
end

