-- ==== Sys2Proof/Machine/SentinelFramer.lean ====
section
/-! DEFINITION. The SentinelFramer family (spec/43_sentinel_framer.md): markers, the wire format, FR_APPEND and the
delimiter state machine FR_SCAN. -/

namespace Sys2Proof.Machine

/-! ## Markers and wire format (R150 to R152) -/

/-- `BEFORE_SIZE`, "+=+=+=+=" (R150). -/
def beforeSize : List Byte := [0x2B, 0x3D, 0x2B, 0x3D, 0x2B, 0x3D, 0x2B, 0x3D]

/-- `AFTER_SIZE`, "#@#@#@#@" (R150). -/
def afterSize : List Byte := [0x23, 0x40, 0x23, 0x40, 0x23, 0x40, 0x23, 0x40]

/-- `BEFORE_CHECKSUM`, "!%!%!%!%" (R150). -/
def beforeChecksum : List Byte := [0x21, 0x25, 0x21, 0x25, 0x21, 0x25, 0x21, 0x25]

/-- `AFTER_CHECKSUM`, "?^?^?^?^" (R150). -/
def afterChecksum : List Byte := [0x3F, 0x5E, 0x3F, 0x5E, 0x3F, 0x5E, 0x3F, 0x5E]

/-- The byte of a decimal digit, 0x30 + d (R151, spec/20_memory.md R53). -/
def digitByte (d : Nat) : Byte := BitVec.ofNat 8 (0x30 + d)

/-- The decimal digits of `v`, at most `fuel` of them, most significant first, no leading zero. -/
def decimalDigits : Nat → Nat → List Byte
  | 0, _ => []
  | fuel + 1, v =>
    if v < 10 then [digitByte v] else decimalDigits fuel (v / 10) ++ [digitByte (v % 10)]

/-- `dec(v)` for a u32 `v`: 1 to 10 digits (R151). -/
def dec (v : Nat) : List Byte := decimalDigits 10 v

/-- `EncodeFrame(p)` (R152). -/
def encodeFrame (p : List Byte) : List Byte :=
  beforeSize ++ dec p.length ++ afterSize ++ p ++ beforeChecksum ++ dec (checksum p).toNat ++ afterChecksum

/-! ## The delimiter state machine (R154, R155) -/

/-- The four offsets of a complete span, relative to the read offset: just after each marker in turn. -/
structure Span where
  a1 : Nat
  a2 : Nat
  a3 : Nat
  a4 : Nat
  deriving DecidableEq, Repr

/-- SEEK_AC: `AFTER_CHECKSUM` from a3 on (R154). -/
def seekAfterChecksum (N : Nat) (ch : Channel) (a1 a2 a3 : Nat) : Option Span :=
  match findMarker N ch afterChecksum a3 with
  | none => none
  | some a4 => some ⟨a1, a2, a3, a4⟩

/-- SEEK_BC: `BEFORE_CHECKSUM` from a2 on (R154). -/
def seekBeforeChecksum (N : Nat) (ch : Channel) (a1 a2 : Nat) : Option Span :=
  match findMarker N ch beforeChecksum a2 with
  | none => none
  | some a3 => seekAfterChecksum N ch a1 a2 a3

/-- SEEK_AS: `AFTER_SIZE` from a1 on (R154). -/
def seekAfterSize (N : Nat) (ch : Channel) (a1 : Nat) : Option Span :=
  match findMarker N ch afterSize a1 with
  | none => none
  | some a2 => seekBeforeChecksum N ch a1 a2

/-- SEEK_BS to SEEK_AC: the four marker searches; `none` is an Incomplete end (R154). -/
def findSpan (N : Nat) (ch : Channel) : Option Span :=
  match findMarker N ch beforeSize 0 with
  | none => none
  | some a1 => seekAfterSize N ch a1

/-- COMMIT: consume the whole span and count the bytes before it as disregarded (R155). -/
def commitSpan (N : Nat) (ch : Channel) (sp : Span) : Channel :=
  { advanceRead N ch sp.a4 with disregardedCount := ch.disregardedCount + wrap32 (sp.a1 - 8) }

/-- How a committed span ends, and the bytes it copies: PARSE_SIZE, PARSE_CKS, CHECK_CAP, COPY_VERIFY, read from the base
before COMMIT (R155). The decoded size is not checked against the span (R163). -/
def judgeSpan (N : Nat) (ch : Channel) (sp : Span) (cap : Nat) : FrameEnd × List Byte :=
  match readUint N ch ch.readOffset sp.a1 (sp.a2 - 8) true with
  | none => (.malformed, [])
  | some sz =>
    match readUint N ch ch.readOffset sp.a3 (sp.a4 - 8) true with
    | none => (.malformed, [])
    | some ck =>
      if cap < sz then (.bufferTooSmall, [])
      else
        let out := ringBytes N ch (ch.readOffset + sp.a2) sz
        if (checksum out).toNat = ck then (.ok, out) else (.integrityFailure, out)

/-- The telemetry counters after a committed span: one valid frame, or one invalid (R156). -/
def countFrame (ch : Channel) (e : FrameEnd) : Channel :=
  if e = .ok then { ch with validCount := ch.validCount + 1 } else { ch with invalidCount := ch.invalidCount + 1 }

/-- The results of a committed span: DOUT the copy, VAL0 the payload size only on Ok (R84, R157). -/
def frameResults (e : FrameEnd) (out : List Byte) : Results :=
  { code := e.number, val0 := if e = .ok then wrap32 out.length else 0, dout := out }

/-! ## The commands -/

/-- FR_APPEND (R153). -/
def execFrAppend (c : Nat) (s : State) : StepOutcome :=
  s.withChannel c fun ch => s.withDin fun din =>
    match appendBytes s.params.N ch (encodeFrame din) with
    | some ch' => ((s.setChannel c ch').emit (.frameAppended c)).done { code := boolCode true }
    | none => s.done { code := boolCode false }

/-- FR_SCAN (R155). -/
def execFrScan (c : Nat) (s : State) : StepOutcome :=
  s.withChannel c fun ch =>
    match findSpan s.params.N ch with
    | none => s.done { code := FrameEnd.number .incomplete }
    | some sp =>
      match judgeSpan s.params.N ch sp s.arg0.toNat with
      | (e, out) => (s.setChannel c (countFrame (commitSpan s.params.N ch sp) e)).done (frameResults e out)

end Sys2Proof.Machine
end

