-- ==== Sys2Proof/Machine/System.lean ====
section
/-! DEFINITION. The system family (spec/45_system.md): the register map and REG_READ. -/

namespace Sys2Proof.Machine

/-- What reading a register number gives (R220, R221). -/
inductive RegValue where
  /-- The number names no register: BAD_OPERAND. -/
  | noRegister
  /-- The register's counter has no value yet: UNINITIALIZED. -/
  | noValue
  | value (v : Word)
  deriving DecidableEq, Repr

/-- The six constant parameter registers (R220). -/
def paramRegister (p : Params) : Nat → RegValue
  | 0x0010 => .value (wrap32 p.N)
  | 0x0011 => .value (wrap32 p.Q)
  | 0x0012 => .value (wrap32 p.MAX)
  | 0x0013 => .value (wrap32 p.NCH)
  | 0x0014 => .value (wrap32 p.NRD)
  | 0x0015 => .value (wrap32 p.DIN_MAX)
  | _ => .noRegister

/-- SEND_COUNTER and SEND_VALID (R220). -/
def ringRegister (s : State) : Nat → RegValue
  | 0x0800 => if s.scValid then .value s.sendCounter else .noValue
  | 0x0801 => .value (boolCode s.scValid)
  | _ => .noRegister

/-- Register 0x1000 + 16c + k of a channel unit, by k (R220). -/
def channelRegister (N : Nat) (ch : Channel) : Nat → RegValue
  | 0 => .value (wrap32 ch.writeOffset)
  | 1 => .value (wrap32 ch.readOffset)
  | 2 => .value (wrap32 (occupied N ch))
  | 3 => .value ch.validCount
  | 4 => .value ch.invalidCount
  | 5 => .value ch.disregardedCount
  | 6 => .value (wrap32 (remcap N ch))
  | _ => .noRegister

/-- Register 0x2000 + 16r + k of a reader cursor, by k (R220). -/
def readerRegister (rd : Reader) : Nat → RegValue
  | 0 => if rd.valid then .value rd.numRecv else .noValue
  | 1 => .value (boolCode rd.valid)
  | _ => .noRegister

/-- The register map (R220). -/
def readRegister (s : State) (n : Nat) : RegValue :=
  if n < 0x0800 then paramRegister s.params n
  else if n < 0x1000 then ringRegister s n
  else if n < 0x2000 then
    (if (n - 0x1000) / 16 < s.params.NCH then
      channelRegister s.params.N (s.channel ((n - 0x1000) / 16)) ((n - 0x1000) % 16)
    else .noRegister)
  else if (n - 0x2000) / 16 < s.params.NRD then
    readerRegister (s.reader ((n - 0x2000) / 16)) ((n - 0x2000) % 16)
  else .noRegister

/-- REG_READ (R221). -/
def execRegRead (s : State) : StepOutcome :=
  match readRegister s s.arg0.toNat with
  | .noRegister => s.raise .badOperand
  | .noValue => s.raise .uninitialized
  | .value v => s.done { val0 := v }

end Sys2Proof.Machine
end

