-- ==== Sys2Proof/Machine/Dispatch.lean ====
section
/-! DEFINITION. One arm per command: the first micro-step of the command on the executing port. -/

namespace Sys2Proof.Machine

def exec (i : Instr) (s : State) : Host.Outcome State Fault Refusal :=
  match i with
  | .cksum => Sys2Proof.Machine.execCksum s
  | .regRead => Sys2Proof.Machine.execRegRead s
  | .rbRemcap c => Sys2Proof.Machine.execRbRemcap c s
  | .rbAppend c => Sys2Proof.Machine.execRbAppend c s
  | .rbFind c => Sys2Proof.Machine.execRbFind c s
  | .rbReaduint c auto => Sys2Proof.Machine.execRbReaduint c auto s
  | .rbAdvance c => Sys2Proof.Machine.execRbAdvance c s
  | .frAppend c => Sys2Proof.Machine.execFrAppend c s
  | .frScan c => Sys2Proof.Machine.execFrScan c s
  | .brInit => Sys2Proof.Machine.execBrInit s
  | .brEnq => Sys2Proof.Machine.execBrEnq s
  | .brRinit r => Sys2Proof.Machine.execBrRinit r s
  | .brDeq r => Sys2Proof.Machine.execBrDeq r s
  | .brIsempty r => Sys2Proof.Machine.execBrIsempty r s

end Sys2Proof.Machine
end

