-- ==== Sys2Proof/Machine/Schedule.lean ====
section
/-! DEFINITION. Who moves next and with what: commands in flight, agents that can act, the interleaving, the host notation of
an agent's list, and the reset input (spec/20_memory.md R58, R59; spec/60_exceptions.md R248, R251;
spec/30_encoding.md R83; spec/70_reset_and_hazards.md R270, R271). -/

namespace Sys2Proof.Machine

/-- The command a port has in flight: at most one (R251). -/
inductive InFlight where
  | nothing
  | enq
  | deq (r : Nat)
  deriving DecidableEq, Repr

/-- The enqueue in flight is port `a`'s. -/
def State.enqueuing (s : State) (a : Nat) : Bool := decide (s.writer = some a) && decide (s.wop ≠ .idle)

/-- The dequeue in flight on this cursor is port `a`'s. -/
def Reader.dequeuing (rd : Reader) (a : Nat) : Bool := decide (rd.owner = some a) && decide (rd.rop ≠ .idle)

/-- The command port `a` has in flight, read off `wop` and `rop` (spec/10_state.md R31, R32; notes/assumptions/15.md). -/
def State.inFlight (s : State) (a : Nat) : InFlight :=
  if s.enqueuing a then .enq
  else match s.readers.findIdx? (·.dequeuing a) with
    | some r => .deq r
    | none => .nothing

/-- The next line of an agent's list, if it has not ended (spec/10_state.md R21). -/
def State.nextLine (s : State) (a : Nat) : Option Line := (s.port a).program[(s.port a).pc]?

/-- Port `a` has a command in flight or a line left. -/
def State.canAct (s : State) (a : Nat) : Bool := decide (s.inFlight a ≠ .nothing) || (s.nextLine a).isSome

/-- The ports whose agents can act, in order. -/
def State.active (s : State) : List Nat := (List.range s.ports.length).filter s.canAct

/-- The next free turn is kept for a command in flight (R59; notes/assumptions/6.md). -/
def State.turnKept (s : State) : Bool := decide (Config.freeGap s.choices.kept ≤ s.choices.since)

/-- The port whose command in flight the next kept turn is for: each port in its turn. -/
def State.keptPort (s : State) : Nat := s.choices.kept % s.ports.length

/-- The count after one more free choice. -/
def State.nextChoices (s : State) : Choices :=
  if s.turnKept then { made := s.choices.made + 1, since := 0, kept := s.choices.kept + 1 }
  else { s.choices with made := s.choices.made + 1, since := s.choices.since + 1 }

/-- Who moves at a free choice among the agents `a :: as` that can act: a kept turn goes to its port where that has a
command in flight, every other turn to any of them. -/
def State.chooseAgent (s : State) (a : Nat) (as : List Nat) : Nat :=
  if s.turnKept = true ∧ s.inFlight s.keptPort ≠ .nothing then s.keptPort
  else (a :: as).getD (Config.freeAgent s.choices.made % (a :: as).length) a

/-- The next move and the state that goes on with it: the head of `turns`, or a free choice among the agents that can
act when `turns` is used up (R59; notes/assumptions/6.md, 7.md), or nobody where none can (notes/assumptions/13.md). -/
def State.takeTurn (s : State) : Turn × State :=
  match s.turns with
  | t :: ts => (t, { s with turns := ts })
  | [] =>
    match s.active with
    | [] => (.idle, s)
    | a :: as => (.agent (s.chooseAgent a as) (Config.freePick s.choices.made), { s with choices := s.nextChoices })

/-- Where an agent goes on after a line of the host notation (R83). -/
def Line.nextPc (line : Line) (p : Port) : Nat :=
  match line with
  | .command _ => p.pc
  | .bcode k target => if p.code = k then target else p.pc + 1
  | .bncode k target => if p.code = k then p.pc + 1 else target
  | .bstat st target => if p.status = st then target else p.pc + 1
  | .halt => p.program.length

/-- The agent of port `a` runs a line of the host notation: only its own index moves (R83; notes/assumptions/19.md). -/
def State.runHostLine (s : State) (a : Nat) (line : Line) : State :=
  s.setPort a { s.port a with pc := line.nextPc (s.port a) }

/-- The reset input on a port: results at their reset values, the inputs and the list left to the agent, which starts
its list again (R270, R271; notes/assumptions/12.md). -/
def Port.applyReset (p : Port) : Port :=
  { p with status := 0, code := 0, val0 := 0, val1 := 0, dout := [], pc := 0 }

/-- The reset input: every piece of state at its reset value at once, anything in flight abandoned (R270, R271). -/
def State.applyReset (s : State) : State :=
  { State.resetWith s.params with
    ports := s.ports.map Port.applyReset, turns := s.turns, choices := s.choices }

end Sys2Proof.Machine
end

