-- ==== Sys2Proof/Machine/Issue.lean ====
section
/-! DEFINITION. One micro-step of the block for the agent whose turn it is (spec/20_memory.md R58): the next micro-step of
its command in flight, or the next line of its list. -/

namespace Sys2Proof.Machine

/-- Issue a command on port `a`: load the operands, decode the word, and take the command's first micro-step. An illegal
word ends the command with ILLEGAL_COMMAND and no state change (spec/30_encoding.md R70, R74, R78). -/
def issue (s : State) (a : Nat) (cmd : Command) : StepOutcome :=
  match decode cmd.word with
  | .instr i => exec i (s.present a cmd)
  | .illegal _ => (s.present a cmd).raise .illegalCommand

/-- The next line of the agent of port `a` (spec/10_state.md R21); nothing happens where its list has ended. -/
def runLine (s : State) (a : Nat) : StepOutcome :=
  match s.nextLine a with
  | none => .next s
  | some (.command cmd) => issue s a cmd
  | some (.bcode k t) => .next (s.runHostLine a (.bcode k t))
  | some (.bncode k t) => .next (s.runHostLine a (.bncode k t))
  | some (.bstat st t) => .next (s.runHostLine a (.bstat st t))
  | some .halt => .next (s.runHostLine a .halt)

/-- The agent of port `a` moves (spec/60_exceptions.md R251: a new command only after the previous one ended). -/
def moveAgent (s : State) (a pick : Nat) : StepOutcome :=
  match s.inFlight a with
  | .enq => enqStep { s with cur := a } pick
  | .deq r => deqStep { s with cur := a } r pick
  | .nothing => runLine s a

/-- One move of the interleaving. -/
def takeMove (t : Turn) (s : State) : StepOutcome :=
  match t with
  | .agent a pick => moveAgent s a pick
  | .reset => .next s.applyReset
  | .idle => .next s

/-! ## Placing one command where the next step takes it -/

/-- A reader cursor with nothing of port 0 in flight. -/
def Reader.clearFirst (rd : Reader) : Reader := if rd.dequeuing 0 then { rd with rop := .idle } else rd

/-- Port 0 with one command as its whole list, next to be issued; it presents the operands the port holds. -/
def Port.withWord (p : Port) (w : Word) : Port :=
  { p with program := [.command ⟨w, p.arg0, p.arg1, p.din⟩], pc := 0 }

/-- The ports with `w` as the one command of port 0. -/
def placeWord (w : Word) : List Port → List Port
  | [] => [Port.reset.withWord w]
  | p :: ps => p.withWord w :: ps

/-- `s` with `w` as the command the agent of port 0 issues in the very next step (notes/assumptions/8.md). -/
def State.placeCommand (s : State) (w : Word) : State :=
  { s with
    ports := placeWord w s.ports
    wop := if s.enqueuing 0 then .idle else s.wop
    readers := s.readers.map Reader.clearFirst
    turns := .agent 0 0 :: s.turns }

end Sys2Proof.Machine
end

