-- ==== Sys2Proof/Machine/Step.lean ====
section
/-! DEFINITION. One step of the machine: one move of the interleaving (spec/20_memory.md R59). -/

namespace Sys2Proof.Machine

/-- Take the next turn: one micro-step of one agent, or the reset input (R58, R59). -/
def step (s : State) : Host.Outcome State Fault Refusal :=
  match s.takeTurn with
  | (t, s') => takeMove t s'

/-- `s` with the command word `w` placed so that the very next step issues exactly it: as the one line of port 0's list,
with port 0's turn next (notes/assumptions/8.md). -/
def State.withFetchWord (s : State) (nbits w : Nat) : State := s.placeCommand (wrap32 (w % 2 ^ nbits))

end Sys2Proof.Machine
end

