-- ==== Sys2Proof/Machine/Assembly.lean ====
section
/-! DEFINITION. The assembler syntax and the pseudo-instructions (spec/30_encoding.md R81, R82), as terms: what each line of
assembly is as a line of an agent's list. -/

namespace Sys2Proof.Machine

/-- One assembly line (R81), a pseudo-instruction (R82) or host notation (R83). Labels are indexes of the list. -/
inductive Asm where
  | cksum (bytes : List Byte)
  | regrd (reg : Word)
  | rbRemcap (c : Nat)
  | rbAppend (c : Nat) (bytes : List Byte)
  | rbFind (c : Nat) (start : Word) (marker : List Byte)
  | rbReaduint (c : Nat) (start stop : Word) (auto : Bool)
  | rbAdvance (c : Nat) (n : Word)
  | frAppend (c : Nat) (payload : List Byte)
  | frScan (c : Nat) (cap : Word)
  | brInit
  | brEnq (len : Word) (payload : List Byte)
  | brRinit (r : Nat)
  | brDeq (r : Nat)
  | brIsempty (r : Nat)
  | rbOccupied (c : Nat)
  | rbWroff (c : Nat)
  | rbRdoff (c : Nat)
  | frValid (c : Nat)
  | frInvalid (c : Nat)
  | frDisregarded (c : Nat)
  | brSent
  | brNumrecv (r : Nat)
  | frRecv (c : Nat) (cap : Word)
  | brPoll (r : Nat)
  | host (line : Line)
  deriving DecidableEq, Repr

/-- A command line: an omitted operand is 0 (ARG0, ARG1) or empty (DIN) (R81). -/
def commandLine (i : Instr) (arg0 : Word := 0) (arg1 : Word := 0) (din : List Byte := []) : Line :=
  .command ⟨encode i, arg0, arg1, din⟩

/-- `regrd` of register `k` of channel `c` (R82). -/
def channelReg (c k : Nat) : List Line := [commandLine .regRead (wrap32 (0x1000 + 16 * c + k))]

/-- The lines that an assembly line at index `at_` stands for (R81, R82). -/
def Asm.lines (at_ : Nat) : Asm → List Line
  | .cksum bytes => [commandLine .cksum (din := bytes)]
  | .regrd reg => [commandLine .regRead reg]
  | .rbRemcap c => [commandLine (.rbRemcap c)]
  | .rbAppend c bytes => [commandLine (.rbAppend c) (din := bytes)]
  | .rbFind c start marker => [commandLine (.rbFind c) start (din := marker)]
  | .rbReaduint c start stop auto => [commandLine (.rbReaduint c auto) start stop]
  | .rbAdvance c n => [commandLine (.rbAdvance c) n]
  | .frAppend c payload => [commandLine (.frAppend c) (din := payload)]
  | .frScan c cap => [commandLine (.frScan c) cap]
  | .brInit => [commandLine .brInit]
  | .brEnq len payload => [commandLine .brEnq len (din := payload)]
  | .brRinit r => [commandLine (.brRinit r)]
  | .brDeq r => [commandLine (.brDeq r)]
  | .brIsempty r => [commandLine (.brIsempty r)]
  | .rbOccupied c => channelReg c 2
  | .rbWroff c => channelReg c 0
  | .rbRdoff c => channelReg c 1
  | .frValid c => channelReg c 3
  | .frInvalid c => channelReg c 4
  | .frDisregarded c => channelReg c 5
  | .brSent => [commandLine .regRead 0x0800]
  | .brNumrecv r => [commandLine .regRead (wrap32 (0x2000 + 16 * r + 0))]
  | .frRecv c cap => [commandLine (.frScan c) cap, .bcode 1 at_]
  | .brPoll r => [commandLine (.brDeq r), .bcode 0 at_]
  | .host line => [line]

/-- The agent's list that a sequence of assembly lines stands for, the first line at index `at_`. -/
def assembleFrom (at_ : Nat) : List Asm → List Line
  | [] => []
  | a :: as => a.lines at_ ++ assembleFrom (at_ + (a.lines at_).length) as

/-- The agent's list of an assembly program. -/
def assemble (prog : List Asm) : List Line := assembleFrom 0 prog

end Sys2Proof.Machine
end

