-- ==== Sys2Proof/Safety.lean ====
section
/-! DEFINITION. What counts as a legal state and a safe run, in the terms the statements use: the invariant, the end of a
run (spec/60_exceptions.md R259), the frames of commands, and the history behind the broadcast ring
(spec/20_memory.md R65). -/

namespace Sys2Proof.Machine

/-! ## The invariant -/

/-- A channel unit as R23 to R25 of spec/10_state.md have it: a RAM of N bytes in its one form, both offsets in
[0, N). -/
def Channel.inv (N : Nat) (ch : Channel) : Bool :=
  Memory.wf ch.data && Memory.below N ch.data && decide (ch.writeOffset < N) && decide (ch.readOffset < N)

/-- The pending offsets of an operation on slot `i`: each once, each in the slot (spec/44_broadcast_ring.md R184, R193). -/
def pendingInv (p : Params) (i : Nat) (pending : List Nat) : Bool :=
  decide pending.Nodup && pending.all fun o => decide (o ∈ slotOffsets p i)

/-- The writer's operation in flight (R184): it belongs to the writer agent, its `s` is the counter's value, its item has
MAX payload bytes. -/
def State.writerInv (s : State) : Bool :=
  match s.wop with
  | .idle => true
  | .enq sent _ payload pending =>
    s.scValid && s.writer.isSome && decide (sent = s.sendCounter) && decide (payload.length = s.params.MAX) &&
      pendingInv s.params (sent.toNat % s.params.Q) pending

/-- A reader's operation in flight (R193): it copies slot (numRecv − 1) mod Q, and every byte that is not pending has been
copied. -/
def ReaderOp.inv (p : Params) (numRecv : Word) : ReaderOp → Bool
  | .idle => true
  | .deq _ _ idx copy pending =>
    decide (idx.toNat = (numRecv - 1).toNat % p.Q) && decide (copy.length = 4 + p.MAX) &&
      pendingInv p idx.toNat pending &&
      (slotOffsets p idx.toNat).all fun o => decide (o ∈ pending) || (copy.getD (o - slotBase p idx.toNat) none).isSome

/-- A reader cursor: `numRecv` is its unbounded count modulo 2^32; only a cursor in use by some port has an operation in
flight. -/
def Reader.inv (s : State) (rd : Reader) : Bool :=
  (!rd.valid || decide (rd.numRecv = wrap32 rd.received)) &&
  (decide (rd.rop = .idle) || (rd.valid && s.scValid && rd.owner.isSome)) &&
  rd.owner.all (fun a => decide (a < s.ports.length)) &&
  rd.rop.inv s.params rd.numRecv

/-- The invariant every step keeps: legal parameters, NCH channel units, NRD cursors, 1 + NRD + NUSER ports, memories of
their size in their one form, `sendCounter` the number of enqueues modulo 2^32, the writer less than 2^32 items ahead of
each initialised reader (R277 of spec/70_reset_and_hazards.md), operations in flight well-formed. -/
def State.inv (s : State) : Bool :=
  s.params.valid &&
  decide (s.channels.length = s.params.NCH) && s.channels.all (Channel.inv s.params.N) &&
  Memory.wf s.image && Memory.below s.params.ringBytes s.image &&
  decide (s.readers.length = s.params.NRD) && s.readers.all (Reader.inv s) &&
  decide (s.ports.length = 1 + s.params.NRD + s.params.NUSER) && decide (s.cur < s.ports.length) &&
  s.writer.all (fun a => decide (a < s.ports.length)) &&
  (if s.scValid then decide (s.sendCounter = wrap32 s.published) else decide (s.published = 0)) &&
  s.writerInv && decide (s.lags.length = s.params.NRD) &&
  (List.range s.params.NRD).all fun r => !(s.reader r).valid || !tooFarAhead (s.lag r).items

/-! ## The end of a run -/

/-- Every agent has ended its list and nothing is in flight (spec/60_exceptions.md R259). -/
def State.runEnded (s : State) : Bool :=
  ((List.range s.ports.length).all fun a => (s.nextLine a).isNone) && decide (s.wop = .idle) &&
    s.readers.all fun rd => decide (rd.rop = .idle)

/-! ## Who moves -/

/-- The next turn is that of agent `a` (spec/20_memory.md R59). -/
def State.moves (s : State) (a : Nat) : Prop := ∃ pick, s.takeTurn.1 = .agent a pick

/-- Agent `a` has the next turn and issues the command `i` in it (spec/30_encoding.md R70, spec/60_exceptions.md R251). -/
def State.issues (s : State) (a : Nat) (i : Instr) : Prop :=
  s.moves a ∧ s.inFlight a = .nothing ∧ ∃ cmd, s.nextLine a = some (.command cmd) ∧ decode cmd.word = .instr i

/-! ## Frames -/

/-- Nothing of the block but ports differs, and no port but the executing one: the command ended there with STATUS `st`
and results `res` (spec/30_encoding.md R75). `s` is the state before. -/
def endsWith (s t : State) (st : Status) (res : Results) : Prop :=
  t.port s.cur = (s.port s.cur).finish st res ∧ (∀ a, a ≠ s.cur → t.port a = s.port a) ∧
    t.ports.length = s.ports.length ∧ t.cur = s.cur

/-- The ports are as before: no command ended. -/
def samePorts (s t : State) : Prop := t.ports = s.ports ∧ t.cur = s.cur

/-- Every channel unit is as before. -/
def sameChannels (s t : State) : Prop := t.channels = s.channels

/-- Every channel unit but `c` is as before. -/
def sameOtherChannels (s t : State) (c : Nat) : Prop :=
  t.channels.length = s.channels.length ∧ ∀ d, d ≠ c → t.channel d = s.channel d

/-- The broadcast ring, its cursors and its operations in flight are as before. -/
def sameRing (s t : State) : Prop :=
  t.image = s.image ∧ t.scValid = s.scValid ∧ t.readers = s.readers ∧ t.wop = s.wop ∧ t.writer = s.writer ∧
    t.published = s.published ∧ t.lags = s.lags

/-- Every cursor but `r` is as before. -/
def sameOtherReaders (s t : State) (r : Nat) : Prop :=
  t.readers.length = s.readers.length ∧ ∀ q, q ≠ r → t.reader q = s.reader q

/-- Parameters, event trace and interleaving are as before. -/
def sameRest (s t : State) : Prop :=
  t.params = s.params ∧ t.events = s.events ∧ t.turns = s.turns ∧ t.choices = s.choices

/-- Nothing of the block differs but ports: the frame of a command that only reports. -/
def sameBlock (s t : State) : Prop := sameChannels s t ∧ sameRing s t ∧ sameRest s t

/-- The telemetry counters of a channel unit are as before. -/
def sameTelemetry (ch ch' : Channel) : Prop :=
  ch'.validCount = ch.validCount ∧ ch'.invalidCount = ch.invalidCount ∧
    ch'.disregardedCount = ch.disregardedCount

/-! ## The history behind the ring -/

/-- An item: length and payload (spec/10_state.md R31). -/
abbrev Item := Word × List Byte

/-- The item the writer has in flight. -/
def State.itemInFlight (s : State) : Item :=
  match s.wop with
  | .idle => (0, [])
  | .enq _ len payload _ => (len, payload)

/-- The items published since BR_INIT, after a step from `s` to `t`, given those before it. -/
def logAfter (s t : State) (log : List Item) : List Item :=
  if t.published = s.published then log
  else if t.published = 0 then []
  else log ++ [s.itemInFlight]

/-- The bytes of item number `k` in slot order. -/
def itemOf (log : List Item) (k : Nat) : List Byte := itemBytes (log.getD k (0, [])).1 (log.getD k (0, [])).2

/-- The writer in flight has stored its item's byte at every offset of its slot that is no longer pending. -/
def State.writerStored (s : State) : Bool :=
  match s.wop with
  | .idle => true
  | .enq sent len payload pending =>
    (slotOffsets s.params (sent.toNat % s.params.Q)).all fun o =>
      decide (o ∈ pending) ||
        decide (Memory.read s.image o = itemByteAt (slotBase s.params (sent.toNat % s.params.Q)) len payload o)

/-- While the writer is fewer than Q items past the one that cursor `rd` is taking, every byte copied is that item's
(the seqlock argument of spec/20_memory.md R65). -/
def Reader.copied (s : State) (log : List Item) (rd : Reader) : Bool :=
  match rd.rop with
  | .idle => true
  | .deq _ _ idx copy pending =>
    decide (0 < rd.received) &&
      (decide (rd.received + s.params.Q ≤ s.published + 1) ||
        (slotOffsets s.params idx.toNat).all fun o =>
          decide (o ∈ pending) ||
            decide (copy.getD (o - slotBase s.params idx.toNat) none =
              some ((itemOf log (rd.received - 1)).getD (o - slotBase s.params idx.toNat) 0)))

/-- The invariant that ties the ring to the items published since BR_INIT: the last Q − 1 of them stand in their slots,
each initialised reader's lag is what it has not received of them, and no copy in flight is torn while its item can still be delivered. -/
def historyInv (s : State) (log : List Item) : Bool :=
  s.inv && decide (log.length = s.published) && log.all (fun it => decide (it.2.length = s.params.MAX)) &&
  ((List.range s.published).all fun k =>
    decide (k + s.params.Q ≤ s.published) || decide (s.slotBytes (k % s.params.Q) = itemOf log k)) &&
  s.writerStored &&
  (List.range s.params.NRD).all fun r =>
    (!(s.reader r).valid || decide ((s.reader r).received + (s.lag r).items = s.published)) && (s.reader r).copied s log

/-! ## Drop accounting -/

/-- The part of a cursor that its finished dequeues account for: `numRecv` less what a dequeue in flight has already
added to it (spec/44_broadcast_ring.md R193, R198). -/
def Reader.settled (rd : Reader) : Word :=
  match rd.rop with
  | .idle => rd.numRecv
  | .deq _ dropped _ _ _ => rd.numRecv - dropped - 1

end Sys2Proof.Machine
end

