-- ==== Sys2Proof/Certificates/Slice0/Obligations.lean ====
section
/-! DEFINITION. The statements for the provers. Each says what a rule of spec/ says about the model; OBLIGATIONS.json
lists them with their rules. -/

open Sys2Proof Sys2Proof.Machine

/-! ## Encoding (spec/30_encoding.md) -/

/-- R71, R80: no bit of an encoding is dropped. -/
def Obligations.DecodeOfEncodeIsTheInstruction : Prop :=
  ∀ i : Instr, i.wf = true → decode (encode i) = .instr i

/-- R77, R80: a legal word is the encoding of the command it decodes to. -/
def Obligations.EncodeOfDecodeIsTheWord : Prop :=
  ∀ (w : Word) (i : Instr), decode w = .instr i → encode i = w ∧ i.wf = true

/-- R78: which words are illegal, by their fields, what an illegal word does when issued, and that every other word is
one command with these fields. -/
def Obligations.IllegalWordsEndInIllegalCommand : Prop :=
  ∀ w : Word,
    let opc := w.toNat % 2 ^ 8
    let unit := w.toNat / 2 ^ 8 % 2 ^ 8
    let auto := w.toNat / 2 ^ 16 % 2
    let rsv := w.toNat / 2 ^ 17
    if rsv ≠ 0 ∨ (auto ≠ 0 ∧ opc ≠ 0x13) ∨
        opc ∉ [0x01, 0x02, 0x10, 0x11, 0x12, 0x13, 0x14, 0x20, 0x21, 0x30, 0x31, 0x32, 0x33, 0x34] ∨
        (unit ≠ 0 ∧ opc ∈ [0x01, 0x02, 0x30, 0x31]) then
      ∀ (s : State) (a : Nat) (cmd : Command), cmd.word = w → a < s.ports.length →
        ∃ t, issue s a cmd = .next t ∧ endsWith (s.present a cmd) t .illegalCommand {} ∧ sameBlock s t
    else ∃ i, decode w = .instr i ∧ i.opc = opc ∧ i.unit = unit ∧ i.autoBit = decide (auto = 1)

/-- R77, R80: words written out from the spec's encodings, one for every command and some illegal ones. -/
def Obligations.WordsOfTheSpecDecode : Prop :=
  decode 0x00000001 = .instr .cksum ∧ decode 0x00000002 = .instr .regRead ∧
  decode 0x00000110 = .instr (.rbRemcap 1) ∧ decode 0x0000FF11 = .instr (.rbAppend 255) ∧
  decode 0x00000312 = .instr (.rbFind 3) ∧ decode 0x00010113 = .instr (.rbReaduint 1 true) ∧
  decode 0x00000013 = .instr (.rbReaduint 0 false) ∧ decode 0x00008014 = .instr (.rbAdvance 128) ∧
  decode 0x00000120 = .instr (.frAppend 1) ∧ decode 0x00000021 = .instr (.frScan 0) ∧
  decode 0x00000030 = .instr .brInit ∧ decode 0x00000031 = .instr .brEnq ∧
  decode 0x00000032 = .instr (.brRinit 0) ∧ decode 0x00000133 = .instr (.brDeq 1) ∧
  decode 0x00000034 = .instr (.brIsempty 0) ∧
  decode 0x00000000 = .illegal .unknownOpcode ∧ decode 0x00000035 = .illegal .unknownOpcode ∧
  decode 0x00020013 = .illegal .reservedBits ∧ decode 0x80000001 = .illegal .reservedBits ∧
  decode 0x00010014 = .illegal .autoBitSet ∧ decode 0x00000130 = .illegal .unitNotZero

/-! ## The step (spec/20_memory.md R58, R59; spec/60_exceptions.md R248, R251) -/

/-- R70, R74: a port whose turn it is, with nothing in flight and a legal command next, has that command executed with
the operands it presents; `present` loads them and touches nothing else of the block. That turns say who moves is the
model's choice (log 6). -/
def Obligations.StepIssuesTheDecodedCommand : Prop :=
  ∀ (s : State) (a pick : Nat) (ts : List Turn) (cmd : Command) (i : Instr),
    s.turns = .agent a pick :: ts → s.inFlight a = .nothing → s.nextLine a = some (.command cmd) →
    decode cmd.word = .instr i →
    ∃ u : State, u = ({ s with turns := ts }.present a cmd) ∧ step s = exec i u ∧
      u.cur = a ∧ u.arg0 = cmd.arg0 ∧ u.arg1 = cmd.arg1 ∧ u.din = cmd.din ∧
      (u.port a).program = (s.port a).program ∧ (u.port a).pc = (s.port a).pc ∧
      (∀ b, b ≠ a → u.port b = s.port b) ∧ sameChannels s u ∧ sameRing s u ∧
      u.params = s.params ∧ u.events = s.events ∧ u.turns = ts ∧ u.choices = s.choices

/-- R251: a port with a command in flight takes the next micro-step of that command, and issues nothing (turns: log 6;
whose command it is: log 15). -/
def Obligations.StepContinuesTheCommandInFlight : Prop :=
  ∀ (s : State) (a pick : Nat) (ts : List Turn), s.turns = .agent a pick :: ts →
    (s.inFlight a = .enq →
      s.writer = some a ∧ s.wop ≠ .idle ∧ step s = enqStep { s with turns := ts, cur := a } pick) ∧
    (∀ r, s.inFlight a = .deq r →
      (s.reader r).owner = some a ∧ (s.reader r).rop ≠ .idle ∧
        step s = deqStep { s with turns := ts, cur := a } r pick)

/-- R83: a line of the host notation moves only its agent's index, as the notation says; one line a turn, labels as
indexes: the model's choice (log 19). -/
def Obligations.StepRunsAHostLine : Prop :=
  ∀ (s : State) (a pick : Nat) (ts : List Turn) (line : Line),
    s.turns = .agent a pick :: ts → s.inFlight a = .nothing → s.nextLine a = some line →
    (∀ cmd, line ≠ .command cmd) →
    ∃ t, step s = .next t ∧ sameChannels s t ∧ sameRing s t ∧ t.params = s.params ∧ t.events = s.events ∧
      t.turns = ts ∧ (∀ b, b ≠ a → t.port b = s.port b) ∧
      t.port a = { s.port a with pc := (t.port a).pc } ∧
      (∀ k L, line = .bcode k L → (t.port a).pc = if (s.port a).code = k then L else (s.port a).pc + 1) ∧
      (∀ k L, line = .bncode k L → (t.port a).pc = if (s.port a).code ≠ k then L else (s.port a).pc + 1) ∧
      (∀ st L, line = .bstat st L → (t.port a).pc = if (s.port a).status = st then L else (s.port a).pc + 1) ∧
      (line = .halt → t.nextLine a = none)

/-- R59: with no turn laid down, some agent that can act moves, whichever the free choice names, or, where the turn is
kept for a command in flight, the agent of that command; and nobody where none can. The model's choice (log 6, log
13). -/
def Obligations.FreeTurnMovesAnAgentThatCanAct : Prop :=
  ∀ s : State, s.turns = [] →
    (s.active = [] → step s = .next s) ∧
    (s.active ≠ [] →
      ∃ a pick, a < s.ports.length ∧ s.canAct a = true ∧
        (s.turnKept = true → s.inFlight s.keptPort ≠ .nothing → a = s.keptPort) ∧
        step s = moveAgent { s with choices := s.nextChoices } a pick)

/-- R270: asserting the reset input, at any time, sets every piece of state to its reset value, and leaves the
parameters. The same values stand in the state after power-on, for any parameters. -/
def Obligations.ResetSetsEveryResetValue : Prop :=
  let atReset (p : Params) (t : State) : Prop :=
    t.params = p ∧
    t.channels.length = p.NCH ∧
    (∀ c, c < p.NCH → (t.channel c).data = p.RING_INIT ∧ (t.channel c).writeOffset = 0 ∧
      (t.channel c).readOffset = 0 ∧ (t.channel c).validCount = 0 ∧ (t.channel c).invalidCount = 0 ∧
      (t.channel c).disregardedCount = 0 ∧ occupied p.N (t.channel c) = 0 ∧ remcap p.N (t.channel c) = p.N - 1) ∧
    t.scValid = false ∧ (∀ k, 4 ≤ k → Memory.read t.image k = Memory.read p.SLOT_INIT k) ∧
    t.readers.length = p.NRD ∧ (∀ r, r < p.NRD → (t.reader r).valid = false ∧ (t.reader r).rop = .idle) ∧
    t.wop = .idle ∧ t.events = [] ∧
    (∀ a, a < t.ports.length → (t.port a).status = 0 ∧ (t.port a).code = 0 ∧ (t.port a).val0 = 0 ∧
      (t.port a).val1 = 0 ∧ (t.port a).dout = [])
  (∀ p : Params, p.valid = true → atReset p (State.resetWith p)) ∧
  ∀ (s : State) (ts : List Turn), s.params.valid = true → s.turns = .reset :: ts →
    ∃ t, step s = .next t ∧ atReset s.params t ∧ t.ports.length = s.ports.length ∧ t.turns = ts

/-- The state after reset meets the invariant, for any legal parameters and for the vectors' (log 1). -/
def Obligations.ResetMeetsTheInvariant : Prop :=
  (∀ p : Params, p.valid = true → (State.resetWith p).inv = true) ∧ State.reset.inv = true

/-- Every step from a state that meets the invariant gives one that meets it. -/
def Obligations.EveryStepKeepsTheInvariant : Prop :=
  ∀ s t : State, s.inv = true → step s = .next t → t.inv = true

/-- A state that meets the invariant never takes a memory access outside the ring image (R50). -/
def Obligations.InvariantStatesNeverFault : Prop :=
  ∀ s : State, s.inv = true → ∀ f : Fault, step s ≠ .fault f

/-- R258: a step is refused only where the agents break their contract. A second writer: agent `b` issues BR_INIT or
BR_ENQ and another agent is the writer. A shared cursor: `b` issues a reader command and another agent uses its cursor.
A counter lapped: `b` is about to publish and that would put the writer 2^32 items ahead of an initialised reader, or
`b` issues BR_RINIT and the writer is 2^32 items past 0. When the refusal falls is the model's choice (log 9, log 10,
log 11). -/
def Obligations.StepsRefuseOnlyContractBreaches : Prop :=
  ∀ (s : State) (e : Refusal), step s = .refused e →
    ∃ b, s.moves b ∧
      ((e = .secondWriter ∧ (s.issues b .brInit ∨ s.issues b .brEnq) ∧ ∃ a, s.writer = some a ∧ a ≠ b) ∨
        (∃ r a, e = .sharedCursor r ∧ (s.issues b (.brRinit r) ∨ s.issues b (.brDeq r) ∨ s.issues b (.brIsempty r)) ∧
          (s.reader r).owner = some a ∧ a ≠ b) ∨
        (e = .counterLapped ∧ s.inFlight b = .enq ∧ (∃ sent len payload, s.wop = .enq sent len payload []) ∧
          ∃ r, (s.reader r).valid = true ∧ 2 ^ 32 ≤ (s.lag r).items + 1) ∨
        (e = .counterLapped ∧ (∃ r, s.issues b (.brRinit r)) ∧ 2 ^ 32 ≤ s.published))

/-- R20, R270: the parameters and the agents' lists are not state: no step changes them. -/
def Obligations.StepsKeepParametersAndPrograms : Prop :=
  ∀ s t : State, step s = .next t →
    t.params = s.params ∧ t.ports.length = s.ports.length ∧ ∀ a, (t.port a).program = (s.port a).program

/-- R259: a run that has ended stays ended: no turn but a reset changes anything, and no free choice either (the
model's choice, log 13). -/
def Obligations.EndedRunsStayEnded : Prop :=
  ∀ s : State, s.runEnded = true →
    (s.turns = [] → step s = .next s) ∧
    (∀ (turn : Turn) (ts : List Turn), s.turns = turn :: ts → turn ≠ .reset → step s = .next { s with turns := ts })

/-! ## Errors (spec/60_exceptions.md) -/

/-- R242: a command that ends with a STATUS other than DONE has every result 0 or empty and changes no other state; the
later micro-steps of BR_ENQ and BR_DEQ never end so. An illegal word is such a command. -/
def Obligations.ErrorsChangeOnlyTheResultRegisters : Prop :=
  (∀ (i : Instr) (s t : State), s.cur < s.ports.length → exec i s = .next t →
    (t.port s.cur).pc ≠ (s.port s.cur).pc → (t.port s.cur).status ≠ 0 →
    ∃ st : Status, st ≠ .done ∧ (t.port s.cur).status = st.number ∧ endsWith s t st {} ∧ sameBlock s t) ∧
  (∀ (s : State) (a : Nat) (cmd : Command), a < s.ports.length → (∀ i, decode cmd.word ≠ .instr i) →
    ∃ t, issue s a cmd = .next t ∧ endsWith (s.present a cmd) t .illegalCommand {} ∧ sameBlock s t) ∧
  (∀ (s t : State) (pick : Nat), s.cur < s.ports.length → enqStep s pick = .next t →
    (t.port s.cur).pc ≠ (s.port s.cur).pc → (t.port s.cur).status = 0) ∧
  (∀ (s t : State) (r pick : Nat), s.cur < s.ports.length → deqStep s r pick = .next t →
    (t.port s.cur).pc ≠ (s.port s.cur).pc → (t.port s.cur).status = 0)

/-- R72, R243: a unit out of range ends every channel command and every reader command with BAD_UNIT, whatever its
operands and counters are. -/
def Obligations.UnitsOutOfRangeEndInBadUnit : Prop :=
  ∀ (i : Instr) (s : State), s.cur < s.ports.length →
    (∃ c, i.channelUnit? = some c ∧ s.params.NCH ≤ c) ∨ (∃ r, i.readerUnit? = some r ∧ s.params.NRD ≤ r) →
    ∃ t, exec i s = .next t ∧ endsWith s t .badUnit {} ∧ sameBlock s t

/-- R240, R243: the operands that end a command with BAD_OPERAND, also where a counter has no value. -/
def Obligations.OperandsOutOfRangeEndInBadOperand : Prop :=
  ∀ (s : State) (c : Nat) (i : Instr), s.cur < s.ports.length → c < s.params.NCH →
    (i = .cksum ∧ s.params.DIN_MAX < s.din.length) ∨
    (i = .rbAppend c ∧ s.params.DIN_MAX < s.din.length) ∨
    (i = .frAppend c ∧ s.params.DIN_MAX < s.din.length) ∨
    (i = .rbFind c ∧ (s.din.length = 0 ∨ s.params.DIN_MAX < s.din.length)) ∨
    ((∃ auto, i = .rbReaduint c auto) ∧
      (s.arg1.toNat < s.arg0.toNat ∨ occupied s.params.N (s.channel c) < s.arg1.toNat)) ∨
    (i = .rbAdvance c ∧ occupied s.params.N (s.channel c) < s.arg0.toNat) ∨
    (i = .brEnq ∧ s.din.length ≠ s.params.MAX) →
    ∃ t, exec i s = .next t ∧ endsWith s t .badOperand {} ∧ sameBlock s t

/-- R240, R28, R30: the ring commands that read a counter without a value end with UNINITIALIZED. -/
def Obligations.CountersWithoutValueEndInUninitialized : Prop :=
  ∀ (s : State) (r : Nat) (i : Instr), s.cur < s.ports.length → r < s.params.NRD →
    (i = .brEnq ∧ s.din.length = s.params.MAX ∧ s.scValid = false) ∨
    ((i = .brDeq r ∨ i = .brIsempty r) ∧ (s.scValid = false ∨ (s.reader r).valid = false)) →
    ∃ t, exec i s = .next t ∧ endsWith s t .uninitialized {} ∧ sameBlock s t

/-- R258 items 1 and 2: a second writer agent and a second agent on a cursor are refused where the command would
otherwise run (the model's reading of "refused": log 9, log 10, log 17). -/
def Obligations.BrokenContractsAreRefused : Prop :=
  ∀ (s : State) (r a : Nat), a ≠ s.cur → r < s.params.NRD →
    (s.writer = some a →
      exec .brInit s = .refused .secondWriter ∧
      (s.din.length = s.params.MAX → s.scValid = true → exec .brEnq s = .refused .secondWriter)) ∧
    ((s.reader r).owner = some a →
      exec (.brRinit r) s = .refused (.sharedCursor r) ∧
      ((s.reader r).valid = true → s.scValid = true →
        exec (.brDeq r) s = .refused (.sharedCursor r) ∧ exec (.brIsempty r) s = .refused (.sharedCursor r)))

/-! ## Checksum (spec/41_checksum.md) -/

/-- R100, R101: CKSUM answers the sum of the bytes of DIN modulo 2^32 and changes nothing but its port. -/
def Obligations.CksumSumsTheBytesOfDin : Prop :=
  ∀ s : State, s.cur < s.ports.length → s.din.length ≤ s.params.DIN_MAX →
    ∃ (t : State) (v : Word), exec .cksum s = .next t ∧ endsWith s t .done { val0 := v } ∧ sameBlock s t ∧
      v.toNat = (s.din.map BitVec.toNat).sum % 2 ^ 32 ∧
      (∀ bs : List Byte, s.din.Perm bs → v = checksum bs) ∧ (s.din = [] → v = 0)

/-- The spec's own derivation in R102: one replaced byte changes the checksum; a permutation, or two changes that
cancel, do not; its decimal form has 1 to 10 digits. -/
def Obligations.ChecksumSeesOneChangeButNoPermutation : Prop :=
  (∀ (bs : List Byte) (i : Nat) (b : Byte), i < bs.length → b ≠ bs.getD i 0 → checksum (bs.set i b) ≠ checksum bs) ∧
  (∀ bs cs : List Byte, bs.Perm cs → checksum bs = checksum cs) ∧
  (∀ (bs : List Byte) (i j : Nat) (b c : Byte), i < bs.length → j < bs.length → i ≠ j →
    b.toNat + c.toNat = (bs.getD i 0).toNat + (bs.getD j 0).toNat →
    checksum ((bs.set i b).set j c) = checksum bs) ∧
  (∀ bs : List Byte, 1 ≤ (dec (checksum bs).toNat).length ∧ (dec (checksum bs).toNat).length ≤ 10)

/-! ## RingByteChannel (spec/42_ring_byte_channel.md) -/

/-- R120, R122: RB_REMCAP answers N − 1 less the occupancy, the difference of the offsets modulo N. -/
def Obligations.RbRemcapReportsTheFreeSpace : Prop :=
  ∀ (s : State) (c : Nat), s.inv = true → c < s.params.NCH →
    ∃ (t : State) (occ : Nat), exec (.rbRemcap c) s = .next t ∧ sameBlock s t ∧
      (occ : Int) = ((s.channel c).writeOffset - (s.channel c).readOffset : Int) % (s.params.N : Int) ∧
      occ = occupied s.params.N (s.channel c) ∧ occ < s.params.N ∧
      endsWith s t .done { val0 := wrap32 (s.params.N - 1 - occ) }

/-- R123, R124: RB_APPEND stores all of DIN at the write offset, modulo N, or nothing. -/
def Obligations.RbAppendStoresAllOrNothing : Prop :=
  ∀ (s : State) (c : Nat), s.inv = true → c < s.params.NCH → s.din.length ≤ s.params.DIN_MAX →
    ∃ t, exec (.rbAppend c) s = .next t ∧ sameRing s t ∧ sameRest s t ∧ sameOtherChannels s t c ∧
      sameTelemetry (s.channel c) (t.channel c) ∧ (t.channel c).readOffset = (s.channel c).readOffset ∧
      if s.din.length ≤ remcap s.params.N (s.channel c) then
        endsWith s t .done { code := 1 } ∧
        (t.channel c).writeOffset = ((s.channel c).writeOffset + s.din.length) % s.params.N ∧
        (∀ k, k < s.din.length →
          Memory.read (t.channel c).data (((s.channel c).writeOffset + k) % s.params.N) = s.din.getD k 0) ∧
        (∀ j, (∀ k, k < s.din.length → j ≠ ((s.channel c).writeOffset + k) % s.params.N) →
          Memory.read (t.channel c).data j = Memory.read (s.channel c).data j)
      else endsWith s t .done { code := 0 } ∧ t.channel c = s.channel c

/-- R125, R126: RB_FIND reports the offset after the leftmost match of DIN at or after ARG0 in the unread bytes, or not
found. -/
def Obligations.RbFindReportsTheLeftmostMatch : Prop :=
  ∀ (s : State) (c : Nat), s.inv = true → c < s.params.NCH → 1 ≤ s.din.length → s.din.length ≤ s.params.DIN_MAX →
    let bytes := unread s.params.N (s.channel c)
    let hit (i : Nat) : Prop := i + s.din.length ≤ bytes.length ∧ (bytes.drop i).take s.din.length = s.din
    ∃ t, exec (.rbFind c) s = .next t ∧ sameBlock s t ∧ bytes.length = occupied s.params.N (s.channel c) ∧
      ((∃ i, s.arg0.toNat ≤ i ∧ hit i ∧ (∀ j, s.arg0.toNat ≤ j → j < i → ¬hit j) ∧
          endsWith s t .done { code := 1, val0 := wrap32 (i + s.din.length) }) ∨
        ((∀ i, s.arg0.toNat ≤ i → ¬hit i) ∧ endsWith s t .done { code := 0 }))

/-- R129: RB_READUINT decodes the unread bytes of [ARG0, ARG1), or reports a parse failure. -/
def Obligations.RbReaduintDecodesTheRegion : Prop :=
  ∀ (s : State) (c : Nat) (auto : Bool), s.inv = true → c < s.params.NCH → s.arg0.toNat ≤ s.arg1.toNat →
    s.arg1.toNat ≤ occupied s.params.N (s.channel c) →
    ∃ t, exec (.rbReaduint c auto) s = .next t ∧ sameBlock s t ∧
      match parseUint (((unread s.params.N (s.channel c)).take s.arg1.toNat).drop s.arg0.toNat) auto with
      | some v => v < 2 ^ 32 ∧ endsWith s t .done { code := 1, val0 := wrap32 v }
      | none => endsWith s t .done { code := 0 }

/-- R127, R128: leading spaces and one minus are skipped; with `auto`, "0x" selects hex and another leading '0' octal;
everything else is decimal. Digits give their value, above 2^32 − 1 none; a non-digit anywhere, or no digit at all,
gives none. The digits of each radix are those of R128. -/
def Obligations.AsciiNumbersDecodeByTheirRadix : Prop :=
  (∀ (spaces : Nat) (minus auto : Bool) (radix : Nat) (pre xs : List Byte),
    (auto = false ∧ radix = 10 ∧ pre = []) ∨ (auto = true ∧ radix = 16 ∧ pre = [0x30, 0x78]) ∨
      (auto = true ∧ radix = 8 ∧ pre = [] ∧ xs.head? = some 0x30 ∧ xs[1]? ≠ some 0x78) ∨
      (auto = true ∧ radix = 10 ∧ pre = [] ∧ xs.head? ≠ some 0x30) →
    let text := List.replicate spaces 0x20 ++ (if minus then [0x2D] else []) ++ (pre ++ xs)
    (∀ ds : List Nat, xs ≠ [] → xs.map (fun x => digitValue x radix) = ds.map some →
      parseUint text auto =
        if ds.foldl (fun v d => v * radix + d) 0 ≤ 2 ^ 32 - 1 then some (ds.foldl (fun v d => v * radix + d) 0)
        else none) ∧
    (∀ y ∈ xs, digitValue y radix = none →
      (minus = true ∨ pre ≠ [] ∨ (xs.head? ≠ some 0x20 ∧ xs.head? ≠ some 0x2D)) → parseUint text auto = none) ∧
    (xs = [] → parseUint text auto = none)) ∧
  ∀ (x : Byte) (radix d : Nat), digitValue x radix = some d ↔
    d < radix ∧
      ((0x30 ≤ x.toNat ∧ x.toNat ≤ 0x39 ∧ d = x.toNat - 0x30) ∨
        (radix = 16 ∧ 0x61 ≤ x.toNat ∧ x.toNat ≤ 0x66 ∧ d = x.toNat - 0x57) ∨
        (radix = 16 ∧ 0x41 ≤ x.toNat ∧ x.toNat ≤ 0x46 ∧ d = x.toNat - 0x37))

/-- R151: the decimal form of a u32 has 1 to 10 digits, most significant first, no leading zero, "0" for 0, and reads
back as the number (R127). -/
def Obligations.DecimalFormReadsBack : Prop :=
  ∀ (v : Nat) (auto : Bool), v < 2 ^ 32 →
    1 ≤ (dec v).length ∧ (dec v).length ≤ 10 ∧ (∀ b ∈ dec v, 0x30 ≤ b.toNat ∧ b.toNat ≤ 0x39) ∧
    (dec v).foldl (fun n b => n * 10 + (b.toNat - 0x30)) 0 = v ∧
    (v ≠ 0 → (dec v).head? ≠ some 0x30) ∧ dec 0 = [0x30] ∧ parseUint (dec v) auto = some v

/-- R130, R131: RB_ADVANCE moves the read offset by n modulo N: the occupancy falls by n, the free space rises by n, no
byte is erased. -/
def Obligations.RbAdvanceConsumes : Prop :=
  ∀ (s : State) (c : Nat), s.inv = true → c < s.params.NCH →
    s.arg0.toNat ≤ occupied s.params.N (s.channel c) →
    ∃ t, exec (.rbAdvance c) s = .next t ∧ sameRing s t ∧ sameRest s t ∧ sameOtherChannels s t c ∧
      endsWith s t .done {} ∧
      (t.channel c) = { s.channel c with
        readOffset := ((s.channel c).readOffset + s.arg0.toNat) % s.params.N } ∧
      occupied s.params.N (t.channel c) = occupied s.params.N (s.channel c) - s.arg0.toNat ∧
      remcap s.params.N (t.channel c) = remcap s.params.N (s.channel c) + s.arg0.toNat

/-- The spec's own derivation in R133: a channel is a first-in first-out queue of bytes, at most N − 1 of them: a
successful append adds its bytes at the end, consumption takes from the front, everything else leaves the queue as it
is. -/
def Obligations.ChannelsAreByteQueues : Prop :=
  ∀ (s t : State) (c : Nat), s.inv = true → c < s.params.NCH →
    let queue (u : State) : List Byte := unread u.params.N (u.channel c)
    (queue s).length = occupied s.params.N (s.channel c) ∧ (queue s).length ≤ s.params.N - 1 ∧
    (exec (.rbAppend c) s = .next t → s.din.length ≤ s.params.DIN_MAX →
      queue t = if s.din.length ≤ remcap s.params.N (s.channel c) then queue s ++ s.din else queue s) ∧
    (exec (.frAppend c) s = .next t → s.din.length ≤ s.params.DIN_MAX →
      queue t =
        if (encodeFrame s.din).length ≤ remcap s.params.N (s.channel c) then queue s ++ encodeFrame s.din
        else queue s) ∧
    (exec (.rbAdvance c) s = .next t → s.arg0.toNat ≤ (queue s).length → queue t = (queue s).drop s.arg0.toNat) ∧
    (exec (.frScan c) s = .next t → ∃ n, n ≤ (queue s).length ∧ queue t = (queue s).drop n) ∧
    (∀ i : Instr, i ≠ .rbAppend c → i ≠ .frAppend c → i ≠ .rbAdvance c → i ≠ .frScan c → exec i s = .next t →
      t.channel c = s.channel c)

/-- R132 (its writes): no RB_ command writes a telemetry counter of any channel, and none but RB_APPEND writes
`data`. -/
def Obligations.ByteCommandsWriteNoTelemetry : Prop :=
  ∀ (s t : State) (c d : Nat) (auto : Bool) (i : Instr),
    i ∈ [Instr.rbRemcap c, .rbAppend c, .rbFind c, .rbReaduint c auto, .rbAdvance c] → exec i s = .next t →
    sameTelemetry (s.channel d) (t.channel d) ∧ (i ≠ .rbAppend c → (t.channel d).data = (s.channel d).data)

/-- R23 to R27, R62: a command leaves every channel unit but the one it names as it was, bytes, offsets and
counters. -/
def Obligations.CommandsTouchOnlyTheirChannel : Prop :=
  ∀ (i : Instr) (s t : State) (d : Nat), exec i s = .next t → i.channelUnit? ≠ some d →
    t.channel d = s.channel d

/-! ## SentinelFramer (spec/43_sentinel_framer.md) -/

/-- R150, R152: the wire format, byte for byte, and its length. -/
def Obligations.EncodedFramesHaveTheWireFormat : Prop :=
  ∀ p : List Byte,
    encodeFrame p =
      [0x2B, 0x3D, 0x2B, 0x3D, 0x2B, 0x3D, 0x2B, 0x3D] ++ dec p.length ++
      [0x23, 0x40, 0x23, 0x40, 0x23, 0x40, 0x23, 0x40] ++ p ++
      [0x21, 0x25, 0x21, 0x25, 0x21, 0x25, 0x21, 0x25] ++ dec (checksum p).toNat ++
      [0x3F, 0x5E, 0x3F, 0x5E, 0x3F, 0x5E, 0x3F, 0x5E] ∧
    (encodeFrame p).length = 32 + (dec p.length).length + p.length + (dec (checksum p).toNat).length

/-- R153: FR_APPEND appends the whole encoded frame of DIN and emits FrameAppended, or changes nothing and emits
nothing. -/
def Obligations.FrAppendStoresTheWholeFrameOrNothing : Prop :=
  ∀ (s : State) (c : Nat), s.inv = true → c < s.params.NCH → s.din.length ≤ s.params.DIN_MAX →
    let frame := encodeFrame s.din
    ∃ t, exec (.frAppend c) s = .next t ∧ sameRing s t ∧ sameOtherChannels s t c ∧
      t.params = s.params ∧ t.turns = s.turns ∧ t.choices = s.choices ∧
      sameTelemetry (s.channel c) (t.channel c) ∧ (t.channel c).readOffset = (s.channel c).readOffset ∧
      if frame.length ≤ remcap s.params.N (s.channel c) then
        endsWith s t .done { code := 1 } ∧ t.events = s.events ++ [.frameAppended c] ∧
        (t.channel c).writeOffset = ((s.channel c).writeOffset + frame.length) % s.params.N ∧
        (∀ k, k < frame.length →
          Memory.read (t.channel c).data (((s.channel c).writeOffset + k) % s.params.N) = frame.getD k 0) ∧
        (∀ j, (∀ k, k < frame.length → j ≠ ((s.channel c).writeOffset + k) % s.params.N) →
          Memory.read (t.channel c).data j = Memory.read (s.channel c).data j)
      else endsWith s t .done { code := 0 } ∧ t.events = s.events ∧ t.channel c = s.channel c

/-- The spec's own derivation in R156: the offset and the telemetry counters after each end of FR_SCAN. FR_SCAN always
ends DONE on a channel that exists, and changes nothing else. -/
def Obligations.FrScanCountsByItsEnd : Prop :=
  ∀ (s : State) (c : Nat), s.inv = true → c < s.params.NCH →
    let N := s.params.N
    let ch := s.channel c
    ∃ (t : State) (res : Results), exec (.frScan c) s = .next t ∧ sameRing s t ∧ sameRest s t ∧
      sameOtherChannels s t c ∧ endsWith s t .done res ∧ res.val1 = 0 ∧
      ((res.code = 1 ∧ t.channel c = ch) ∨
        ∃ a1 a2 a3 a4, findMarker N ch beforeSize 0 = some a1 ∧ findMarker N ch afterSize a1 = some a2 ∧
          findMarker N ch beforeChecksum a2 = some a3 ∧ findMarker N ch afterChecksum a3 = some a4 ∧
          (t.channel c).data = ch.data ∧ (t.channel c).writeOffset = ch.writeOffset ∧
          (t.channel c).readOffset = (ch.readOffset + a4) % N ∧
          (t.channel c).disregardedCount = ch.disregardedCount + wrap32 (a1 - 8) ∧
          ((res.code = 0 ∧ (t.channel c).validCount = ch.validCount + 1 ∧
              (t.channel c).invalidCount = ch.invalidCount) ∨
            ((res.code = 2 ∨ res.code = 3 ∨ res.code = 4) ∧ (t.channel c).validCount = ch.validCount ∧
              (t.channel c).invalidCount = ch.invalidCount + 1)))

/-- R155, R157, R163: how a committed span ends. The size is read from [a1, a2 − 8), the checksum from [a3, a4 − 8);
the copy takes that many bytes from a2 on, whatever the span; VAL0 and DOUT as R157 has them. -/
def Obligations.FrScanJudgesTheSpan : Prop :=
  ∀ (s : State) (c a1 a2 a3 a4 : Nat), s.inv = true → c < s.params.NCH →
    let N := s.params.N
    let ch := s.channel c
    findMarker N ch beforeSize 0 = some a1 → findMarker N ch afterSize a1 = some a2 →
    findMarker N ch beforeChecksum a2 = some a3 → findMarker N ch afterChecksum a3 = some a4 →
    let size := parseUint (((unread N ch).take (a2 - 8)).drop a1) true
    let sum := parseUint (((unread N ch).take (a4 - 8)).drop a3) true
    let copy (sz : Nat) : List Byte := (List.range sz).map fun k => Memory.read ch.data ((ch.readOffset + a2 + k) % N)
    ∃ (t : State) (res : Results), exec (.frScan c) s = .next t ∧ endsWith s t .done res ∧
      ((size = none ∨ sum = none) → res = { code := 2 }) ∧
      (∀ sz ck, size = some sz → sum = some ck →
        (s.arg0.toNat < sz → res = { code := 3 }) ∧
        (sz ≤ s.arg0.toNat → (checksum (copy sz)).toNat ≠ ck → res = { code := 4, dout := copy sz }) ∧
        (sz ≤ s.arg0.toNat → (checksum (copy sz)).toNat = ck →
          res = { code := 0, val0 := wrap32 sz, dout := copy sz }))

/-- The spec's own derivation in R158: a scan that is not Incomplete consumes at least 32 bytes, because the four
markers do not overlap. -/
def Obligations.FrScanMakesProgress : Prop :=
  ∀ (s t : State) (c : Nat), s.inv = true → c < s.params.NCH → exec (.frScan c) s = .next t →
    (t.port s.cur).code ≠ 1 →
    ∃ a1 a2 a3 a4, 8 ≤ a1 ∧ a1 + 8 ≤ a2 ∧ a2 + 8 ≤ a3 ∧ a3 + 8 ≤ a4 ∧ 32 ≤ a4 ∧
      a4 ≤ occupied s.params.N (s.channel c) ∧
      (t.channel c).readOffset = ((s.channel c).readOffset + a4) % s.params.N ∧
      occupied s.params.N (t.channel c) = occupied s.params.N (s.channel c) - a4

/-- R164: where `before_size` or a later marker of the span is missing, the scan ends Incomplete: nothing is consumed
and nothing is counted, even bytes before `before_size`. -/
def Obligations.IncompleteScansKeepEverything : Prop :=
  ∀ (s : State) (c : Nat), s.inv = true → c < s.params.NCH →
    let find (m : List Byte) (start : Nat) : Option Nat := findMarker s.params.N (s.channel c) m start
    (find beforeSize 0 = none ∨ (∃ a1, find beforeSize 0 = some a1 ∧
      (find afterSize a1 = none ∨ (∃ a2, find afterSize a1 = some a2 ∧
        (find beforeChecksum a2 = none ∨ (∃ a3, find beforeChecksum a2 = some a3 ∧
          find afterChecksum a3 = none)))))) →
    ∃ t, exec (.frScan c) s = .next t ∧ endsWith s t .done { code := 1 } ∧ sameBlock s t

/-- The spec's own derivation in R159: a frame appended to an empty channel is scanned back, under the exact condition
that no `BEFORE_CHECKSUM` starts inside the payload. -/
def Obligations.FramesRoundTrip : Prop :=
  ∀ (s : State) (c a : Nat) (cmd : Command), s.inv = true → c < s.params.NCH →
    occupied s.params.N (s.channel c) = 0 → s.din.length ≤ s.params.DIN_MAX →
    (encodeFrame s.din).length ≤ remcap s.params.N (s.channel c) →
    (∀ i, i < s.din.length → ((s.din ++ beforeChecksum).drop i).take 8 ≠ beforeChecksum) →
    a < s.ports.length → s.din.length ≤ cmd.arg0.toNat →
    ∃ t u : State, exec (.frAppend c) s = .next t ∧ (t.port s.cur).status = 0 ∧ (t.port s.cur).code = 1 ∧
      exec (.frScan c) (t.present a cmd) = .next u ∧ (u.port a).status = 0 ∧ (u.port a).code = 0 ∧
      (u.port a).val0 = wrap32 s.din.length ∧ (u.port a).dout = s.din ∧
      (u.channel c).validCount = (s.channel c).validCount + 1 ∧
      (u.channel c).invalidCount = (s.channel c).invalidCount ∧
      (u.channel c).disregardedCount = (s.channel c).disregardedCount ∧
      occupied s.params.N (u.channel c) = 0

/-- The spec's own derivation in R160: one altered payload byte ends the scan with IntegrityFailure, never Ok, under
the condition of R159. -/
def Obligations.AlteredFramesFailIntegrity : Prop :=
  ∀ (s : State) (c i : Nat) (p : List Byte) (b : Byte), s.inv = true → c < s.params.NCH →
    i < p.length → b ≠ p.getD i 0 →
    unread s.params.N (s.channel c) =
      beforeSize ++ dec p.length ++ afterSize ++ p.set i b ++ beforeChecksum ++ dec (checksum p).toNat ++
        afterChecksum →
    (∀ j, j < p.length → ((p.set i b ++ beforeChecksum).drop j).take 8 ≠ beforeChecksum) →
    p.length ≤ s.arg0.toNat →
    ∃ t, exec (.frScan c) s = .next t ∧ endsWith s t .done { code := 4, dout := p.set i b } ∧
      (t.channel c).invalidCount = (s.channel c).invalidCount + 1 ∧
      (t.channel c).validCount = (s.channel c).validCount

/-- The spec's own derivation in R161: a frame after `k` bytes in which no `BEFORE_SIZE` starts is scanned, and exactly
`k` bytes are counted as disregarded. -/
def Obligations.ScansResynchronize : Prop :=
  ∀ (s : State) (c : Nat) (g p : List Byte), s.inv = true → c < s.params.NCH →
    unread s.params.N (s.channel c) = g ++ encodeFrame p →
    (∀ i, i < g.length → ((g ++ beforeSize).drop i).take 8 ≠ beforeSize) →
    (∀ i, i < p.length → ((p ++ beforeChecksum).drop i).take 8 ≠ beforeChecksum) →
    p.length ≤ s.arg0.toNat →
    ∃ t, exec (.frScan c) s = .next t ∧ endsWith s t .done { code := 0, val0 := wrap32 p.length, dout := p } ∧
      (t.channel c).disregardedCount = (s.channel c).disregardedCount + wrap32 g.length ∧
      (t.channel c).validCount = (s.channel c).validCount + 1

/-! ## BroadcastRing (spec/44_broadcast_ring.md) -/

/-- R182: BR_INIT zeroes the counter and gives it a value; slots, cursors and channels stay. For the one writer agent
(log 9). What counts as ahead of each reader afterwards is the enqueues completed since its cursor was set (R277 across
R276, log 11). -/
def Obligations.BrInitZeroesTheCounter : Prop :=
  ∀ s : State, s.inv = true → (s.writer = none ∨ s.writer = some s.cur) →
    ∃ t, exec .brInit s = .next t ∧ endsWith s t .done {} ∧ sameChannels s t ∧ sameRest s t ∧
      t.sendCounter = 0 ∧ t.scValid = true ∧ (∀ k, 4 ≤ k → Memory.read t.image k = Memory.read s.image k) ∧
      t.readers = s.readers ∧ t.wop = s.wop ∧ t.published = 0 ∧
      ∀ r, r < s.params.NRD → (t.lag r).items = (s.lag r).since ∧ (t.lag r).since = (s.lag r).since

/-- R184: E0 reads the counter and makes every byte of slot s mod Q pending; no byte, no port and no cursor changes.
For the one writer agent (R258 item 1). -/
def Obligations.BrEnqStartsAnEnqueue : Prop :=
  ∀ s : State, s.din.length = s.params.MAX → s.scValid = true → (s.writer = none ∨ s.writer = some s.cur) →
    ∃ (t : State) (pending : List Nat), exec .brEnq s = .next t ∧
      t.wop = .enq s.sendCounter s.arg0 s.din pending ∧ pending.Nodup ∧ pending.length = 4 + s.params.MAX ∧
      (∀ o, o ∈ pending ↔
        4 + (s.sendCounter.toNat % s.params.Q) * (4 + s.params.MAX) ≤ o ∧
          o < 4 + (s.sendCounter.toNat % s.params.Q) * (4 + s.params.MAX) + (4 + s.params.MAX)) ∧
      samePorts s t ∧ sameChannels s t ∧ sameRest s t ∧ t.image = s.image ∧ t.scValid = s.scValid ∧
      t.readers = s.readers

/-- R185: each E1 writes the item's byte at one pending offset, any of them by some choice, and nothing else. -/
def Obligations.EnqueuesWriteOneSlotByteAtATime : Prop :=
  ∀ (s : State) (sent len : Word) (payload : List Byte) (pending : List Nat), s.inv = true →
    s.wop = .enq sent len payload pending → pending ≠ [] →
    let base := 4 + (sent.toNat % s.params.Q) * (4 + s.params.MAX)
    let writes (o : Nat) (t : State) : Prop :=
      o ∈ pending ∧ t.wop = .enq sent len payload (pending.erase o) ∧
      Memory.read t.image o =
        (if o - base < 4 then len.extractLsb' (8 * (o - base)) 8 else payload.getD (o - base - 4) 0) ∧
      (∀ k, k ≠ o → Memory.read t.image k = Memory.read s.image k) ∧
      samePorts s t ∧ sameChannels s t ∧ sameRest s t ∧ t.scValid = s.scValid ∧ t.readers = s.readers
    (∀ pick, ∃ o t, enqStep s pick = .next t ∧ writes o t) ∧
    (∀ o ∈ pending, ∃ pick t, enqStep s pick = .next t ∧ writes o t)

/-- R186: E2 publishes: the counter becomes s + 1, ItemEnqueued is emitted, `wop` is Idle and the command ends; no slot
byte changes. The writer is one item further ahead of every reader; where that would be 2^32 items for an initialised
one, the run is refused (R258 item 5, as log 11 reads it). -/
def Obligations.EnqueuesPublishAfterTheirLastByte : Prop :=
  ∀ (s : State) (sent len : Word) (payload : List Byte) (pick : Nat), s.inv = true →
    s.wop = .enq sent len payload [] →
    if ∃ r, r < s.params.NRD ∧ (s.reader r).valid = true ∧ 2 ^ 32 ≤ (s.lag r).items + 1 then
      enqStep s pick = .refused .counterLapped
    else ∃ t, enqStep s pick = .next t ∧ endsWith s t .done {} ∧ t.sendCounter = sent + 1 ∧
      t.published = s.published + 1 ∧ t.events = s.events ++ [.itemEnqueued] ∧ t.wop = .idle ∧
      (∀ r, r < s.params.NRD → (t.lag r).items = (s.lag r).items + 1 ∧ (t.lag r).since = (s.lag r).since + 1) ∧
      (∀ k, 4 ≤ k → Memory.read t.image k = Memory.read s.image k) ∧ sameChannels s t ∧ t.readers = s.readers ∧
      t.scValid = s.scValid ∧ t.params = s.params ∧ t.turns = s.turns

/-- R183 to R187: a BR_ENQ of the one writer, whose micro-steps nothing interrupts and whose item laps no reader (R258
item 5, log 11), ends after 2 + 4 + MAX steps, whatever order its bytes are written in: its slot holds the item, every
other slot is as before, the counter is one higher. -/
def Obligations.UninterruptedEnqueuesStoreTheirItem : Prop :=
  ∀ (s : State) (a : Nat) (picks : List Nat) (rest : List Turn) (cmd : Command), s.inv = true →
    s.inFlight a = .nothing → s.nextLine a = some (.command cmd) → decode cmd.word = .instr .brEnq →
    cmd.din.length = s.params.MAX → s.scValid = true → (s.writer = none ∨ s.writer = some a) →
    s.lapsReader = false →
    picks.length = 2 + 4 + s.params.MAX → s.turns = picks.map (Turn.agent a) ++ rest →
    ∃ t : State, Host.Core.run Sys2Proof.core (2 + 4 + s.params.MAX) s = .next t ∧ t.turns = rest ∧
      t.wop = .idle ∧ t.sendCounter = s.sendCounter + 1 ∧ t.events = s.events ++ [.itemEnqueued] ∧
      t.slotBytes (s.sendCounter.toNat % s.params.Q) = itemBytes cmd.arg0 cmd.din ∧
      (∀ i, i < s.params.Q → i ≠ s.sendCounter.toNat % s.params.Q → t.slotBytes i = s.slotBytes i) ∧
      sameChannels s t ∧ t.readers = s.readers ∧ (∀ b, b ≠ a → t.port b = s.port b) ∧
      (t.port a).status = 0 ∧ (t.port a).code = 0 ∧ (t.port a).pc = (s.port a).pc + 1

/-- The spec's own derivation in R187: `sendCounter` changes only at E2 of the agent whose enqueue is in flight, by
exactly + 1, or when an agent issues BR_INIT, to 0. (A reset leaves it without a value.) -/
def Obligations.SendCounterMovesOnlyByPublishing : Prop :=
  ∀ s t : State, s.inv = true → step s = .next t →
    t.sendCounter = s.sendCounter ∨
    ((∃ a, s.moves a ∧ s.inFlight a = .enq) ∧ (∃ len payload, s.wop = .enq s.sendCounter len payload []) ∧
      t.wop = .idle ∧ t.sendCounter = s.sendCounter + 1 ∧ t.scValid = true) ∨
    ((∃ a, s.issues a .brInit) ∧ t.sendCounter = 0 ∧ t.scValid = true ∧ t.readers = s.readers) ∨
    ((∃ ts, s.turns = .reset :: ts) ∧ t.scValid = false)

/-- R188: BR_RINIT zeroes cursor r and gives it a value; no other cursor, no slot and no channel changes. For the one
agent of the cursor (log 10). Every item since BR_INIT is then unseen; where they are 2^32 or more, the run is refused
(R258 item 5, as log 11 reads it). -/
def Obligations.BrRinitZeroesTheCursor : Prop :=
  ∀ (s : State) (r : Nat), s.inv = true → r < s.params.NRD →
    ((s.reader r).owner = none ∨ (s.reader r).owner = some s.cur) →
    if 2 ^ 32 ≤ s.published then exec (.brRinit r) s = .refused .counterLapped
    else ∃ t, exec (.brRinit r) s = .next t ∧ endsWith s t .done {} ∧ sameChannels s t ∧ sameRest s t ∧
      t.image = s.image ∧ t.scValid = s.scValid ∧ t.wop = s.wop ∧ sameOtherReaders s t r ∧
      (t.reader r).numRecv = 0 ∧ (t.reader r).valid = true ∧ (t.reader r).rop = (s.reader r).rop ∧
      (t.lag r).items = s.published ∧ (t.lag r).since = 0 ∧ ∀ q, q ≠ r → t.lag q = s.lag q

/-- R190 to R193: D1. Nothing unseen: Empty, the cursor unchanged. Otherwise the cursor moves past what was dropped and
the item taken, never past `sent`, and every byte of slot (numRecv − 1) mod Q is pending. The last two clauses are the
spec's own derivation at the end of R193. What is then ahead of the cursor is what it has not seen (log 11). For the
one agent of the cursor (R258 item 2). -/
def Obligations.BrDeqTakesAnItemOrReportsEmpty : Prop :=
  ∀ (s : State) (r : Nat), s.inv = true → r < s.params.NRD → (s.reader r).valid = true → s.scValid = true →
    ((s.reader r).owner = none ∨ (s.reader r).owner = some s.cur) →
    let Q := s.params.Q
    let sent := s.sendCounter
    let old := (s.reader r).numRecv
    let unseen := (sent.toNat + 2 ^ 32 - old.toNat) % 2 ^ 32
    ∃ t, exec (.brDeq r) s = .next t ∧ sameChannels s t ∧ sameRest s t ∧ t.image = s.image ∧
      t.scValid = s.scValid ∧ t.wop = s.wop ∧ sameOtherReaders s t r ∧ (t.reader r).valid = true ∧
      (t.lag r).items = (sent - (t.reader r).numRecv).toNat ∧ (t.lag r).since = 0 ∧ (∀ q, q ≠ r → t.lag q = s.lag q) ∧
      if unseen = 0 then
        endsWith s t .done { code := 0, val0 := 0 } ∧ (t.reader r).numRecv = old ∧
          (t.reader r).rop = (s.reader r).rop
      else
        samePorts s t ∧
        ∃ (dropped idx : Word) (pending : List Nat),
          dropped.toNat = (if Q - 1 < unseen then unseen - (Q - 1) else 0) ∧
          (t.reader r).numRecv = old + dropped + 1 ∧
          idx.toNat = ((t.reader r).numRecv - 1).toNat % Q ∧
          (t.reader r).rop = .deq sent dropped idx (List.replicate (4 + s.params.MAX) none) pending ∧
          pending.Nodup ∧
          (∀ o, o ∈ pending ↔ 4 + idx.toNat * (4 + s.params.MAX) ≤ o ∧
            o < 4 + idx.toNat * (4 + s.params.MAX) + (4 + s.params.MAX)) ∧
          (unseen ≤ Q - 1 → (t.reader r).numRecv = old + 1 ∧
            (sent - (t.reader r).numRecv).toNat = unseen - 1) ∧
          (Q - 1 < unseen → (t.reader r).numRecv = sent - wrap32 Q + 2 ∧
            (sent - (t.reader r).numRecv).toNat ≤ Q - 2)

/-- R194: each D2 copies the image byte at one pending offset, any of them by some choice, and nothing else. -/
def Obligations.DequeuesCopyOneSlotByteAtATime : Prop :=
  ∀ (s : State) (r : Nat) (sent dropped idx : Word) (copy : List (Option Byte)) (pending : List Nat),
    s.inv = true → r < s.params.NRD → (s.reader r).rop = .deq sent dropped idx copy pending → pending ≠ [] →
    let base := 4 + idx.toNat * (4 + s.params.MAX)
    let copies (o : Nat) (t : State) : Prop :=
      o ∈ pending ∧ base ≤ o ∧ o - base < copy.length ∧
      t.reader r = { s.reader r with
        rop := .deq sent dropped idx (copy.set (o - base) (some (Memory.read s.image o))) (pending.erase o) } ∧
      samePorts s t ∧ sameChannels s t ∧ sameRest s t ∧ t.image = s.image ∧ t.scValid = s.scValid ∧
      t.wop = s.wop ∧ sameOtherReaders s t r
    (∀ pick, ∃ o t, deqStep s r pick = .next t ∧ copies o t) ∧
    (∀ o ∈ pending, ∃ pick t, deqStep s r pick = .next t ∧ copies o t)

/-- R195, R196: D3 and D4 read the counter again and decide Ok or Racy; VAL1 and DOUT hold the copy either way; the
cursor is not moved back. That no publish in between gives Ok is the spec's own derivation at the end of R196. -/
def Obligations.DequeuesDecideOkOrRacy : Prop :=
  ∀ (s : State) (r pick : Nat) (sent dropped idx : Word) (copy : List (Option Byte)), s.inv = true →
    r < s.params.NRD → (s.reader r).rop = .deq sent dropped idx copy [] →
    let test := (s.sendCounter - (s.reader r).numRecv + 1).toNat
    ∃ (t : State) (bytes : List Byte) (res : Results), deqStep s r pick = .next t ∧ endsWith s t .done res ∧
      copy = bytes.map some ∧ bytes.length = 4 + s.params.MAX ∧
      res.val1.toNat =
        (bytes.getD 0 0).toNat + 2 ^ 8 * (bytes.getD 1 0).toNat + 2 ^ 16 * (bytes.getD 2 0).toNat +
          2 ^ 24 * (bytes.getD 3 0).toNat ∧
      res.dout = bytes.drop 4 ∧
      (test < s.params.Q → res.code = 1 ∧ res.val0 = dropped) ∧
      (s.params.Q ≤ test → res.code = 2 ∧ res.val0 = dropped + 1) ∧
      (s.sendCounter = sent → (sent - (s.reader r).numRecv).toNat + 1 < s.params.Q → res.code = 1) ∧
      t.reader r = { s.reader r with rop := .idle } ∧ sameOtherReaders s t r ∧ sameChannels s t ∧ sameRest s t ∧
      t.image = s.image ∧ t.scValid = s.scValid ∧ t.wop = s.wop

/-- R189 to R196: a BR_DEQ with something unseen whose micro-steps nothing interrupts ends after 2 + 4 + MAX steps with
Ok, the drop count of R192 and the bytes of its slot, whatever order they are copied in. -/
def Obligations.UninterruptedDequeuesDeliverTheirSlot : Prop :=
  ∀ (s : State) (a r : Nat) (picks : List Nat) (rest : List Turn) (cmd : Command), s.inv = true →
    s.inFlight a = .nothing → s.nextLine a = some (.command cmd) → decode cmd.word = .instr (.brDeq r) →
    r < s.params.NRD → (s.reader r).valid = true → s.scValid = true →
    ((s.reader r).owner = none ∨ (s.reader r).owner = some a) → s.sendCounter ≠ (s.reader r).numRecv →
    picks.length = 2 + 4 + s.params.MAX → s.turns = picks.map (Turn.agent a) ++ rest →
    ∃ (t : State) (dropped : Word), Host.Core.run Sys2Proof.core (2 + 4 + s.params.MAX) s = .next t ∧
      t.turns = rest ∧
      dropped.toNat = (s.sendCounter - (s.reader r).numRecv).toNat - (s.params.Q - 1) ∧
      (t.reader r).numRecv = (s.reader r).numRecv + dropped + 1 ∧ (t.reader r).rop = .idle ∧
      (t.port a).status = 0 ∧ (t.port a).code = 1 ∧ (t.port a).val0 = dropped ∧
      itemBytes (t.port a).val1 (t.port a).dout = s.slotBytes (((t.reader r).numRecv - 1).toNat % s.params.Q) ∧
      (t.port a).pc = (s.port a).pc + 1 ∧ (∀ b, b ≠ a → t.port b = s.port b) ∧ sameChannels s t ∧
      sameOtherReaders s t r ∧ t.image = s.image

/-- R197: BR_ISEMPTY compares the counter with the cursor and changes neither. For the one agent of the cursor (log
10). -/
def Obligations.BrIsemptyComparesCounterAndCursor : Prop :=
  ∀ (s : State) (r : Nat), s.inv = true → r < s.params.NRD → (s.reader r).valid = true → s.scValid = true →
    ((s.reader r).owner = none ∨ (s.reader r).owner = some s.cur) →
    ∃ t, exec (.brIsempty r) s = .next t ∧
      endsWith s t .done { code := if s.sendCounter = (s.reader r).numRecv then 1 else 0 } ∧
      sameChannels s t ∧ sameRest s t ∧ t.image = s.image ∧ t.scValid = s.scValid ∧ t.wop = s.wop ∧
      sameOtherReaders s t r ∧ (t.reader r).numRecv = (s.reader r).numRecv ∧ (t.reader r).valid = (s.reader r).valid ∧
      (t.reader r).rop = (s.reader r).rop ∧ t.lags = s.lags

/-- The spec's own derivation in R198, reader independence: no move of another agent touches a cursor in use (its
command on the same cursor is refused: R258 item 2, log 10), and what each micro-step of a dequeue does, D1, D2 and D3
with D4, is the same whatever the other cursors hold. -/
def Obligations.ReadersAreIndependent : Prop :=
  (∀ (s t : State) (a b r : Nat), s.moves a → step s = .next t →
    (s.reader r).owner = some b → b ≠ a → t.reader r = s.reader r) ∧
  (∀ (s : State) (r q : Nat) (rd : Reader), q ≠ r →
    let alike (run : State → StepOutcome) : Prop :=
      match run s with
      | .next t => run (s.setReader q rd) = .next (t.setReader q rd)
      | .fault f => run (s.setReader q rd) = .fault f
      | .refused e => run (s.setReader q rd) = .refused e
    alike (exec (.brDeq r)) ∧ ∀ pick, alike fun u => deqStep u r pick)

/-- The spec's own derivation in R198, drop accounting: in any step, no dequeue on the cursor ends and what its
finished dequeues account for stays; or an agent issues BR_RINIT r and it restarts at 0; or a dequeue on the cursor
ends and it grows by VAL0, and by one more if the end is Ok. A reset leaves the cursor without a value (its bits 0: log
4). -/
def Obligations.DropsAreAccountedExactly : Prop :=
  ∀ (s t : State) (r : Nat), s.inv = true → r < s.params.NRD → step s = .next t →
    ((t.reader r).settled = (s.reader r).settled ∧
      ∀ a, s.moves a → s.inFlight a = .deq r → (t.reader r).rop ≠ .idle) ∨
    ((∃ a, s.issues a (.brRinit r)) ∧ (t.reader r).settled = 0 ∧ (t.reader r).valid = true ∧
      (t.reader r).rop = .idle) ∨
    ((∃ ts, s.turns = .reset :: ts) ∧ (t.reader r).settled = 0 ∧ (t.reader r).valid = false ∧
      (t.reader r).rop = .idle) ∨
    (∃ a, s.moves a ∧ s.inFlight a = .deq r ∧ (s.reader r).owner = some a ∧ (t.reader r).rop = .idle ∧
      (t.port a).status = 0 ∧ (t.port a).pc = (s.port a).pc + 1 ∧
      (((t.port a).code = 1 ∧ (t.reader r).settled = (s.reader r).settled + (t.port a).val0 + 1) ∨
        ((t.port a).code = 2 ∧ (t.reader r).settled = (s.reader r).settled + (t.port a).val0)))

/-- The history invariant holds at reset with no item published. -/
def Obligations.HistoryHoldsAtReset : Prop :=
  ∀ p : Params, p.valid = true → historyInv (State.resetWith p) [] = true

/-- The spec's own derivation in R65 and R187, the seqlock argument as an invariant: every step that does not take the
counter back keeps the last Q − 1 published items in their slots, no cursor past them, and no copy torn while its item
can still be delivered. -/
def Obligations.EveryStepKeepsTheHistory : Prop :=
  ∀ (s t : State) (log : List Item), historyInv s log = true → step s = .next t → s.published ≤ t.published →
    historyInv t (logAfter s t log) = true

/-- The spec's own derivation in R65: a BR_DEQ that ends Ok delivers exactly the item enqueued as number numRecv − 1,
where the writer is fewer than 2^32 − 1 items ahead. (At exactly 2^32 − 1 ahead the test of R196 wraps to 0; log
25.) -/
def Obligations.OkDequeuesDeliverTheItemEnqueued : Prop :=
  ∀ (s t : State) (log : List Item) (r pick : Nat) (sent dropped idx : Word) (copy : List (Option Byte)),
    historyInv s log = true → r < s.params.NRD → (s.reader r).rop = .deq sent dropped idx copy [] →
    s.published + 1 < (s.reader r).received + 2 ^ 32 →
    deqStep s r pick = .next t → (t.port s.cur).code = 1 →
    (s.reader r).numRecv = wrap32 (s.reader r).received ∧ 0 < (s.reader r).received ∧
      log[(s.reader r).received - 1]? = some ((t.port s.cur).val1, (t.port s.cur).dout)

/-! ## System (spec/45_system.md) -/

/-- R220, R221: REG_READ answers the value the map gives each register, UNINITIALIZED for a counter without a value,
BAD_OPERAND for every other number, and changes nothing but its port. -/
def Obligations.RegReadAnswersTheRegisterMap : Prop :=
  ∀ s : State, s.inv = true →
    let p := s.params
    let n := s.arg0.toNat
    let answers (o : Option Word) : Prop :=
      ∃ t, exec .regRead s = .next t ∧ sameBlock s t ∧
        match o with
        | some v => endsWith s t .done { val0 := v }
        | none => endsWith s t .uninitialized {}
    (n = 0x10 → answers (some (wrap32 p.N))) ∧ (n = 0x11 → answers (some (wrap32 p.Q))) ∧
    (n = 0x12 → answers (some (wrap32 p.MAX))) ∧ (n = 0x13 → answers (some (wrap32 p.NCH))) ∧
    (n = 0x14 → answers (some (wrap32 p.NRD))) ∧ (n = 0x15 → answers (some (wrap32 p.DIN_MAX))) ∧
    (n = 0x0800 → answers (if s.scValid then some s.sendCounter else none)) ∧
    (n = 0x0801 → answers (some (if s.scValid then 1 else 0))) ∧
    (∀ c, c < p.NCH →
      (n = 0x1000 + 16 * c + 0 → answers (some (wrap32 (s.channel c).writeOffset))) ∧
      (n = 0x1000 + 16 * c + 1 → answers (some (wrap32 (s.channel c).readOffset))) ∧
      (n = 0x1000 + 16 * c + 2 → answers (some (wrap32 (occupied p.N (s.channel c))))) ∧
      (n = 0x1000 + 16 * c + 3 → answers (some (s.channel c).validCount)) ∧
      (n = 0x1000 + 16 * c + 4 → answers (some (s.channel c).invalidCount)) ∧
      (n = 0x1000 + 16 * c + 5 → answers (some (s.channel c).disregardedCount)) ∧
      (n = 0x1000 + 16 * c + 6 → answers (some (wrap32 (p.N - 1 - occupied p.N (s.channel c)))))) ∧
    (∀ r, r < p.NRD →
      (n = 0x2000 + 16 * r + 0 → answers (if (s.reader r).valid then some (s.reader r).numRecv else none)) ∧
      (n = 0x2000 + 16 * r + 1 → answers (some (if (s.reader r).valid then 1 else 0)))) ∧
    (n ∉ [0x10, 0x11, 0x12, 0x13, 0x14, 0x15, 0x0800, 0x0801] →
      (∀ c k, c < p.NCH → k < 7 → n ≠ 0x1000 + 16 * c + k) →
      (∀ r k, r < p.NRD → k < 2 → n ≠ 0x2000 + 16 * r + k) →
      ∃ t, exec .regRead s = .next t ∧ endsWith s t .badOperand {} ∧ sameBlock s t)

/-! ## Scheduling (spec/20_memory.md R59, spec/60_exceptions.md R254) -/

/-- R59, R254: an agent with a command in flight is eventually scheduled, however the turns and the free choices fall,
unless a reset or a refusal ends the command first; and its command ends. No bound on the wait is promised. That turns
are kept for it is how the model has it so (log 6). -/
def Obligations.CommandsInFlightAreScheduledAndEnd : Prop :=
  ∀ (s : State) (a : Nat), s.inv = true → s.inFlight a ≠ .nothing →
    let cutShort (t : State) : Prop := (∃ ts, t.turns = .reset :: ts) ∨ ∃ e, step t = .refused e
    (∃ k t, Host.Core.run Sys2Proof.core k s = .next t ∧
      (cutShort t ∨ (t.inFlight a = s.inFlight a ∧ t.moves a))) ∧
    (∃ k t, Host.Core.run Sys2Proof.core k s = .next t ∧ (cutShort t ∨ t.inFlight a ≠ s.inFlight a))
end

