-- ==== Sys2Proof/Laws/Memory.lean ====
section
/-! SUPPORT. A memory: what a read after a write gives, that writing keeps the one form, and that memories in the one form
are equal where their bytes are. -/

namespace Sys2Proof.Machine

@[simp] theorem Memory.read_nil (k : Nat) : Memory.read [] k = Memory.unlisted := rfl

theorem Memory.read_cons (c : Host.Cell) (m : Memory) (k : Nat) :
    Memory.read (c :: m) k = if c.1 = k then c.2 else Memory.read m k := rfl

/-- Where the one form of a list's tail starts above its head. -/
theorem Memory.wf_cons (c : Host.Cell) (m : Memory) :
    Memory.wf (c :: m) = true ↔ c.2 ≠ Memory.unlisted ∧ (∀ d ∈ m, c.1 < d.1) ∧ Memory.wf m = true := by
  induction m generalizing c with
  | nil => simp [Memory.wf]
  | cons d m ih =>
    rw [Memory.wf, Bool.and_eq_true, Bool.and_eq_true, decide_eq_true_eq, decide_eq_true_eq]
    constructor
    · rintro ⟨⟨h1, h2⟩, h3⟩
      refine ⟨h1, ?_, h3⟩
      intro e he
      rcases List.mem_cons.1 he with rfl | he
      · exact h2
      · exact lt_trans h2 (((ih d).1 h3).2.1 e he)
    · rintro ⟨h1, h2, h3⟩
      exact ⟨⟨h1, h2 d (by simp)⟩, h3⟩

/-- An index below every listed one holds the unlisted value. -/
theorem Memory.read_below (m : Memory) (k : Nat) (h : ∀ d ∈ m, k < d.1) : Memory.read m k = Memory.unlisted := by
  induction m with
  | nil => rfl
  | cons c m ih =>
    have hc := h c (by simp)
    rw [Memory.read_cons, if_neg (by omega)]
    exact ih fun d hd => h d (by simp [hd])

/-- Every index that a write leaves listed was listed or is the one written. -/
theorem Memory.mem_write (m : Memory) (k : Nat) (v : Byte) (e : Host.Cell) (h : e ∈ Memory.write m k v) :
    e ∈ m ∨ e = (k, v) := by
  induction m with
  | nil =>
    rw [Memory.write] at h
    split at h
    · simp at h
    · right; simpa using h
  | cons c m ih =>
    rw [Memory.write] at h
    split at h
    · split at h
      · left; exact h
      · rcases List.mem_cons.1 h with rfl | h
        · right; rfl
        · left; exact h
    · split at h
      · split at h
        · left; simp [h]
        · rcases List.mem_cons.1 h with rfl | h
          · right; rfl
          · left; simp [h]
      · rcases List.mem_cons.1 h with rfl | h
        · left; simp
        · rcases ih h with h | h
          · left; simp [h]
          · right; exact h

/-- A write keeps the one form. -/
theorem Memory.write_wf (m : Memory) (k : Nat) (v : Byte) (h : Memory.wf m = true) :
    Memory.wf (Memory.write m k v) = true := by
  induction m with
  | nil =>
    rw [Memory.write]
    split
    · rfl
    · simpa [Memory.wf] using ‹¬v = Memory.unlisted›
  | cons c m ih =>
    have hc := (Memory.wf_cons c m).1 h
    rw [Memory.write]
    split
    · rename_i hk
      split
      · exact h
      · rename_i hv
        refine (Memory.wf_cons _ _).2 ⟨hv, ?_, h⟩
        intro d hd
        rcases List.mem_cons.1 hd with rfl | hd
        · exact hk
        · exact lt_trans hk (hc.2.1 d hd)
    · rename_i hk
      split
      · rename_i hkc
        split
        · exact hc.2.2
        · rename_i hv
          exact (Memory.wf_cons _ _).2 ⟨hv, fun d hd => by simpa [hkc] using hc.2.1 d hd, hc.2.2⟩
      · rename_i hkc
        refine (Memory.wf_cons _ _).2 ⟨hc.1, ?_, ih hc.2.2⟩
        intro d hd
        rcases Memory.mem_write m k v d hd with hd | rfl
        · exact hc.2.1 d hd
        · show c.1 < k
          omega

/-- A write below a bound keeps every listed index below it. -/
theorem Memory.write_below (hi : Nat) (m : Memory) (k : Nat) (v : Byte) (h : Memory.below hi m = true) (hk : k < hi) :
    Memory.below hi (Memory.write m k v) = true := by
  rw [Memory.below, List.all_eq_true] at h ⊢
  intro e he
  rcases Memory.mem_write m k v e he with he | rfl
  · exact h e he
  · simpa using hk

/-- The byte just written reads back. -/
theorem Memory.read_write_same (m : Memory) (k : Nat) (v : Byte) (h : Memory.wf m = true) :
    Memory.read (Memory.write m k v) k = v := by
  induction m with
  | nil =>
    rw [Memory.write]
    split
    · rename_i hv; rw [hv]; rfl
    · simp [Memory.read_cons]
  | cons c m ih =>
    have hc := (Memory.wf_cons c m).1 h
    rw [Memory.write]
    split
    · rename_i hk
      split
      · rename_i hv
        rw [hv]
        apply Memory.read_below
        intro d hd
        rcases List.mem_cons.1 hd with rfl | hd
        · exact hk
        · exact lt_trans hk (hc.2.1 d hd)
      · simp [Memory.read_cons]
    · split
      · rename_i hkc
        split
        · rename_i hv
          rw [hv]
          exact Memory.read_below _ _ fun d hd => by simpa [hkc] using hc.2.1 d hd
        · simp [Memory.read_cons]
      · rename_i hkc
        rw [Memory.read_cons, if_neg (fun h' => hkc h'.symm)]
        exact ih hc.2.2

/-- Every other byte is as before. -/
theorem Memory.read_write_ne (m : Memory) (k j : Nat) (v : Byte) (h : j ≠ k) :
    Memory.read (Memory.write m k v) j = Memory.read m j := by
  induction m with
  | nil =>
    rw [Memory.write]
    split
    · rfl
    · rw [Memory.read_cons, if_neg (fun h' => h h'.symm)]
  | cons c m ih =>
    rw [Memory.write]
    split
    · split
      · rfl
      · rw [Memory.read_cons, if_neg (fun h' => h h'.symm)]
    · split
      · rename_i hkc
        split
        · rw [Memory.read_cons, if_neg (fun h' => h (by omega))]
        · rw [Memory.read_cons, if_neg (fun h' => h h'.symm), Memory.read_cons, if_neg (fun h' => h (by omega))]
      · rw [Memory.read_cons, Memory.read_cons, ih]

/-- What a write can do to any byte. -/
theorem Memory.read_write (m : Memory) (k j : Nat) (v : Byte) (h : Memory.wf m = true) :
    Memory.read (Memory.write m k v) j = if j = k then v else Memory.read m j := by
  split
  · rename_i hj; rw [hj]; exact Memory.read_write_same m k v h
  · rename_i hj; exact Memory.read_write_ne m k j v hj

/-- Memories in the one form that hold the same bytes are the same data. -/
theorem Memory.eq_of_read (m n : Memory) (hm : Memory.wf m = true) (hn : Memory.wf n = true)
    (h : ∀ k, Memory.read m k = Memory.read n k) : m = n := by
  induction m generalizing n with
  | nil =>
    cases n with
    | nil => rfl
    | cons d n =>
      have hd := (Memory.wf_cons d n).1 hn
      have := h d.1
      rw [Memory.read_nil, Memory.read_cons, if_pos rfl] at this
      exact absurd this.symm hd.1
  | cons c m ih =>
    have hc := (Memory.wf_cons c m).1 hm
    cases n with
    | nil =>
      have := h c.1
      rw [Memory.read_nil, Memory.read_cons, if_pos rfl] at this
      exact absurd this hc.1
    | cons d n =>
      have hd := (Memory.wf_cons d n).1 hn
      have hcd : c.1 = d.1 := by
        rcases Nat.lt_trichotomy c.1 d.1 with hlt | heq | hgt
        · have := h c.1
          rw [Memory.read_cons, if_pos rfl, Memory.read_below (d :: n) c.1] at this
          · exact absurd this hc.1
          · intro e he
            rcases List.mem_cons.1 he with rfl | he
            · exact hlt
            · exact lt_trans hlt (hd.2.1 e he)
        · exact heq
        · have := h d.1
          rw [Memory.read_cons d n, if_pos rfl, Memory.read_below (c :: m) d.1] at this
          · exact absurd this.symm hd.1
          · intro e he
            rcases List.mem_cons.1 he with rfl | he
            · exact hgt
            · exact lt_trans hgt (hc.2.1 e he)
      have hv : c.2 = d.2 := by
        have := h c.1
        rw [Memory.read_cons, if_pos rfl, Memory.read_cons, if_pos hcd.symm] at this
        exact this
      have hrest : m = n := by
        apply ih n hc.2.2 hd.2.2
        intro k
        by_cases hk : c.1 = k
        · rw [Memory.read_below m k (fun e he => hk ▸ hc.2.1 e he),
            Memory.read_below n k (fun e he => by have := hd.2.1 e he; omega)]
        · have := h k
          rw [Memory.read_cons, Memory.read_cons, if_neg hk, if_neg (by omega)] at this
          exact this
      rw [hrest, show c = d from Prod.ext hcd hv]

/-! ### Words of the ring image -/

/-- Every byte of the image after a word is stored at `a`. -/
theorem read_writeWord (m : Memory) (a j : Nat) (v : Word) (h : Memory.wf m = true) :
    Memory.read (writeWord m a v) j =
      if j = a + 3 then v.extractLsb' 24 8 else if j = a + 2 then v.extractLsb' 16 8
      else if j = a + 1 then v.extractLsb' 8 8 else if j = a then v.extractLsb' 0 8 else Memory.read m j := by
  have h1 := Memory.write_wf m a (v.extractLsb' 0 8) h
  have h2 := Memory.write_wf _ (a + 1) (v.extractLsb' 8 8) h1
  have h3 := Memory.write_wf _ (a + 2) (v.extractLsb' 16 8) h2
  rw [writeWord, Memory.read_write _ _ _ _ h3, Memory.read_write _ _ _ _ h2, Memory.read_write _ _ _ _ h1,
    Memory.read_write _ _ _ _ h]

/-- The four bytes of a word, put together again. -/
theorem word_of_bytes (v : Word) :
    v.extractLsb' 24 8 ++ v.extractLsb' 16 8 ++ v.extractLsb' 8 8 ++ v.extractLsb' 0 8 = v := by
  ext i hi
  simp only [BitVec.getElem_append, BitVec.getElem_extractLsb']
  split
  · simp [BitVec.getLsbD_eq_getElem hi]
  · split
    · rename_i h1 h2
      rw [show 8 + (i - 8) = i by omega]; simp [BitVec.getLsbD_eq_getElem hi]
    · split
      · rename_i h1 h2 h3
        rw [show 16 + (i - 8 - 8) = i by omega]; simp [BitVec.getLsbD_eq_getElem hi]
      · rename_i h1 h2 h3
        rw [show 24 + (i - 8 - 8 - 8) = i by omega]; simp [BitVec.getLsbD_eq_getElem hi]

/-- The word just stored reads back (spec/20_memory.md R52). -/
theorem readWord_writeWord (m : Memory) (a : Nat) (v : Word) (h : Memory.wf m = true) :
    readWord (writeWord m a v) a = v := by
  have b0 : Memory.read (writeWord m a v) a = v.extractLsb' 0 8 := by rw [read_writeWord m a _ v h]; simp
  have b1 : Memory.read (writeWord m a v) (a + 1) = v.extractLsb' 8 8 := by rw [read_writeWord m a _ v h]; simp
  have b2 : Memory.read (writeWord m a v) (a + 2) = v.extractLsb' 16 8 := by rw [read_writeWord m a _ v h]; simp
  have b3 : Memory.read (writeWord m a v) (a + 3) = v.extractLsb' 24 8 := by rw [read_writeWord m a _ v h]; simp
  rw [readWord, b0, b1, b2, b3]
  exact word_of_bytes v

/-- A stored word leaves every byte outside its four as it was. -/
theorem read_writeWord_outside (m : Memory) (a j : Nat) (v : Word) (h : j < a ∨ a + 4 ≤ j) :
    Memory.read (writeWord m a v) j = Memory.read m j := by
  rw [writeWord, Memory.read_write_ne _ _ _ _ (by omega), Memory.read_write_ne _ _ _ _ (by omega),
    Memory.read_write_ne _ _ _ _ (by omega), Memory.read_write_ne _ _ _ _ (by omega)]

/-- A byte stored outside a word leaves the word as it was. -/
theorem readWord_write_outside (m : Memory) (a k : Nat) (v : Byte) (h : k < a ∨ a + 4 ≤ k) :
    readWord (Memory.write m k v) a = readWord m a := by
  rw [readWord, Memory.read_write_ne _ _ _ _ (by omega), Memory.read_write_ne _ _ _ _ (by omega),
    Memory.read_write_ne _ _ _ _ (by omega), Memory.read_write_ne _ _ _ _ (by omega), readWord]

/-- Storing a word keeps the one form. -/
theorem writeWord_wf (m : Memory) (a : Nat) (v : Word) (h : Memory.wf m = true) :
    Memory.wf (writeWord m a v) = true :=
  Memory.write_wf _ _ _ (Memory.write_wf _ _ _ (Memory.write_wf _ _ _ (Memory.write_wf _ _ _ h)))

/-- Storing a word below a bound keeps every listed index below it. -/
theorem writeWord_below (hi : Nat) (m : Memory) (a : Nat) (v : Word) (h : Memory.below hi m = true) (ha : a + 4 ≤ hi) :
    Memory.below hi (writeWord m a v) = true :=
  Memory.write_below _ _ _ _ (Memory.write_below _ _ _ _ (Memory.write_below _ _ _ _
    (Memory.write_below _ _ _ _ h (by omega)) (by omega)) (by omega)) (by omega)

/-- A byte array in its one form is a memory in its one form, of that size (`RING_INIT`, `SLOT_INIT`). -/
theorem cellsWithin_wf (lo hi : Nat) (m : Memory) (h : cellsWithin lo hi m = true) :
    Memory.wf m = true ∧ Memory.below hi m = true ∧ ∀ d ∈ m, lo ≤ d.1 := by
  induction m generalizing lo with
  | nil => exact ⟨rfl, rfl, by simp⟩
  | cons c m ih =>
    simp only [cellsWithin, Bool.and_eq_true, decide_eq_true_eq] at h
    obtain ⟨⟨⟨h1, h2⟩, h3⟩, h4⟩ := h
    obtain ⟨i1, i2, i3⟩ := ih (c.1 + 1) h4
    refine ⟨(Memory.wf_cons c m).2 ⟨h3, fun d hd => i3 d hd, i1⟩, ?_, ?_⟩
    · simp only [Memory.below, List.all_cons, Bool.and_eq_true, decide_eq_true_eq] at i2 ⊢
      exact ⟨h2, i2⟩
    · intro d hd
      rcases List.mem_cons.1 hd with rfl | hd
      · exact h1
      · have := i3 d hd
        omega

end Sys2Proof.Machine
end

