-- ==== Sys2Proof/Laws/Channel.lean ====
section
/-! SUPPORT. A channel unit: its occupancy, the bytes of its ring, appending, consuming, searching. -/

namespace Sys2Proof.Machine

/-! ### Offsets modulo N -/

theorem occupied_lt (N : Nat) (ch : Channel) (hN : 0 < N) : occupied N ch < N := Nat.mod_lt _ hN

/-- The occupancy as a difference, with or without the wrap (R120). -/
theorem occupied_eq (N : Nat) (ch : Channel) (hw : ch.writeOffset < N) (hr : ch.readOffset < N) :
    occupied N ch =
      if ch.readOffset ≤ ch.writeOffset then ch.writeOffset - ch.readOffset else ch.writeOffset + N - ch.readOffset := by
  rw [occupied]
  split
  · rw [show ch.writeOffset + N - ch.readOffset = (ch.writeOffset - ch.readOffset) + N by omega, Nat.add_mod_right,
      Nat.mod_eq_of_lt (by omega)]
  · rw [Nat.mod_eq_of_lt (by omega)]

/-- Two residues of offsets that differ by less than N, and are equal, come from equal offsets. -/
theorem mod_add_inj (N w a b : Nat) (ha : a < N) (hb : b < N) (h : (w + a) % N = (w + b) % N) : a = b := by
  have h' : a ≡ b [MOD N] := Nat.ModEq.add_left_cancel' w h
  rwa [Nat.ModEq, Nat.mod_eq_of_lt ha, Nat.mod_eq_of_lt hb] at h'

/-- The write offset is the read offset moved on by the occupancy. -/
theorem writeOffset_eq (N : Nat) (ch : Channel) (hw : ch.writeOffset < N) (hr : ch.readOffset < N) :
    ch.writeOffset = (ch.readOffset + occupied N ch) % N := by
  rw [occupied_eq N ch hw hr]
  split
  · rw [Nat.add_sub_cancel' (by omega), Nat.mod_eq_of_lt hw]
  · rw [show ch.readOffset + (ch.writeOffset + N - ch.readOffset) = ch.writeOffset + N by omega, Nat.add_mod_right,
      Nat.mod_eq_of_lt hw]

/-- Moving the write offset on by `k`, where that keeps the occupancy below N, adds `k` to it (R133 (b)). -/
theorem occupied_append (N : Nat) (ch ch' : Channel) (k : Nat) (hw : ch.writeOffset < N) (hr : ch.readOffset < N)
    (hk : occupied N ch + k < N) (h1 : ch'.writeOffset = (ch.writeOffset + k) % N) (h2 : ch'.readOffset = ch.readOffset) :
    occupied N ch' = occupied N ch + k := by
  have hN : 0 < N := by omega
  have hw' : ch'.writeOffset < N := by rw [h1]; exact Nat.mod_lt _ hN
  have e := writeOffset_eq N ch' hw' (by rw [h2]; exact hr)
  rw [h1, h2] at e
  conv_lhs at e => rw [writeOffset_eq N ch hw hr, Nat.mod_add_mod, Nat.add_assoc]
  exact (mod_add_inj N _ _ _ hk (occupied_lt N ch' hN) e).symm

/-- Moving the read offset on by `k` within the occupancy takes `k` from it (R130). -/
theorem occupied_advance (N : Nat) (ch ch' : Channel) (k : Nat) (hw : ch.writeOffset < N) (hr : ch.readOffset < N)
    (hk : k ≤ occupied N ch) (h1 : ch'.writeOffset = ch.writeOffset) (h2 : ch'.readOffset = (ch.readOffset + k) % N) :
    occupied N ch' = occupied N ch - k := by
  have hN : 0 < N := by omega
  have hr' : ch'.readOffset < N := by rw [h2]; exact Nat.mod_lt _ hN
  have e := writeOffset_eq N ch' (by rw [h1]; exact hw) hr'
  rw [h1, h2] at e
  conv_lhs at e => rw [writeOffset_eq N ch hw hr]
  rw [Nat.mod_add_mod, Nat.add_assoc] at e
  have h3 := occupied_lt N ch hN
  have h4 := occupied_lt N ch' hN
  by_cases hlt : k + occupied N ch' < N
  · have := mod_add_inj N _ _ _ h3 hlt e
    omega
  · have : (ch.readOffset + (k + occupied N ch')) % N = (ch.readOffset + (k + occupied N ch' - N)) % N := by
      rw [show ch.readOffset + (k + occupied N ch') = ch.readOffset + (k + occupied N ch' - N) + N by omega,
        Nat.add_mod_right]
    rw [this] at e
    have := mod_add_inj N _ _ _ h3 (by omega) e
    omega

/-! ### The bytes of the ring -/

@[simp] theorem ringBytes_length (N : Nat) (ch : Channel) (start count : Nat) :
    (ringBytes N ch start count).length = count := by simp [ringBytes]

theorem ringBytes_getElem (N : Nat) (ch : Channel) (start count k : Nat) (h : k < (ringBytes N ch start count).length) :
    (ringBytes N ch start count)[k] = ringByte N ch (start + k) := by simp [ringBytes]

theorem ringBytes_getD (N : Nat) (ch : Channel) (start count k : Nat) (h : k < count) :
    (ringBytes N ch start count).getD k 0 = ringByte N ch (start + k) := by
  rw [List.getD_eq_getElem?_getD, List.getElem?_eq_getElem (by simpa using h), ringBytes_getElem]
  rfl

theorem ringBytes_add (N : Nat) (ch : Channel) (start a b : Nat) :
    ringBytes N ch start (a + b) = ringBytes N ch start a ++ ringBytes N ch (start + a) b := by
  simp [ringBytes, List.range_add, Function.comp_def, Nat.add_assoc]

theorem ringBytes_mod (N : Nat) (ch : Channel) (start count : Nat) :
    ringBytes N ch (start % N) count = ringBytes N ch start count := by
  simp [ringBytes, ringByte, Nat.mod_add_mod]

theorem ringBytes_congr (N : Nat) (ch ch' : Channel) (start count : Nat)
    (h : ∀ k, k < count → ringByte N ch' (start + k) = ringByte N ch (start + k)) :
    ringBytes N ch' start count = ringBytes N ch start count := by
  apply List.map_congr_left
  intro k hk
  exact h k (List.mem_range.1 hk)

/-- Bytes of a region inside the first `count` bytes. -/
theorem ringBytes_region (N : Nat) (ch : Channel) (start count a b : Nat) (h1 : a ≤ b) (h2 : b ≤ count) :
    ringBytes N ch (start + a) (b - a) = ((ringBytes N ch start count).take b).drop a := by
  obtain ⟨d, rfl⟩ := Nat.exists_eq_add_of_le h1
  obtain ⟨e, rfl⟩ := Nat.exists_eq_add_of_le h2
  rw [ringBytes_add N ch start (a + d) e, List.take_left' (by simp), ringBytes_add N ch start a d,
    List.drop_left' (by simp), Nat.add_sub_cancel_left]

@[simp] theorem unread_length (N : Nat) (ch : Channel) : (unread N ch).length = occupied N ch := by simp [unread]

/-! ### Writing the ring -/

theorem writeRing_wf (N : Nat) (m : Memory) (k : Nat) (bs : List Byte) (h : Memory.wf m = true) :
    Memory.wf (writeRing N m k bs) = true := by
  induction bs generalizing m k with
  | nil => exact h
  | cons b bs ih => exact ih _ _ (Memory.write_wf _ _ _ h)

theorem writeRing_below (N : Nat) (hN : 0 < N) (m : Memory) (k : Nat) (bs : List Byte) (h : Memory.below N m = true) :
    Memory.below N (writeRing N m k bs) = true := by
  induction bs generalizing m k with
  | nil => exact h
  | cons b bs ih => exact ih _ _ (Memory.write_below _ _ _ _ h (Nat.mod_lt _ hN))

/-- A byte that no stored index names is as before. -/
theorem read_writeRing_outside (N : Nat) (m : Memory) (k : Nat) (bs : List Byte) (j : Nat)
    (h : ∀ i, i < bs.length → j ≠ (k + i) % N) : Memory.read (writeRing N m k bs) j = Memory.read m j := by
  induction bs generalizing m k with
  | nil => rfl
  | cons b bs ih =>
    rw [writeRing, ih]
    · exact Memory.read_write_ne _ _ _ _ (h 0 (by simp))
    · intro i hi
      have := h (i + 1) (by simpa using hi)
      rwa [show k + 1 + i = k + (i + 1) by omega]

/-- The i-th stored byte stands at index (k + i) mod N, where the string is no longer than the ring. -/
theorem read_writeRing_inside (N : Nat) (m : Memory) (k : Nat) (bs : List Byte) (i : Nat) (hm : Memory.wf m = true)
    (hN : bs.length ≤ N) (hi : i < bs.length) : Memory.read (writeRing N m k bs) ((k + i) % N) = bs.getD i 0 := by
  induction bs generalizing m k i with
  | nil => simp at hi
  | cons b bs ih =>
    have hN' : bs.length + 1 ≤ N := hN
    rw [writeRing]
    cases i with
    | zero =>
      rw [read_writeRing_outside]
      · exact Memory.read_write_same _ _ _ hm
      · intro i hi' he
        have := mod_add_inj N k 0 (1 + i) (by omega) (by omega) (by rw [← Nat.add_assoc]; exact he)
        omega
    | succ i =>
      have := ih (Memory.write m (k % N) b) (k + 1) i (Memory.write_wf _ _ _ hm) (by omega) (by simpa using hi)
      rw [show k + (i + 1) = k + 1 + i by omega, this]
      rfl

/-! ### Append (R123) -/

/-- All an append can do. -/
theorem appendBytes_cases (N : Nat) (ch : Channel) (bs : List Byte) :
    (remcap N ch < bs.length ∧ appendBytes N ch bs = none) ∨
      (bs.length ≤ remcap N ch ∧ appendBytes N ch bs = some { ch with
        data := writeRing N ch.data ch.writeOffset bs
        writeOffset := (ch.writeOffset + bs.length) % N }) := by
  unfold appendBytes
  split
  · exact .inl ⟨‹_›, rfl⟩
  · exact .inr ⟨by omega, rfl⟩

/-- A successful append adds its bytes after the unread ones (R133 (b), (c)). -/
theorem unread_append (N : Nat) (ch ch' : Channel) (bs : List Byte) (hd : Memory.wf ch.data = true)
    (hw : ch.writeOffset < N) (hr : ch.readOffset < N) (h : appendBytes N ch bs = some ch') :
    unread N ch' = unread N ch ++ bs := by
  rcases appendBytes_cases N ch bs with ⟨_, h'⟩ | ⟨hlen, h'⟩
  · rw [h'] at h; cases h
  rw [h'] at h
  injection h with h
  have hwo : ch'.writeOffset = (ch.writeOffset + bs.length) % N := by rw [← h]
  have hro : ch'.readOffset = ch.readOffset := by rw [← h]
  have hda : ch'.data = writeRing N ch.data ch.writeOffset bs := by rw [← h]
  have hocc := occupied_lt N ch (by omega)
  have hroom : occupied N ch + bs.length < N := by rw [remcap] at hlen; omega
  rw [unread, occupied_append N ch ch' bs.length hw hr hroom hwo hro, ringBytes_add, hro]
  congr 1
  · apply ringBytes_congr
    intro k hk
    rw [ringByte, hda]
    apply read_writeRing_outside
    intro i hi he
    rw [writeOffset_eq N ch hw hr, Nat.mod_add_mod, Nat.add_assoc] at he
    have := mod_add_inj N _ _ _ (by omega) (by omega) he
    omega
  · apply List.ext_getElem (by simp)
    intro i h1 h2
    rw [ringBytes_getElem, ringByte, hda]
    have := read_writeRing_inside N ch.data ch.writeOffset bs i hd (by omega) h2
    rw [List.getD_eq_getElem?_getD, List.getElem?_eq_getElem h2] at this
    rw [← Option.getD_some (a := bs[i]) (b := 0), ← this]
    congr 1
    conv_rhs => rw [writeOffset_eq N ch hw hr, Nat.mod_add_mod]

/-- An append keeps a channel's invariant. -/
theorem append_keeps (N : Nat) (ch ch' : Channel) (bs : List Byte) (hd : Memory.wf ch.data = true)
    (hb : Memory.below N ch.data = true) (hr : ch.readOffset < N) (h : appendBytes N ch bs = some ch') :
    Memory.wf ch'.data = true ∧ Memory.below N ch'.data = true ∧ ch'.writeOffset < N ∧ ch'.readOffset < N := by
  rcases appendBytes_cases N ch bs with ⟨_, h'⟩ | ⟨hlen, h'⟩
  · rw [h'] at h; cases h
  rw [h'] at h
  cases h
  exact ⟨writeRing_wf _ _ _ _ hd, writeRing_below _ (by omega) _ _ _ hb, Nat.mod_lt _ (by omega), hr⟩

/-- Consuming takes bytes from the front (R130). -/
theorem unread_advance (N : Nat) (ch : Channel) (n : Nat) (hw : ch.writeOffset < N) (hr : ch.readOffset < N)
    (hn : n ≤ occupied N ch) : unread N (advanceRead N ch n) = (unread N ch).drop n := by
  rw [unread, occupied_advance N ch (advanceRead N ch n) n hw hr hn rfl rfl]
  show ringBytes N (advanceRead N ch n) ((ch.readOffset + n) % N) _ = _
  rw [ringBytes_mod]
  have := ringBytes_region N ch ch.readOffset (occupied N ch) n (occupied N ch) hn (le_refl _)
  rw [List.take_of_length_le (by simp)] at this
  exact this

/-! ### Marker search (R125) -/

/-- A match of `m` at `i` in a byte string. -/
def matchesAt (bs m : List Byte) (i : Nat) : Prop := i + m.length ≤ bs.length ∧ (bs.drop i).take m.length = m

theorem ring_match_iff (N : Nat) (ch : Channel) (m : List Byte) (i : Nat) (h : i + m.length ≤ occupied N ch) :
    (ringBytes N ch (ch.readOffset + i) m.length == m) = true ↔ matchesAt (unread N ch) m i := by
  have := ringBytes_region N ch ch.readOffset (occupied N ch) i (i + m.length) (by omega) h
  rw [Nat.add_sub_cancel_left] at this
  rw [beq_iff_eq, this, matchesAt, unread_length, ← unread, List.drop_take, Nat.add_sub_cancel_left]
  exact ⟨fun e => ⟨h, e⟩, fun e => e.2⟩

/-- What the search can answer: the leftmost match at or after `start`, or that there is none. -/
theorem findMarker_cases (N : Nat) (ch : Channel) (m : List Byte) (start : Nat) :
    (∃ i, findMarker N ch m start = some (i + m.length) ∧ start ≤ i ∧ matchesAt (unread N ch) m i ∧
        ∀ j, start ≤ j → j < i → ¬matchesAt (unread N ch) m j) ∨
      (findMarker N ch m start = none ∧ ∀ i, start ≤ i → ¬matchesAt (unread N ch) m i) := by
  have hmem (i : Nat) : i ∈ markerStarts N ch m.length start ↔ start ≤ i ∧ i + m.length ≤ occupied N ch := by
    rw [markerStarts, List.mem_range'_1]; omega
  unfold findMarker
  cases hf : (markerStarts N ch m.length start).find? fun i => ringBytes N ch (ch.readOffset + i) m.length == m with
  | none =>
    right
    refine ⟨rfl, fun i hi hm => ?_⟩
    have hocc : i + m.length ≤ occupied N ch := by have := hm.1; rwa [unread_length] at this
    exact List.find?_eq_none.1 hf i ((hmem i).2 ⟨hi, hocc⟩) ((ring_match_iff N ch m i hocc).2 hm)
  | some i =>
    left
    have hi := (hmem i).1 (List.mem_of_find?_eq_some hf)
    refine ⟨i, rfl, hi.1, (ring_match_iff N ch m i hi.2).1 (List.find?_some (p := fun i => ringBytes N ch (ch.readOffset + i) m.length == m) hf), ?_⟩
    intro j hj hji hm
    have hocc : j + m.length ≤ occupied N ch := by have := hm.1; rwa [unread_length] at this
    obtain ⟨_, k, hk, hki, hbefore⟩ := List.find?_eq_some_iff_getElem.1 hf
    have hkval : (markerStarts N ch m.length start)[k] = start + k := by simp [markerStarts]
    have hjk : j - start < k := by omega
    have hjval : (markerStarts N ch m.length start)[j - start] = j := by
      simp only [markerStarts, List.getElem_range']; omega
    have := hbefore (j - start) hjk
    rw [hjval, (ring_match_iff N ch m j hocc).2 hm] at this
    cases this

/-- A match found ends within the unread bytes. -/
theorem findMarker_bounds (N : Nat) (ch : Channel) (m : List Byte) (start k : Nat) (h : findMarker N ch m start = some k) :
    start + m.length ≤ k ∧ k ≤ occupied N ch := by
  rcases findMarker_cases N ch m start with ⟨i, hi, h1, h2, _⟩ | ⟨hn, _⟩
  · rw [hi] at h
    cases h
    have := h2.1
    rw [unread_length] at this
    omega
  · rw [hn] at h; cases h

/-- In unread bytes `P ++ X ++ m ++ R`, the search for the 8-byte marker `m` from the end of `P` on ends after `X ++ m`,
if `m` starts nowhere in `X`. -/
theorem findMarker_split (N : Nat) (ch : Channel) (P X m R : List Byte) (hm : m.length = 8)
    (h : unread N ch = P ++ (X ++ m ++ R)) (hno : ∀ i, i < X.length → ((X ++ m).drop i).take 8 ≠ m) :
    findMarker N ch m P.length = some (P.length + X.length + 8) := by
  have hhit : matchesAt (unread N ch) m (P.length + X.length) := by
    refine ⟨by rw [h]; simp; omega, ?_⟩
    rw [h, ← List.drop_drop]
    simp [hm]
  have hno' : ∀ j, P.length ≤ j → j < P.length + X.length → ¬matchesAt (unread N ch) m j := by
    intro j h1 h2 hj
    obtain ⟨i, rfl⟩ := Nat.exists_eq_add_of_le h1
    have := hj.2
    rw [h, ← List.drop_drop, List.drop_left, hm, List.drop_append_of_le_length (l₁ := X ++ m) (by simp; omega),
      List.take_append_of_le_length (by simp; omega)] at this
    exact hno i (by omega) this
  rcases findMarker_cases N ch m P.length with ⟨i, hi, h1, h2, h3⟩ | ⟨hn, h1⟩
  · rw [hi, hm]
    rcases Nat.lt_trichotomy i (P.length + X.length) with hlt | heq | hgt
    · exact absurd h2 (hno' i h1 hlt)
    · rw [heq]
    · exact absurd hhit (h3 _ (by omega) hgt)
  · exact absurd hhit (h1 _ (by omega))

/-! ### The span of a frame (R154) -/

/-- The four searches succeed exactly where a span is found. -/
theorem findSpan_eq (N : Nat) (ch : Channel) :
    findSpan N ch =
      (findMarker N ch beforeSize 0).bind fun a1 => (findMarker N ch afterSize a1).bind fun a2 =>
        (findMarker N ch beforeChecksum a2).bind fun a3 => (findMarker N ch afterChecksum a3).map fun a4 =>
          ⟨a1, a2, a3, a4⟩ := by
  unfold findSpan seekAfterSize seekBeforeChecksum seekAfterChecksum
  cases findMarker N ch beforeSize 0 with
  | none => rfl
  | some a1 =>
    simp only [Option.bind_some]
    cases findMarker N ch afterSize a1 with
    | none => rfl
    | some a2 =>
      simp only [Option.bind_some]
      cases findMarker N ch beforeChecksum a2 with
      | none => rfl
      | some a3 =>
        simp only [Option.bind_some]
        cases findMarker N ch afterChecksum a3 <;> rfl

/-- A span is found where each marker is found after the one before it. -/
theorem findSpan_some (N : Nat) (ch : Channel) (sp : Span) :
    findSpan N ch = some sp ↔
      findMarker N ch beforeSize 0 = some sp.a1 ∧ findMarker N ch afterSize sp.a1 = some sp.a2 ∧
        findMarker N ch beforeChecksum sp.a2 = some sp.a3 ∧ findMarker N ch afterChecksum sp.a3 = some sp.a4 := by
  rw [findSpan_eq]
  simp only [Option.bind_eq_some_iff, Option.map_eq_some_iff]
  constructor
  · rintro ⟨a1, h1, a2, h2, a3, h3, a4, h4, rfl⟩
    exact ⟨h1, h2, h3, h4⟩
  · rintro ⟨h1, h2, h3, h4⟩
    exact ⟨_, h1, _, h2, _, h3, _, h4, rfl⟩

/-- The markers of a span do not overlap and lie within the unread bytes (R158). -/
theorem span_bounds (N : Nat) (ch : Channel) (sp : Span) (h : findSpan N ch = some sp) :
    8 ≤ sp.a1 ∧ sp.a1 + 8 ≤ sp.a2 ∧ sp.a2 + 8 ≤ sp.a3 ∧ sp.a3 + 8 ≤ sp.a4 ∧ sp.a4 ≤ occupied N ch := by
  obtain ⟨h1, h2, h3, h4⟩ := (findSpan_some N ch sp).1 h
  have b1 := findMarker_bounds _ _ _ _ _ h1
  have b2 := findMarker_bounds _ _ _ _ _ h2
  have b3 := findMarker_bounds _ _ _ _ _ h3
  have b4 := findMarker_bounds _ _ _ _ _ h4
  simp only [beforeSize, afterSize, beforeChecksum, afterChecksum, List.length_cons, List.length_nil] at b1 b2 b3 b4
  omega

/-- What counting a frame does to a channel: one telemetry counter, nothing else. -/
theorem countFrame_cases (ch : Channel) (e : FrameEnd) :
    (e = .ok ∧ countFrame ch e = { ch with validCount := ch.validCount + 1 }) ∨
      (e ≠ .ok ∧ countFrame ch e = { ch with invalidCount := ch.invalidCount + 1 }) := by
  unfold countFrame
  split
  · exact .inl ⟨‹_›, rfl⟩
  · exact .inr ⟨‹_›, rfl⟩

/-- A committed span keeps the RAM and the write offset, and moves the read offset past the span. -/
theorem committed_offsets (N : Nat) (ch : Channel) (sp : Span) (e : FrameEnd) :
    (countFrame (commitSpan N ch sp) e).data = ch.data ∧
      (countFrame (commitSpan N ch sp) e).writeOffset = ch.writeOffset ∧
      (countFrame (commitSpan N ch sp) e).readOffset = (ch.readOffset + sp.a4) % N ∧
      (countFrame (commitSpan N ch sp) e).disregardedCount = ch.disregardedCount + wrap32 (sp.a1 - 8) := by
  rcases countFrame_cases (commitSpan N ch sp) e with ⟨_, h⟩ | ⟨_, h⟩ <;> rw [h] <;> exact ⟨rfl, rfl, rfl, rfl⟩

end Sys2Proof.Machine
end

