-- ==== Sys2Proof/Laws/State.lean ====
section
/-! SUPPORT. The fields of State after each named update, true by rfl, and the units, cursors and ports read back from an
update. -/

namespace Sys2Proof.Machine

/-! ### setChannel -/

@[simp] theorem State.setChannel_params (s : State) (c : Nat) (ch : Channel) :
    (s.setChannel c ch).params = s.params := rfl
@[simp] theorem State.setChannel_channels (s : State) (c : Nat) (ch : Channel) :
    (s.setChannel c ch).channels = s.channels.set c ch := rfl
@[simp] theorem State.setChannel_image (s : State) (c : Nat) (ch : Channel) :
    (s.setChannel c ch).image = s.image := rfl
@[simp] theorem State.setChannel_scValid (s : State) (c : Nat) (ch : Channel) :
    (s.setChannel c ch).scValid = s.scValid := rfl
@[simp] theorem State.setChannel_readers (s : State) (c : Nat) (ch : Channel) :
    (s.setChannel c ch).readers = s.readers := rfl
@[simp] theorem State.setChannel_wop (s : State) (c : Nat) (ch : Channel) :
    (s.setChannel c ch).wop = s.wop := rfl
@[simp] theorem State.setChannel_events (s : State) (c : Nat) (ch : Channel) :
    (s.setChannel c ch).events = s.events := rfl
@[simp] theorem State.setChannel_ports (s : State) (c : Nat) (ch : Channel) :
    (s.setChannel c ch).ports = s.ports := rfl
@[simp] theorem State.setChannel_cur (s : State) (c : Nat) (ch : Channel) :
    (s.setChannel c ch).cur = s.cur := rfl
@[simp] theorem State.setChannel_writer (s : State) (c : Nat) (ch : Channel) :
    (s.setChannel c ch).writer = s.writer := rfl
@[simp] theorem State.setChannel_published (s : State) (c : Nat) (ch : Channel) :
    (s.setChannel c ch).published = s.published := rfl
@[simp] theorem State.setChannel_lags (s : State) (c : Nat) (ch : Channel) :
    (s.setChannel c ch).lags = s.lags := rfl
@[simp] theorem State.setChannel_turns (s : State) (c : Nat) (ch : Channel) :
    (s.setChannel c ch).turns = s.turns := rfl
@[simp] theorem State.setChannel_choices (s : State) (c : Nat) (ch : Channel) :
    (s.setChannel c ch).choices = s.choices := rfl

/-! ### setReader -/

@[simp] theorem State.setReader_params (s : State) (r : Nat) (rd : Reader) :
    (s.setReader r rd).params = s.params := rfl
@[simp] theorem State.setReader_channels (s : State) (r : Nat) (rd : Reader) :
    (s.setReader r rd).channels = s.channels := rfl
@[simp] theorem State.setReader_image (s : State) (r : Nat) (rd : Reader) :
    (s.setReader r rd).image = s.image := rfl
@[simp] theorem State.setReader_scValid (s : State) (r : Nat) (rd : Reader) :
    (s.setReader r rd).scValid = s.scValid := rfl
@[simp] theorem State.setReader_readers (s : State) (r : Nat) (rd : Reader) :
    (s.setReader r rd).readers = s.readers.set r rd := rfl
@[simp] theorem State.setReader_wop (s : State) (r : Nat) (rd : Reader) :
    (s.setReader r rd).wop = s.wop := rfl
@[simp] theorem State.setReader_events (s : State) (r : Nat) (rd : Reader) :
    (s.setReader r rd).events = s.events := rfl
@[simp] theorem State.setReader_ports (s : State) (r : Nat) (rd : Reader) :
    (s.setReader r rd).ports = s.ports := rfl
@[simp] theorem State.setReader_cur (s : State) (r : Nat) (rd : Reader) :
    (s.setReader r rd).cur = s.cur := rfl
@[simp] theorem State.setReader_writer (s : State) (r : Nat) (rd : Reader) :
    (s.setReader r rd).writer = s.writer := rfl
@[simp] theorem State.setReader_published (s : State) (r : Nat) (rd : Reader) :
    (s.setReader r rd).published = s.published := rfl
@[simp] theorem State.setReader_lags (s : State) (r : Nat) (rd : Reader) :
    (s.setReader r rd).lags = s.lags := rfl
@[simp] theorem State.setReader_turns (s : State) (r : Nat) (rd : Reader) :
    (s.setReader r rd).turns = s.turns := rfl
@[simp] theorem State.setReader_choices (s : State) (r : Nat) (rd : Reader) :
    (s.setReader r rd).choices = s.choices := rfl

/-! ### setPort -/

@[simp] theorem State.setPort_params (s : State) (a : Nat) (p : Port) :
    (s.setPort a p).params = s.params := rfl
@[simp] theorem State.setPort_channels (s : State) (a : Nat) (p : Port) :
    (s.setPort a p).channels = s.channels := rfl
@[simp] theorem State.setPort_image (s : State) (a : Nat) (p : Port) :
    (s.setPort a p).image = s.image := rfl
@[simp] theorem State.setPort_scValid (s : State) (a : Nat) (p : Port) :
    (s.setPort a p).scValid = s.scValid := rfl
@[simp] theorem State.setPort_readers (s : State) (a : Nat) (p : Port) :
    (s.setPort a p).readers = s.readers := rfl
@[simp] theorem State.setPort_wop (s : State) (a : Nat) (p : Port) :
    (s.setPort a p).wop = s.wop := rfl
@[simp] theorem State.setPort_events (s : State) (a : Nat) (p : Port) :
    (s.setPort a p).events = s.events := rfl
@[simp] theorem State.setPort_ports (s : State) (a : Nat) (p : Port) :
    (s.setPort a p).ports = s.ports.set a p := rfl
@[simp] theorem State.setPort_cur (s : State) (a : Nat) (p : Port) :
    (s.setPort a p).cur = s.cur := rfl
@[simp] theorem State.setPort_writer (s : State) (a : Nat) (p : Port) :
    (s.setPort a p).writer = s.writer := rfl
@[simp] theorem State.setPort_published (s : State) (a : Nat) (p : Port) :
    (s.setPort a p).published = s.published := rfl
@[simp] theorem State.setPort_lags (s : State) (a : Nat) (p : Port) :
    (s.setPort a p).lags = s.lags := rfl
@[simp] theorem State.setPort_turns (s : State) (a : Nat) (p : Port) :
    (s.setPort a p).turns = s.turns := rfl
@[simp] theorem State.setPort_choices (s : State) (a : Nat) (p : Port) :
    (s.setPort a p).choices = s.choices := rfl

/-! ### emit -/

@[simp] theorem State.emit_params (s : State) (e : Event) :
    (s.emit e).params = s.params := rfl
@[simp] theorem State.emit_channels (s : State) (e : Event) :
    (s.emit e).channels = s.channels := rfl
@[simp] theorem State.emit_image (s : State) (e : Event) :
    (s.emit e).image = s.image := rfl
@[simp] theorem State.emit_scValid (s : State) (e : Event) :
    (s.emit e).scValid = s.scValid := rfl
@[simp] theorem State.emit_readers (s : State) (e : Event) :
    (s.emit e).readers = s.readers := rfl
@[simp] theorem State.emit_wop (s : State) (e : Event) :
    (s.emit e).wop = s.wop := rfl
@[simp] theorem State.emit_events (s : State) (e : Event) :
    (s.emit e).events = s.events ++ [e] := rfl
@[simp] theorem State.emit_ports (s : State) (e : Event) :
    (s.emit e).ports = s.ports := rfl
@[simp] theorem State.emit_cur (s : State) (e : Event) :
    (s.emit e).cur = s.cur := rfl
@[simp] theorem State.emit_writer (s : State) (e : Event) :
    (s.emit e).writer = s.writer := rfl
@[simp] theorem State.emit_published (s : State) (e : Event) :
    (s.emit e).published = s.published := rfl
@[simp] theorem State.emit_lags (s : State) (e : Event) :
    (s.emit e).lags = s.lags := rfl
@[simp] theorem State.emit_turns (s : State) (e : Event) :
    (s.emit e).turns = s.turns := rfl
@[simp] theorem State.emit_choices (s : State) (e : Event) :
    (s.emit e).choices = s.choices := rfl

/-! ### endCommand -/

@[simp] theorem State.endCommand_params (s : State) (st : Status) (res : Results) :
    (s.endCommand st res).params = s.params := rfl
@[simp] theorem State.endCommand_channels (s : State) (st : Status) (res : Results) :
    (s.endCommand st res).channels = s.channels := rfl
@[simp] theorem State.endCommand_image (s : State) (st : Status) (res : Results) :
    (s.endCommand st res).image = s.image := rfl
@[simp] theorem State.endCommand_scValid (s : State) (st : Status) (res : Results) :
    (s.endCommand st res).scValid = s.scValid := rfl
@[simp] theorem State.endCommand_readers (s : State) (st : Status) (res : Results) :
    (s.endCommand st res).readers = s.readers := rfl
@[simp] theorem State.endCommand_wop (s : State) (st : Status) (res : Results) :
    (s.endCommand st res).wop = s.wop := rfl
@[simp] theorem State.endCommand_events (s : State) (st : Status) (res : Results) :
    (s.endCommand st res).events = s.events := rfl
@[simp] theorem State.endCommand_ports (s : State) (st : Status) (res : Results) :
    (s.endCommand st res).ports = s.ports.set s.cur ((s.port s.cur).finish st res) := rfl
@[simp] theorem State.endCommand_cur (s : State) (st : Status) (res : Results) :
    (s.endCommand st res).cur = s.cur := rfl
@[simp] theorem State.endCommand_writer (s : State) (st : Status) (res : Results) :
    (s.endCommand st res).writer = s.writer := rfl
@[simp] theorem State.endCommand_published (s : State) (st : Status) (res : Results) :
    (s.endCommand st res).published = s.published := rfl
@[simp] theorem State.endCommand_lags (s : State) (st : Status) (res : Results) :
    (s.endCommand st res).lags = s.lags := rfl
@[simp] theorem State.endCommand_turns (s : State) (st : Status) (res : Results) :
    (s.endCommand st res).turns = s.turns := rfl
@[simp] theorem State.endCommand_choices (s : State) (st : Status) (res : Results) :
    (s.endCommand st res).choices = s.choices := rfl

/-! ### present -/

@[simp] theorem State.present_params (s : State) (a : Nat) (cmd : Command) :
    (s.present a cmd).params = s.params := rfl
@[simp] theorem State.present_channels (s : State) (a : Nat) (cmd : Command) :
    (s.present a cmd).channels = s.channels := rfl
@[simp] theorem State.present_image (s : State) (a : Nat) (cmd : Command) :
    (s.present a cmd).image = s.image := rfl
@[simp] theorem State.present_scValid (s : State) (a : Nat) (cmd : Command) :
    (s.present a cmd).scValid = s.scValid := rfl
@[simp] theorem State.present_readers (s : State) (a : Nat) (cmd : Command) :
    (s.present a cmd).readers = s.readers := rfl
@[simp] theorem State.present_wop (s : State) (a : Nat) (cmd : Command) :
    (s.present a cmd).wop = s.wop := rfl
@[simp] theorem State.present_events (s : State) (a : Nat) (cmd : Command) :
    (s.present a cmd).events = s.events := rfl
@[simp] theorem State.present_ports (s : State) (a : Nat) (cmd : Command) :
    (s.present a cmd).ports = s.ports.set a { s.port a with arg0 := cmd.arg0, arg1 := cmd.arg1, din := cmd.din } := rfl
@[simp] theorem State.present_cur (s : State) (a : Nat) (cmd : Command) :
    (s.present a cmd).cur = a := rfl
@[simp] theorem State.present_writer (s : State) (a : Nat) (cmd : Command) :
    (s.present a cmd).writer = s.writer := rfl
@[simp] theorem State.present_published (s : State) (a : Nat) (cmd : Command) :
    (s.present a cmd).published = s.published := rfl
@[simp] theorem State.present_lags (s : State) (a : Nat) (cmd : Command) :
    (s.present a cmd).lags = s.lags := rfl
@[simp] theorem State.present_turns (s : State) (a : Nat) (cmd : Command) :
    (s.present a cmd).turns = s.turns := rfl
@[simp] theorem State.present_choices (s : State) (a : Nat) (cmd : Command) :
    (s.present a cmd).choices = s.choices := rfl

/-! ### runHostLine -/

@[simp] theorem State.runHostLine_params (s : State) (a : Nat) (line : Line) :
    (s.runHostLine a line).params = s.params := rfl
@[simp] theorem State.runHostLine_channels (s : State) (a : Nat) (line : Line) :
    (s.runHostLine a line).channels = s.channels := rfl
@[simp] theorem State.runHostLine_image (s : State) (a : Nat) (line : Line) :
    (s.runHostLine a line).image = s.image := rfl
@[simp] theorem State.runHostLine_scValid (s : State) (a : Nat) (line : Line) :
    (s.runHostLine a line).scValid = s.scValid := rfl
@[simp] theorem State.runHostLine_readers (s : State) (a : Nat) (line : Line) :
    (s.runHostLine a line).readers = s.readers := rfl
@[simp] theorem State.runHostLine_wop (s : State) (a : Nat) (line : Line) :
    (s.runHostLine a line).wop = s.wop := rfl
@[simp] theorem State.runHostLine_events (s : State) (a : Nat) (line : Line) :
    (s.runHostLine a line).events = s.events := rfl
@[simp] theorem State.runHostLine_ports (s : State) (a : Nat) (line : Line) :
    (s.runHostLine a line).ports = s.ports.set a { s.port a with pc := line.nextPc (s.port a) } := rfl
@[simp] theorem State.runHostLine_cur (s : State) (a : Nat) (line : Line) :
    (s.runHostLine a line).cur = s.cur := rfl
@[simp] theorem State.runHostLine_writer (s : State) (a : Nat) (line : Line) :
    (s.runHostLine a line).writer = s.writer := rfl
@[simp] theorem State.runHostLine_published (s : State) (a : Nat) (line : Line) :
    (s.runHostLine a line).published = s.published := rfl
@[simp] theorem State.runHostLine_lags (s : State) (a : Nat) (line : Line) :
    (s.runHostLine a line).lags = s.lags := rfl
@[simp] theorem State.runHostLine_turns (s : State) (a : Nat) (line : Line) :
    (s.runHostLine a line).turns = s.turns := rfl
@[simp] theorem State.runHostLine_choices (s : State) (a : Nat) (line : Line) :
    (s.runHostLine a line).choices = s.choices := rfl

/-! ### setLag -/

@[simp] theorem State.setLag_params (s : State) (r n : Nat) : (s.setLag r n).params = s.params := rfl
@[simp] theorem State.setLag_channels (s : State) (r n : Nat) : (s.setLag r n).channels = s.channels := rfl
@[simp] theorem State.setLag_image (s : State) (r n : Nat) : (s.setLag r n).image = s.image := rfl
@[simp] theorem State.setLag_scValid (s : State) (r n : Nat) : (s.setLag r n).scValid = s.scValid := rfl
@[simp] theorem State.setLag_readers (s : State) (r n : Nat) : (s.setLag r n).readers = s.readers := rfl
@[simp] theorem State.setLag_wop (s : State) (r n : Nat) : (s.setLag r n).wop = s.wop := rfl
@[simp] theorem State.setLag_events (s : State) (r n : Nat) : (s.setLag r n).events = s.events := rfl
@[simp] theorem State.setLag_ports (s : State) (r n : Nat) : (s.setLag r n).ports = s.ports := rfl
@[simp] theorem State.setLag_cur (s : State) (r n : Nat) : (s.setLag r n).cur = s.cur := rfl
@[simp] theorem State.setLag_writer (s : State) (r n : Nat) : (s.setLag r n).writer = s.writer := rfl
@[simp] theorem State.setLag_published (s : State) (r n : Nat) : (s.setLag r n).published = s.published := rfl
@[simp] theorem State.setLag_lags (s : State) (r n : Nat) : (s.setLag r n).lags = s.lags.set r ⟨n, 0⟩ := rfl
@[simp] theorem State.setLag_turns (s : State) (r n : Nat) : (s.setLag r n).turns = s.turns := rfl
@[simp] theorem State.setLag_choices (s : State) (r n : Nat) : (s.setLag r n).choices = s.choices := rfl
@[simp] theorem State.setLag_channel (s : State) (r n c : Nat) : (s.setLag r n).channel c = s.channel c := rfl
@[simp] theorem State.setLag_reader (s : State) (r n q : Nat) : (s.setLag r n).reader q = s.reader q := rfl
@[simp] theorem State.setLag_port (s : State) (r n a : Nat) : (s.setLag r n).port a = s.port a := rfl

/-! ### zeroCounter (BR_INIT) -/

@[simp] theorem zeroCounter_params (s : State) : (zeroCounter s).params = s.params := rfl
@[simp] theorem zeroCounter_channels (s : State) : (zeroCounter s).channels = s.channels := rfl
@[simp] theorem zeroCounter_image (s : State) : (zeroCounter s).image = writeWord s.image 0 0 := rfl
@[simp] theorem zeroCounter_scValid (s : State) : (zeroCounter s).scValid = true := rfl
@[simp] theorem zeroCounter_readers (s : State) : (zeroCounter s).readers = s.readers := rfl
@[simp] theorem zeroCounter_wop (s : State) : (zeroCounter s).wop = s.wop := rfl
@[simp] theorem zeroCounter_events (s : State) : (zeroCounter s).events = s.events := rfl
@[simp] theorem zeroCounter_ports (s : State) : (zeroCounter s).ports = s.ports := rfl
@[simp] theorem zeroCounter_cur (s : State) : (zeroCounter s).cur = s.cur := rfl
@[simp] theorem zeroCounter_writer (s : State) : (zeroCounter s).writer = s.writer := rfl
@[simp] theorem zeroCounter_published (s : State) : (zeroCounter s).published = 0 := rfl
@[simp] theorem zeroCounter_lags (s : State) : (zeroCounter s).lags = forgetLeft s.lags := rfl
@[simp] theorem zeroCounter_turns (s : State) : (zeroCounter s).turns = s.turns := rfl
@[simp] theorem zeroCounter_choices (s : State) : (zeroCounter s).choices = s.choices := rfl
@[simp] theorem zeroCounter_reader (s : State) (q : Nat) : (zeroCounter s).reader q = s.reader q := rfl
@[simp] theorem zeroCounter_channel (s : State) (c : Nat) : (zeroCounter s).channel c = s.channel c := rfl
@[simp] theorem zeroCounter_port (s : State) (a : Nat) : (zeroCounter s).port a = s.port a := rfl

/-! ### storeNext (E2) -/

@[simp] theorem storeNext_params (s : State) (sent : Word) : (storeNext s sent).params = s.params := rfl
@[simp] theorem storeNext_channels (s : State) (sent : Word) : (storeNext s sent).channels = s.channels := rfl
@[simp] theorem storeNext_image (s : State) (sent : Word) :
    (storeNext s sent).image = writeWord s.image 0 (sent + 1) := rfl
@[simp] theorem storeNext_scValid (s : State) (sent : Word) : (storeNext s sent).scValid = s.scValid := rfl
@[simp] theorem storeNext_readers (s : State) (sent : Word) : (storeNext s sent).readers = s.readers := rfl
@[simp] theorem storeNext_wop (s : State) (sent : Word) : (storeNext s sent).wop = .idle := rfl
@[simp] theorem storeNext_events (s : State) (sent : Word) : (storeNext s sent).events = s.events := rfl
@[simp] theorem storeNext_ports (s : State) (sent : Word) : (storeNext s sent).ports = s.ports := rfl
@[simp] theorem storeNext_cur (s : State) (sent : Word) : (storeNext s sent).cur = s.cur := rfl
@[simp] theorem storeNext_writer (s : State) (sent : Word) : (storeNext s sent).writer = s.writer := rfl
@[simp] theorem storeNext_published (s : State) (sent : Word) : (storeNext s sent).published = s.published + 1 := rfl
@[simp] theorem storeNext_lags (s : State) (sent : Word) : (storeNext s sent).lags = countEnqueue s.lags := rfl
@[simp] theorem storeNext_turns (s : State) (sent : Word) : (storeNext s sent).turns = s.turns := rfl
@[simp] theorem storeNext_choices (s : State) (sent : Word) : (storeNext s sent).choices = s.choices := rfl
@[simp] theorem storeNext_reader (s : State) (sent : Word) (q : Nat) : (storeNext s sent).reader q = s.reader q := rfl
@[simp] theorem storeNext_channel (s : State) (sent : Word) (c : Nat) : (storeNext s sent).channel c = s.channel c := rfl
@[simp] theorem storeNext_port (s : State) (sent : Word) (a : Nat) : (storeNext s sent).port a = s.port a := rfl

/-! ### zeroCursor (BR_RINIT) -/

@[simp] theorem zeroCursor_params (s : State) (r : Nat) : (zeroCursor s r).params = s.params := rfl
@[simp] theorem zeroCursor_channels (s : State) (r : Nat) : (zeroCursor s r).channels = s.channels := rfl
@[simp] theorem zeroCursor_image (s : State) (r : Nat) : (zeroCursor s r).image = s.image := rfl
@[simp] theorem zeroCursor_scValid (s : State) (r : Nat) : (zeroCursor s r).scValid = s.scValid := rfl
@[simp] theorem zeroCursor_readers (s : State) (r : Nat) :
    (zeroCursor s r).readers = s.readers.set r { s.reader r with numRecv := 0, valid := true, received := 0 } := rfl
@[simp] theorem zeroCursor_wop (s : State) (r : Nat) : (zeroCursor s r).wop = s.wop := rfl
@[simp] theorem zeroCursor_events (s : State) (r : Nat) : (zeroCursor s r).events = s.events := rfl
@[simp] theorem zeroCursor_ports (s : State) (r : Nat) : (zeroCursor s r).ports = s.ports := rfl
@[simp] theorem zeroCursor_cur (s : State) (r : Nat) : (zeroCursor s r).cur = s.cur := rfl
@[simp] theorem zeroCursor_writer (s : State) (r : Nat) : (zeroCursor s r).writer = s.writer := rfl
@[simp] theorem zeroCursor_published (s : State) (r : Nat) : (zeroCursor s r).published = s.published := rfl
@[simp] theorem zeroCursor_lags (s : State) (r : Nat) : (zeroCursor s r).lags = s.lags.set r ⟨s.published, 0⟩ := rfl
@[simp] theorem zeroCursor_turns (s : State) (r : Nat) : (zeroCursor s r).turns = s.turns := rfl
@[simp] theorem zeroCursor_choices (s : State) (r : Nat) : (zeroCursor s r).choices = s.choices := rfl
@[simp] theorem zeroCursor_channel (s : State) (r : Nat) (c : Nat) : (zeroCursor s r).channel c = s.channel c := rfl
@[simp] theorem zeroCursor_port (s : State) (r : Nat) (a : Nat) : (zeroCursor s r).port a = s.port a := rfl

/-! ### Lists read with a default -/

theorem getD_set_same {α : Type} (l : List α) (i : Nat) (x d : α) (h : i < l.length) : (l.set i x).getD i d = x := by
  simp [List.getD, h]

theorem getD_set_ne {α : Type} (l : List α) (i j : Nat) (x d : α) (h : j ≠ i) : (l.set i x).getD j d = l.getD j d := by
  simp [List.getD, List.getElem?_set_ne (Ne.symm h)]

theorem getD_mem {α : Type} (l : List α) (i : Nat) (d : α) (h : i < l.length) : l.getD i d ∈ l := by
  simp [List.getD, h]

/-! ### Units, cursors and ports -/

theorem State.channel_setChannel_same (s : State) (c : Nat) (ch : Channel) (h : c < s.channels.length) :
    (s.setChannel c ch).channel c = ch := getD_set_same _ _ _ _ h

theorem State.channel_setChannel_ne (s : State) (c d : Nat) (ch : Channel) (h : d ≠ c) :
    (s.setChannel c ch).channel d = s.channel d := getD_set_ne _ _ _ _ _ h

theorem State.reader_setReader_same (s : State) (r : Nat) (rd : Reader) (h : r < s.readers.length) :
    (s.setReader r rd).reader r = rd := getD_set_same _ _ _ _ h

theorem State.reader_setReader_ne (s : State) (r q : Nat) (rd : Reader) (h : q ≠ r) :
    (s.setReader r rd).reader q = s.reader q := getD_set_ne _ _ _ _ _ h

theorem State.port_setPort_same (s : State) (a : Nat) (p : Port) (h : a < s.ports.length) :
    (s.setPort a p).port a = p := getD_set_same _ _ _ _ h

theorem State.port_setPort_ne (s : State) (a b : Nat) (p : Port) (h : b ≠ a) :
    (s.setPort a p).port b = s.port b := getD_set_ne _ _ _ _ _ h

theorem State.lag_setLag_same (s : State) (r n : Nat) (h : r < s.lags.length) : (s.setLag r n).lag r = ⟨n, 0⟩ :=
  getD_set_same _ _ _ _ h

theorem State.lag_setLag_ne (s : State) (r q n : Nat) (h : q ≠ r) : (s.setLag r n).lag q = s.lag q :=
  getD_set_ne _ _ _ _ _ h

@[simp] theorem State.setChannel_lag (s : State) (c r : Nat) (ch : Channel) : (s.setChannel c ch).lag r = s.lag r := rfl
@[simp] theorem State.setReader_lag (s : State) (q r : Nat) (rd : Reader) : (s.setReader q rd).lag r = s.lag r := rfl
@[simp] theorem State.setPort_lag (s : State) (a r : Nat) (p : Port) : (s.setPort a p).lag r = s.lag r := rfl
@[simp] theorem State.emit_lag (s : State) (e : Event) (r : Nat) : (s.emit e).lag r = s.lag r := rfl
@[simp] theorem State.endCommand_lag (s : State) (st : Status) (res : Results) (r : Nat) :
    (s.endCommand st res).lag r = s.lag r := rfl
@[simp] theorem State.present_lag (s : State) (a r : Nat) (cmd : Command) : (s.present a cmd).lag r = s.lag r := rfl

@[simp] theorem State.setChannel_port (s : State) (c a : Nat) (ch : Channel) : (s.setChannel c ch).port a = s.port a := rfl
@[simp] theorem State.setReader_port (s : State) (r a : Nat) (rd : Reader) : (s.setReader r rd).port a = s.port a := rfl
@[simp] theorem State.emit_port (s : State) (e : Event) (a : Nat) : (s.emit e).port a = s.port a := rfl
@[simp] theorem State.setPort_channel (s : State) (a c : Nat) (p : Port) : (s.setPort a p).channel c = s.channel c := rfl
@[simp] theorem State.setPort_reader (s : State) (a r : Nat) (p : Port) : (s.setPort a p).reader r = s.reader r := rfl
@[simp] theorem State.setChannel_reader (s : State) (c r : Nat) (ch : Channel) :
    (s.setChannel c ch).reader r = s.reader r := rfl
@[simp] theorem State.setReader_channel (s : State) (r c : Nat) (rd : Reader) :
    (s.setReader r rd).channel c = s.channel c := rfl
@[simp] theorem State.emit_channel (s : State) (e : Event) (c : Nat) : (s.emit e).channel c = s.channel c := rfl
@[simp] theorem State.emit_reader (s : State) (e : Event) (r : Nat) : (s.emit e).reader r = s.reader r := rfl
@[simp] theorem State.endCommand_channel (s : State) (st : Status) (res : Results) (c : Nat) :
    (s.endCommand st res).channel c = s.channel c := rfl
@[simp] theorem State.endCommand_reader (s : State) (st : Status) (res : Results) (r : Nat) :
    (s.endCommand st res).reader r = s.reader r := rfl
@[simp] theorem State.present_channel (s : State) (a c : Nat) (cmd : Command) : (s.present a cmd).channel c = s.channel c := rfl
@[simp] theorem State.present_reader (s : State) (a r : Nat) (cmd : Command) : (s.present a cmd).reader r = s.reader r := rfl

theorem State.endCommand_port_same (s : State) (st : Status) (res : Results) (h : s.cur < s.ports.length) :
    (s.endCommand st res).port s.cur = (s.port s.cur).finish st res := State.port_setPort_same _ _ _ h

theorem State.endCommand_port_ne (s : State) (st : Status) (res : Results) (a : Nat) (h : a ≠ s.cur) :
    (s.endCommand st res).port a = s.port a := State.port_setPort_ne _ _ _ _ h

/-! ### Operands and counter -/

@[simp] theorem State.setChannel_sendCounter (s : State) (c : Nat) (ch : Channel) :
    (s.setChannel c ch).sendCounter = s.sendCounter := rfl
@[simp] theorem State.setReader_sendCounter (s : State) (r : Nat) (rd : Reader) :
    (s.setReader r rd).sendCounter = s.sendCounter := rfl
@[simp] theorem State.setLag_sendCounter (s : State) (r n : Nat) : (s.setLag r n).sendCounter = s.sendCounter := rfl
@[simp] theorem State.setPort_sendCounter (s : State) (a : Nat) (p : Port) : (s.setPort a p).sendCounter = s.sendCounter := rfl
@[simp] theorem State.emit_sendCounter (s : State) (e : Event) : (s.emit e).sendCounter = s.sendCounter := rfl
@[simp] theorem State.endCommand_sendCounter (s : State) (st : Status) (res : Results) :
    (s.endCommand st res).sendCounter = s.sendCounter := rfl
@[simp] theorem State.present_sendCounter (s : State) (a : Nat) (cmd : Command) :
    (s.present a cmd).sendCounter = s.sendCounter := rfl

theorem State.present_port (s : State) (a : Nat) (cmd : Command) (h : a < s.ports.length) :
    (s.present a cmd).port a = { s.port a with arg0 := cmd.arg0, arg1 := cmd.arg1, din := cmd.din } :=
  getD_set_same _ _ _ _ h

theorem State.present_arg0 (s : State) (a : Nat) (cmd : Command) (h : a < s.ports.length) :
    (s.present a cmd).arg0 = cmd.arg0 := by rw [State.arg0, State.present_cur, State.present_port s a cmd h]

theorem State.present_arg1 (s : State) (a : Nat) (cmd : Command) (h : a < s.ports.length) :
    (s.present a cmd).arg1 = cmd.arg1 := by rw [State.arg1, State.present_cur, State.present_port s a cmd h]

theorem State.present_din (s : State) (a : Nat) (cmd : Command) (h : a < s.ports.length) :
    (s.present a cmd).din = cmd.din := by rw [State.din, State.present_cur, State.present_port s a cmd h]

/-! ### The port of a finished command -/

@[simp] theorem Port.finish_status (p : Port) (st : Status) (res : Results) : (p.finish st res).status = st.number := rfl
@[simp] theorem Port.finish_code (p : Port) (st : Status) (res : Results) : (p.finish st res).code = res.code := rfl
@[simp] theorem Port.finish_val0 (p : Port) (st : Status) (res : Results) : (p.finish st res).val0 = res.val0 := rfl
@[simp] theorem Port.finish_val1 (p : Port) (st : Status) (res : Results) : (p.finish st res).val1 = res.val1 := rfl
@[simp] theorem Port.finish_dout (p : Port) (st : Status) (res : Results) : (p.finish st res).dout = res.dout := rfl
@[simp] theorem Port.finish_pc (p : Port) (st : Status) (res : Results) : (p.finish st res).pc = p.pc + 1 := rfl
@[simp] theorem Port.finish_program (p : Port) (st : Status) (res : Results) : (p.finish st res).program = p.program := rfl
@[simp] theorem Port.finish_arg0 (p : Port) (st : Status) (res : Results) : (p.finish st res).arg0 = p.arg0 := rfl
@[simp] theorem Port.finish_arg1 (p : Port) (st : Status) (res : Results) : (p.finish st res).arg1 = p.arg1 := rfl
@[simp] theorem Port.finish_din (p : Port) (st : Status) (res : Results) : (p.finish st res).din = p.din := rfl

end Sys2Proof.Machine
end

