-- ==== Sys2Proof/Laws/Ops.lean ====
section
/-! SUPPORT. Once for each shared operation: all it can do. -/

namespace Sys2Proof.Machine

/-! ### Ending a command -/

/-- Ending a command is the whole change: the executing port finished, everything else as it was. -/
theorem endCommand_endsWith (s : State) (st : Status) (res : Results) (h : s.cur < s.ports.length) :
    endsWith s (s.endCommand st res) st res ∧ sameBlock s (s.endCommand st res) :=
  ⟨⟨s.endCommand_port_same st res h, fun a ha => s.endCommand_port_ne st res a ha, by simp, rfl⟩,
    rfl, ⟨rfl, rfl, rfl, rfl, rfl, rfl, rfl⟩, rfl, rfl, rfl, rfl⟩

/-- The same from a state whose ports and executing port are those of `s`. -/
theorem endCommand_endsWith_of (s u : State) (st : Status) (res : Results) (h : s.cur < s.ports.length)
    (hp : u.ports = s.ports) (hc : u.cur = s.cur) : endsWith s (u.endCommand st res) st res := by
  have hport (a : Nat) : u.port a = s.port a := by rw [State.port, State.port, hp]
  have hu : u.cur < u.ports.length := by rw [hp, hc]; exact h
  refine ⟨?_, fun a ha => ?_, by simp [hp], hc⟩
  · rw [← hc, u.endCommand_port_same st res hu, hport]
  · rw [u.endCommand_port_ne st res a (by rw [hc]; exact ha), hport]

/-! ### The checks -/

theorem withChannel_ok (s : State) (c : Nat) (k : Channel → StepOutcome) (h : c < s.params.NCH) :
    s.withChannel c k = k (s.channel c) := if_neg (by omega)

theorem withChannel_bad (s : State) (c : Nat) (k : Channel → StepOutcome) (h : s.params.NCH ≤ c) :
    s.withChannel c k = .next (s.endCommand .badUnit {}) := if_pos h

theorem withReader_ok (s : State) (r : Nat) (k : Reader → StepOutcome) (h : r < s.params.NRD) :
    s.withReader r k = k (s.reader r) := if_neg (by omega)

theorem withReader_bad (s : State) (r : Nat) (k : Reader → StepOutcome) (h : s.params.NRD ≤ r) :
    s.withReader r k = .next (s.endCommand .badUnit {}) := if_pos h

theorem withDin_ok (s : State) (k : List Byte → StepOutcome) (h : s.din.length ≤ s.params.DIN_MAX) :
    s.withDin k = k s.din := if_neg (by omega)

theorem withDin_bad (s : State) (k : List Byte → StepOutcome) (h : s.params.DIN_MAX < s.din.length) :
    s.withDin k = .next (s.endCommand .badOperand {}) := if_pos h

/-- What the unit check of a channel command can do. -/
theorem withChannel_cases (s : State) (c : Nat) (k : Channel → StepOutcome) :
    (s.params.NCH ≤ c ∧ s.withChannel c k = .next (s.endCommand .badUnit {})) ∨
      (c < s.params.NCH ∧ s.withChannel c k = k (s.channel c)) := by
  by_cases h : s.params.NCH ≤ c
  · exact .inl ⟨h, withChannel_bad s c k h⟩
  · exact .inr ⟨by omega, withChannel_ok s c k (by omega)⟩

/-- What the unit check of a reader command can do. -/
theorem withReader_cases (s : State) (r : Nat) (k : Reader → StepOutcome) :
    (s.params.NRD ≤ r ∧ s.withReader r k = .next (s.endCommand .badUnit {})) ∨
      (r < s.params.NRD ∧ s.withReader r k = k (s.reader r)) := by
  by_cases h : s.params.NRD ≤ r
  · exact .inl ⟨h, withReader_bad s r k h⟩
  · exact .inr ⟨by omega, withReader_ok s r k (by omega)⟩

/-- What the DIN length check can do. -/
theorem withDin_cases (s : State) (k : List Byte → StepOutcome) :
    (s.params.DIN_MAX < s.din.length ∧ s.withDin k = .next (s.endCommand .badOperand {})) ∨
      (s.din.length ≤ s.params.DIN_MAX ∧ s.withDin k = k s.din) := by
  by_cases h : s.params.DIN_MAX < s.din.length
  · exact .inl ⟨h, withDin_bad s k h⟩
  · exact .inr ⟨by omega, withDin_ok s k (by omega)⟩

/-! ### The contract -/

theorem asWriter_ok (s : State) (k : State → StepOutcome) (h : s.writer = none ∨ s.writer = some s.cur) :
    s.asWriter k = k { s with writer := some s.cur } := if_pos h

theorem asReader_ok (s : State) (r : Nat) (k : State → StepOutcome)
    (h : (s.reader r).owner = none ∨ (s.reader r).owner = some s.cur) :
    s.asReader r k = k (s.setReader r { s.reader r with owner := some s.cur }) := if_pos h

/-- What the contract of the one writer can do (R258 item 1). -/
theorem asWriter_cases (s : State) (k : State → StepOutcome) :
    ((s.writer = none ∨ s.writer = some s.cur) ∧ s.asWriter k = k { s with writer := some s.cur }) ∨
      (∃ a, a ≠ s.cur ∧ s.writer = some a ∧ s.asWriter k = .refused .secondWriter) := by
  by_cases h : s.writer = none ∨ s.writer = some s.cur
  · exact .inl ⟨h, asWriter_ok s k h⟩
  · right
    rw [not_or] at h
    obtain ⟨a, ha⟩ := Option.ne_none_iff_exists'.1 h.1
    refine ⟨a, fun e => h.2 (e ▸ ha), ha, if_neg ?_⟩
    rw [not_or]
    exact h

/-- What the contract of a cursor can do (R258 item 2). -/
theorem asReader_cases (s : State) (r : Nat) (k : State → StepOutcome) :
    (((s.reader r).owner = none ∨ (s.reader r).owner = some s.cur) ∧
        s.asReader r k = k (s.setReader r { s.reader r with owner := some s.cur })) ∨
      (∃ a, a ≠ s.cur ∧ (s.reader r).owner = some a ∧ s.asReader r k = .refused (.sharedCursor r)) := by
  by_cases h : (s.reader r).owner = none ∨ (s.reader r).owner = some s.cur
  · exact .inl ⟨h, asReader_ok s r k h⟩
  · right
    rw [not_or] at h
    obtain ⟨a, ha⟩ := Option.ne_none_iff_exists'.1 h.1
    refine ⟨a, fun e => h.2 (e ▸ ha), ha, if_neg ?_⟩
    rw [not_or]
    exact h

/-! ### How far the writer is ahead -/

theorem tooFarAhead_iff (n : Nat) : tooFarAhead n = true ↔ 2 ^ 32 ≤ n := by simp [tooFarAhead]

theorem tooFarAhead_false (n : Nat) : tooFarAhead n = false ↔ n < 2 ^ 32 := by simp [tooFarAhead]

/-- A reader counts in `lapsReader` as soon as it is initialised and one enqueue short of the limit (R258 item 5). -/
theorem lapsReader_iff (s : State) :
    s.lapsReader = true ↔ ∃ r, r < s.readers.length ∧ (s.reader r).valid = true ∧ 2 ^ 32 ≤ (s.lag r).items + 1 := by
  simp [State.lapsReader, tooFarAhead]

@[simp] theorem countEnqueue_length (ls : List Lag) : (countEnqueue ls).length = ls.length := by simp [countEnqueue]

@[simp] theorem forgetLeft_length (ls : List Lag) : (forgetLeft ls).length = ls.length := by simp [forgetLeft]

/-- A publish puts the writer one item further ahead of every cursor. -/
theorem items_storeNext (s : State) (sent : Word) (r : Nat) (h : r < s.lags.length) :
    ((storeNext s sent).lag r).items = (s.lag r).items + 1 := by
  simp [storeNext, State.lag, countEnqueue, Lag.items, h]
  omega

/-- BR_INIT leaves of a lag the enqueues completed since the cursor was set (R277). -/
theorem items_zeroCounter (s : State) (r : Nat) : ((zeroCounter s).lag r).items = (s.lag r).since := by
  by_cases h : r < s.lags.length
  · simp [zeroCounter, State.lag, forgetLeft, Lag.items, h]
  · simp [zeroCounter, State.lag, forgetLeft, Lag.items, Lag.reset, List.getElem?_eq_none (Nat.le_of_not_lt h)]

/-! ### Slots -/

theorem mem_slotOffsets (p : Params) (i o : Nat) :
    o ∈ slotOffsets p i ↔ slotBase p i ≤ o ∧ o < slotBase p i + (4 + p.MAX) := by
  rw [slotOffsets, List.mem_range'_1]

theorem slotOffsets_nodup (p : Params) (i : Nat) : (slotOffsets p i).Nodup := List.nodup_range'

@[simp] theorem slotOffsets_length (p : Params) (i : Nat) : (slotOffsets p i).length = 4 + p.MAX := by
  simp [slotOffsets]

/-- Every byte of a slot of the ring lies in the image, past the counter. -/
theorem slot_within (p : Params) (i o : Nat) (hi : i < p.Q) (ho : o ∈ slotOffsets p i) : 4 ≤ o ∧ o < p.ringBytes := by
  rw [mem_slotOffsets, slotBase] at ho
  refine ⟨by omega, lt_of_lt_of_le ho.2 ?_⟩
  have : (i + 1) * (4 + p.MAX) ≤ p.Q * (4 + p.MAX) := Nat.mul_le_mul_right _ hi
  rw [Nat.add_mul, one_mul] at this
  rw [Params.ringBytes]
  omega

/-- Different slots share no byte. -/
theorem slots_disjoint (p : Params) (i j o : Nat) (hij : i ≠ j) (ho : o ∈ slotOffsets p i) : o ∉ slotOffsets p j := by
  rw [mem_slotOffsets, slotBase] at *
  rintro ⟨h1, h2⟩
  rcases Nat.lt_or_gt_of_ne hij with h | h
  · have : (i + 1) * (4 + p.MAX) ≤ j * (4 + p.MAX) := Nat.mul_le_mul_right _ h
    rw [Nat.add_mul, one_mul] at this
    omega
  · have : (j + 1) * (4 + p.MAX) ≤ i * (4 + p.MAX) := Nat.mul_le_mul_right _ h
    rw [Nat.add_mul, one_mul] at this
    omega

/-- The pending offset a choice names is pending. -/
theorem choosePending_mem (o : Nat) (os : List Nat) (pick : Nat) : choosePending o os pick ∈ o :: os :=
  getD_mem _ _ _ (Nat.mod_lt _ (by simp))

/-- Every pending offset is named by some choice. -/
theorem choosePending_surj (o : Nat) (os : List Nat) (q : Nat) (h : q ∈ o :: os) :
    ∃ pick, choosePending o os pick = q := by
  obtain ⟨n, hn, hq⟩ := List.getElem_of_mem h
  refine ⟨n, ?_⟩
  rw [choosePending, Nat.mod_eq_of_lt hn, List.getD_eq_getElem?_getD, List.getElem?_eq_getElem hn, hq]
  rfl

/-- The length and the payload of an item read back from its bytes (spec/20_memory.md R51, R52). -/
theorem wordOfBytes_itemBytes (len : Word) (payload : List Byte) : wordOfBytes (itemBytes len payload) = len :=
  word_of_bytes len

@[simp] theorem itemBytes_length (len : Word) (payload : List Byte) :
    (itemBytes len payload).length = 4 + payload.length := by simp [itemBytes]; omega

@[simp] theorem itemBytes_drop (len : Word) (payload : List Byte) : (itemBytes len payload).drop 4 = payload := by
  simp [itemBytes]

@[simp] theorem slotBytes_length (s : State) (i : Nat) : (s.slotBytes i).length = 4 + s.params.MAX := by
  simp [State.slotBytes]

/-- Byte `k` of a slot is the image byte `k` past the slot's base. -/
theorem slotBytes_getD (s : State) (i k : Nat) (hk : k < 4 + s.params.MAX) :
    (s.slotBytes i).getD k 0 = Memory.read s.image (slotBase s.params i + k) := by
  simp [State.slotBytes, slotOffsets, hk]

end Sys2Proof.Machine
end

