-- ==== Sys2Proof/Laws/Exec.lean ====
section
/-! SUPPORT. Once for every command and every later micro-step: all it can make of the machine. -/

namespace Sys2Proof.Machine

/-- A cursor taken by the executing port. -/
abbrev State.owning (s : State) (r : Nat) : State := s.setReader r { s.reader r with owner := some s.cur }

/-- The ways the first micro-step of a command can go on. -/
inductive ExecNext (i : Instr) (s t : State) : Prop where
  /-- The command ended with an error. -/
  | raised (st : Status) (h : st ≠ .done) (e : t = s.endCommand st {})
  /-- The command only reported. -/
  | reported (res : Results) (e : t = s.endCommand .done res)
  /-- A channel command replaced its unit, and may have emitted. -/
  | channel (c : Nat) (ch : Channel) (res : Results) (evs : List Event) (hi : i.channelUnit? = some c)
      (e : t = ({ s.setChannel c ch with events := evs }).endCommand .done res)
  /-- BR_INIT. -/
  | init (hi : i = .brInit) (hw : s.writer = none ∨ s.writer = some s.cur)
      (e : t = (zeroCounter { s with writer := some s.cur }).endCommand .done {})
  /-- E0 of BR_ENQ. -/
  | enq (hi : i = .brEnq) (hd : s.din.length = s.params.MAX) (hsc : s.scValid = true)
      (hw : s.writer = none ∨ s.writer = some s.cur)
      (e : t = { s with
        writer := some s.cur
        wop := .enq s.sendCounter s.arg0 s.din (slotOffsets s.params (s.sendCounter.toNat % s.params.Q)) })
  /-- BR_RINIT. -/
  | rinit (r : Nat) (hi : i = .brRinit r) (hr : r < s.params.NRD) (hl : s.published < 2 ^ 32)
      (ho : (s.reader r).owner = none ∨ (s.reader r).owner = some s.cur)
      (e : t = (zeroCursor (s.owning r) r).endCommand .done {})
  /-- BR_ISEMPTY. -/
  | owned (r : Nat) (res : Results) (hi : i = .brIsempty r) (hr : r < s.params.NRD)
      (ho : (s.reader r).owner = none ∨ (s.reader r).owner = some s.cur) (e : t = (s.owning r).endCommand .done res)
  /-- BR_DEQ with nothing unseen. -/
  | empty (r : Nat) (res : Results) (hi : i = .brDeq r) (hr : r < s.params.NRD)
      (ho : (s.reader r).owner = none ∨ (s.reader r).owner = some s.cur)
      (hun : s.sendCounter - (s.reader r).numRecv = 0) (e : t = ((s.owning r).setLag r 0).endCommand .done res)
  /-- D1 of BR_DEQ with an item to take. -/
  | deq (r : Nat) (hi : i = .brDeq r) (hr : r < s.params.NRD)
      (ho : (s.reader r).owner = none ∨ (s.reader r).owner = some s.cur) (hv : (s.reader r).valid = true)
      (hsc : s.scValid = true) (hne : s.sendCounter - (s.reader r).numRecv ≠ 0)
      (e : t = startCopy (s.owning r) r s.sendCounter (s.sendCounter - (s.reader r).numRecv))

/-- All a command's first micro-step can do, when it answers a next state. -/
theorem exec_next (i : Instr) (s t : State) (e : exec i s = .next t) : ExecNext i s t := by
  cases i with
  | cksum =>
    rw [exec, execCksum] at e
    rcases withDin_cases s _ with ⟨_, h'⟩ | ⟨_, h'⟩ <;> rw [h'] at e <;> cases e
    · exact .raised .badOperand (by simp) rfl
    · exact .reported _ rfl
  | regRead =>
    rw [exec, execRegRead] at e
    split at e <;> cases e
    · exact .raised .badOperand (by simp) rfl
    · exact .raised .uninitialized (by simp) rfl
    · exact .reported _ rfl
  | rbRemcap c =>
    rw [exec, execRbRemcap] at e
    rcases withChannel_cases s c _ with ⟨_, h'⟩ | ⟨_, h'⟩ <;> rw [h'] at e <;> cases e
    · exact .raised .badUnit (by simp) rfl
    · exact .reported _ rfl
  | rbAppend c =>
    rw [exec, execRbAppend] at e
    rcases withChannel_cases s c _ with ⟨_, h'⟩ | ⟨hc, h'⟩ <;> rw [h'] at e
    · cases e; exact .raised .badUnit (by simp) rfl
    · rcases withDin_cases s _ with ⟨_, h'⟩ | ⟨_, h'⟩ <;> rw [h'] at e
      · cases e; exact .raised .badOperand (by simp) rfl
      · split at e
        · cases e; exact .channel c _ _ s.events rfl rfl
        · cases e; exact .reported _ rfl
  | rbFind c =>
    rw [exec, execRbFind] at e
    rcases withChannel_cases s c _ with ⟨_, h'⟩ | ⟨_, h'⟩ <;> rw [h'] at e
    · cases e; exact .raised .badUnit (by simp) rfl
    · split at e
      · cases e; exact .raised .badOperand (by simp) rfl
      · split at e <;> cases e <;> exact .reported _ rfl
  | rbReaduint c auto =>
    rw [exec, execRbReaduint] at e
    rcases withChannel_cases s c _ with ⟨_, h'⟩ | ⟨_, h'⟩ <;> rw [h'] at e
    · cases e; exact .raised .badUnit (by simp) rfl
    · split at e
      · cases e; exact .raised .badOperand (by simp) rfl
      · split at e <;> cases e <;> exact .reported _ rfl
  | rbAdvance c =>
    rw [exec, execRbAdvance] at e
    rcases withChannel_cases s c _ with ⟨_, h'⟩ | ⟨hc, h'⟩ <;> rw [h'] at e
    · cases e; exact .raised .badUnit (by simp) rfl
    · split at e
      · cases e; exact .raised .badOperand (by simp) rfl
      · cases e; exact .channel c _ _ s.events rfl rfl
  | frAppend c =>
    rw [exec, execFrAppend] at e
    rcases withChannel_cases s c _ with ⟨_, h'⟩ | ⟨hc, h'⟩ <;> rw [h'] at e
    · cases e; exact .raised .badUnit (by simp) rfl
    · rcases withDin_cases s _ with ⟨_, h'⟩ | ⟨_, h'⟩ <;> rw [h'] at e
      · cases e; exact .raised .badOperand (by simp) rfl
      · split at e
        · cases e; exact .channel c _ _ (s.events ++ [.frameAppended c]) rfl rfl
        · cases e; exact .reported _ rfl
  | frScan c =>
    rw [exec, execFrScan] at e
    rcases withChannel_cases s c _ with ⟨_, h'⟩ | ⟨hc, h'⟩ <;> rw [h'] at e
    · cases e; exact .raised .badUnit (by simp) rfl
    · split at e
      · cases e; exact .reported _ rfl
      · split at e
        cases e; exact .channel c _ _ s.events rfl rfl
  | brInit =>
    rw [exec, execBrInit] at e
    rcases asWriter_cases s (fun s => (zeroCounter s).done {}) with
      ⟨hw, h'⟩ | ⟨a, _, _, h'⟩ <;> rw [h'] at e <;> cases e
    exact .init rfl hw rfl
  | brEnq =>
    rw [exec, execBrEnq] at e
    split at e
    · cases e; exact .raised .badOperand (by simp) rfl
    · rename_i hd
      split at e
      · cases e; exact .raised .uninitialized (by simp) rfl
      · rename_i hsc
        rcases asWriter_cases s (fun s => .next { s with
          wop := .enq s.sendCounter s.arg0 s.din (slotOffsets s.params (s.sendCounter.toNat % s.params.Q)) }) with
          ⟨hw, h'⟩ | ⟨a, _, _, h'⟩ <;> rw [h'] at e <;> cases e
        exact .enq rfl (not_not.1 hd) (by simpa using hsc) hw rfl
  | brRinit r =>
    rw [exec, execBrRinit] at e
    rcases withReader_cases s r _ with ⟨_, h'⟩ | ⟨hr, h'⟩
    · rw [h'] at e; cases e; exact .raised .badUnit (by simp) rfl
    · rw [h'] at e
      rcases asReader_cases s r _ with ⟨ho, h''⟩ | ⟨a, _, _, h''⟩
      · rw [h''] at e
        simp only at e
        split at e <;> cases e
        rename_i hl
        exact .rinit r rfl hr ((tooFarAhead_false _).1 (by simpa using hl)) ho rfl
      · rw [h''] at e; cases e
  | brDeq r =>
    rw [exec, execBrDeq] at e
    rcases withReader_cases s r _ with ⟨_, h'⟩ | ⟨hr, h'⟩
    · rw [h'] at e; cases e; exact .raised .badUnit (by simp) rfl
    · rw [h'] at e
      split at e
      · cases e; exact .raised .uninitialized (by simp) rfl
      · rename_i hv
        rw [not_or] at hv
        rcases asReader_cases s r _ with ⟨ho, h''⟩ | ⟨a, _, _, h''⟩
        · rw [h''] at e
          simp only at e
          split at e <;> cases e
          · exact .empty r _ rfl hr ho ‹_› rfl
          · rename_i hne
            exact .deq r rfl hr ho (by simpa using hv.1) (by simpa using hv.2) hne rfl
        · rw [h''] at e; cases e
  | brIsempty r =>
    rw [exec, execBrIsempty] at e
    rcases withReader_cases s r _ with ⟨_, h'⟩ | ⟨hr, h'⟩
    · rw [h'] at e; cases e; exact .raised .badUnit (by simp) rfl
    · rw [h'] at e
      split at e
      · cases e; exact .raised .uninitialized (by simp) rfl
      · rcases asReader_cases s r _ with ⟨ho, h''⟩ | ⟨a, _, _, h''⟩
        · rw [h''] at e; cases e; exact .owned r _ rfl hr ho rfl
        · rw [h''] at e; cases e

/-- The ways the first micro-step of a command can be refused (spec/60_exceptions.md R258). -/
inductive ExecRefused (i : Instr) (s : State) (e : Refusal) : Prop where
  /-- Item 1: another agent is the writer. -/
  | writer (a : Nat) (hi : i = .brInit ∨ i = .brEnq) (ha : s.writer = some a) (hne : a ≠ s.cur) (he : e = .secondWriter)
  /-- Item 2: another agent uses the cursor. -/
  | cursor (r a : Nat) (hi : i = .brRinit r ∨ i = .brDeq r ∨ i = .brIsempty r) (ha : (s.reader r).owner = some a)
      (hne : a ≠ s.cur) (he : e = .sharedCursor r)
  /-- Item 5: the writer is 2^32 items past 0. -/
  | lapped (r : Nat) (hi : i = .brRinit r) (hp : 2 ^ 32 ≤ s.published) (he : e = .counterLapped)

/-- All the ways a command's first micro-step can be refused. -/
theorem exec_refused (i : Instr) (s : State) (e : Refusal) (h : exec i s = .refused e) : ExecRefused i s e := by
  cases i with
  | cksum =>
    rw [exec, execCksum] at h
    rcases withDin_cases s _ with ⟨_, h'⟩ | ⟨_, h'⟩ <;> rw [h'] at h <;> cases h
  | regRead =>
    rw [exec, execRegRead] at h
    split at h <;> cases h
  | rbRemcap c =>
    rw [exec, execRbRemcap] at h
    rcases withChannel_cases s c _ with ⟨_, h'⟩ | ⟨_, h'⟩ <;> rw [h'] at h <;> cases h
  | rbAppend c =>
    rw [exec, execRbAppend] at h
    rcases withChannel_cases s c _ with ⟨_, h'⟩ | ⟨_, h'⟩ <;> rw [h'] at h
    · cases h
    · rcases withDin_cases s _ with ⟨_, h'⟩ | ⟨_, h'⟩ <;> rw [h'] at h
      · cases h
      · split at h <;> cases h
  | rbFind c =>
    rw [exec, execRbFind] at h
    rcases withChannel_cases s c _ with ⟨_, h'⟩ | ⟨_, h'⟩ <;> rw [h'] at h
    · cases h
    · split at h
      · cases h
      · split at h <;> cases h
  | rbReaduint c auto =>
    rw [exec, execRbReaduint] at h
    rcases withChannel_cases s c _ with ⟨_, h'⟩ | ⟨_, h'⟩ <;> rw [h'] at h
    · cases h
    · split at h
      · cases h
      · split at h <;> cases h
  | rbAdvance c =>
    rw [exec, execRbAdvance] at h
    rcases withChannel_cases s c _ with ⟨_, h'⟩ | ⟨_, h'⟩ <;> rw [h'] at h
    · cases h
    · split at h <;> cases h
  | frAppend c =>
    rw [exec, execFrAppend] at h
    rcases withChannel_cases s c _ with ⟨_, h'⟩ | ⟨_, h'⟩ <;> rw [h'] at h
    · cases h
    · rcases withDin_cases s _ with ⟨_, h'⟩ | ⟨_, h'⟩ <;> rw [h'] at h
      · cases h
      · split at h <;> cases h
  | frScan c =>
    rw [exec, execFrScan] at h
    rcases withChannel_cases s c _ with ⟨_, h'⟩ | ⟨_, h'⟩ <;> rw [h'] at h
    · cases h
    · split at h
      · cases h
      · split at h
        cases h
  | brInit =>
    rw [exec, execBrInit] at h
    rcases asWriter_cases s (fun s => (zeroCounter s).done {}) with ⟨_, h'⟩ | ⟨a, hne, ha, h'⟩ <;> rw [h'] at h <;> cases h
    exact .writer a (.inl rfl) ha hne rfl
  | brEnq =>
    rw [exec, execBrEnq] at h
    split at h
    · cases h
    · split at h
      · cases h
      · rcases asWriter_cases s (fun s => .next { s with
          wop := .enq s.sendCounter s.arg0 s.din (slotOffsets s.params (s.sendCounter.toNat % s.params.Q)) }) with
          ⟨_, h'⟩ | ⟨a, hne, ha, h'⟩ <;> rw [h'] at h <;> cases h
        exact .writer a (.inr rfl) ha hne rfl
  | brRinit r =>
    rw [exec, execBrRinit] at h
    rcases withReader_cases s r _ with ⟨_, h'⟩ | ⟨_, h'⟩ <;> rw [h'] at h
    · cases h
    · rcases asReader_cases s r _ with ⟨_, h''⟩ | ⟨a, hne, ha, h''⟩ <;> rw [h''] at h
      · simp only at h
        split at h <;> cases h
        rename_i hp
        exact .lapped r rfl ((tooFarAhead_iff _).1 hp) rfl
      · cases h
        exact .cursor r a (.inl rfl) ha hne rfl
  | brDeq r =>
    rw [exec, execBrDeq] at h
    rcases withReader_cases s r _ with ⟨_, h'⟩ | ⟨_, h'⟩ <;> rw [h'] at h
    · cases h
    · split at h
      · cases h
      · rcases asReader_cases s r _ with ⟨_, h''⟩ | ⟨a, hne, ha, h''⟩ <;> rw [h''] at h
        · simp only at h
          split at h <;> cases h
        · cases h
          exact .cursor r a (.inr (.inl rfl)) ha hne rfl
  | brIsempty r =>
    rw [exec, execBrIsempty] at h
    rcases withReader_cases s r _ with ⟨_, h'⟩ | ⟨_, h'⟩ <;> rw [h'] at h
    · cases h
    · split at h
      · cases h
      · rcases asReader_cases s r _ with ⟨_, h''⟩ | ⟨a, hne, ha, h''⟩ <;> rw [h''] at h <;> cases h
        exact .cursor r a (.inr (.inr rfl)) ha hne rfl

/-- The ways a later micro-step of BR_ENQ can go on. -/
inductive EnqNext (s t : State) : Prop where
  | idle (h : s.wop = .idle) (e : t = s)
  /-- E1 at offset `q`. -/
  | byte (sent len : Word) (payload : List Byte) (pending : List Nat) (q : Nat)
      (h : s.wop = .enq sent len payload pending) (hq : q ∈ pending) (hin : q < s.params.ringBytes)
      (e : t = { s with
        image := Memory.write s.image q (itemByteAt (slotBase s.params (sent.toNat % s.params.Q)) len payload q)
        wop := .enq sent len payload (pending.erase q) })
  /-- E2. -/
  | published (sent len : Word) (payload : List Byte) (h : s.wop = .enq sent len payload [])
      (hl : s.lapsReader = false) (e : t = ((storeNext s sent).emit .itemEnqueued).endCommand .done {})

/-- All a later micro-step of BR_ENQ can do, when it answers a next state. -/
theorem enqStep_next (s t : State) (pick : Nat) (e : enqStep s pick = .next t) : EnqNext s t := by
  rw [enqStep] at e
  split at e
  · cases e; exact .idle ‹_› rfl
  · rw [publishItem] at e
    split at e <;> cases e
    rename_i hl
    exact .published _ _ _ ‹_› (by simpa using hl) rfl
  · rw [writeSlotByte] at e
    split at e <;> cases e
    exact .byte _ _ _ _ _ ‹_› (choosePending_mem _ _ _) ‹_› rfl

/-- A later micro-step of BR_ENQ is refused only at E2, where it would lap a reader (R258 item 5). -/
theorem enqStep_refused (s : State) (pick : Nat) (e : Refusal) (h : enqStep s pick = .refused e) :
    e = .counterLapped ∧ (∃ sent len payload, s.wop = .enq sent len payload []) ∧ s.lapsReader = true := by
  rw [enqStep] at h
  split at h
  · cases h
  · rename_i hw
    rw [publishItem] at h
    split at h <;> cases h
    exact ⟨rfl, ⟨_, _, _, hw⟩, ‹_›⟩
  · rw [writeSlotByte] at h
    split at h <;> cases h

/-- The ways a later micro-step of BR_DEQ on cursor `r` can go on. -/
inductive DeqNext (s t : State) (r : Nat) : Prop where
  | idle (h : (s.reader r).rop = .idle) (e : t = s)
  /-- D2 at offset `q`. -/
  | byte (sent dropped idx : Word) (copy : List (Option Byte)) (pending : List Nat) (q : Nat)
      (h : (s.reader r).rop = .deq sent dropped idx copy pending) (hq : q ∈ pending) (hin : q < s.params.ringBytes)
      (e : t = s.setReader r { s.reader r with
        rop := .deq sent dropped idx (copy.set (q - slotBase s.params idx.toNat) (some (Memory.read s.image q)))
          (pending.erase q) })
  /-- D3 and D4. -/
  | finished (sent dropped idx : Word) (copy : List (Option Byte))
      (h : (s.reader r).rop = .deq sent dropped idx copy []) (e : .next t = finishCopy s r dropped copy)

/-- All a later micro-step of BR_DEQ can do, when it answers a next state. -/
theorem deqStep_next (s t : State) (r pick : Nat) (e : deqStep s r pick = .next t) : DeqNext s t r := by
  rw [deqStep] at e
  split at e
  · cases e; exact .idle ‹_› rfl
  · exact .finished _ _ _ _ ‹_› e.symm
  · rw [copySlotByte] at e
    split at e <;> cases e
    exact .byte _ _ _ _ _ _ ‹_› (choosePending_mem _ _ _) ‹_› rfl

/-- A later micro-step of BR_DEQ is never refused. -/
theorem deqStep_refused (s : State) (r pick : Nat) (e : Refusal) : deqStep s r pick ≠ .refused e := by
  intro h
  rw [deqStep] at h
  split at h
  · cases h
  · cases h
  · rw [copySlotByte] at h
    split at h <;> cases h

end Sys2Proof.Machine
end

