-- ==== Sys2Proof/Laws/Schedule.lean ====
section
/-! SUPPORT. Who moves: what `inFlight` and `takeTurn` can answer, and what each kind of turn makes of a step. -/

namespace Sys2Proof.Machine

theorem enqueuing_iff (s : State) (a : Nat) : s.enqueuing a = true ↔ s.writer = some a ∧ s.wop ≠ .idle := by
  simp [State.enqueuing]

theorem dequeuing_iff (rd : Reader) (a : Nat) : rd.dequeuing a = true ↔ rd.owner = some a ∧ rd.rop ≠ .idle := by
  simp [Reader.dequeuing]

/-- An enqueue in flight is the writer's. -/
theorem inFlight_enq (s : State) (a : Nat) (h : s.inFlight a = .enq) : s.writer = some a ∧ s.wop ≠ .idle := by
  rw [State.inFlight] at h
  split at h
  · rename_i h'; exact (enqueuing_iff s a).1 h'
  · split at h <;> cases h

/-- A dequeue in flight is on a cursor of its port. -/
theorem inFlight_deq (s : State) (a r : Nat) (h : s.inFlight a = .deq r) :
    r < s.readers.length ∧ (s.reader r).owner = some a ∧ (s.reader r).rop ≠ .idle := by
  rw [State.inFlight] at h
  split at h
  · cases h
  · split at h
    · rename_i q hq
      cases h
      obtain ⟨hlt, hp, _⟩ := List.findIdx?_eq_some_iff_getElem.1 hq
      refine ⟨hlt, ?_⟩
      rw [State.reader, List.getD_eq_getElem?_getD, List.getElem?_eq_getElem hlt]
      exact (dequeuing_iff _ a).1 hp
    · cases h

/-- A port with nothing in flight has neither the enqueue nor any dequeue. -/
theorem inFlight_nothing (s : State) (a : Nat) (h : s.inFlight a = .nothing) :
    (s.writer = some a → s.wop = .idle) ∧ (∀ r, (s.reader r).owner = some a → (s.reader r).rop = .idle) := by
  rw [State.inFlight] at h
  split at h
  · cases h
  · rename_i h1
    split at h
    · cases h
    · rename_i h2
      refine ⟨fun hw => by_contra fun hn => h1 ((enqueuing_iff s a).2 ⟨hw, hn⟩), fun r ho => ?_⟩
      by_cases hr : r < s.readers.length
      · have := List.findIdx?_eq_none_iff.1 h2 (s.reader r) (getD_mem _ _ _ hr)
        by_contra hn
        rw [(dequeuing_iff _ a).2 ⟨ho, hn⟩] at this
        cases this
      · rw [State.reader, List.getD_eq_getElem?_getD, List.getElem?_eq_none (by omega)] at ho ⊢
        rfl

/-- A line to run belongs to a port that exists. -/
theorem nextLine_port (s : State) (a : Nat) (line : Line) (h : s.nextLine a = some line) : a < s.ports.length := by
  by_contra hn
  have hp : s.port a = Port.reset := by
    rw [State.port, List.getD_eq_getElem?_getD, List.getElem?_eq_none (Nat.le_of_not_lt hn)]
    rfl
  rw [State.nextLine, hp] at h
  simp [Port.reset] at h

/-- The agents among which a free choice is made. -/
theorem mem_active (s : State) (a : Nat) : a ∈ s.active ↔ a < s.ports.length ∧ s.canAct a = true := by
  simp [State.active]

/-- A free choice falls on an agent that can act. -/
theorem chooseAgent_mem (s : State) (a : Nat) (as : List Nat) (h : s.active = a :: as) :
    s.chooseAgent a as ∈ s.active := by
  unfold State.chooseAgent
  split
  · rename_i hk
    have ha := ((mem_active s a).1 (h ▸ List.mem_cons_self)).1
    exact (mem_active s _).2 ⟨Nat.mod_lt _ (by omega), by simp [State.canAct, hk.2]⟩
  · rw [h]
    exact getD_mem _ _ _ (Nat.mod_lt _ (by simp))

/-- A kept turn goes to its port where that has a command in flight. -/
theorem chooseAgent_kept (s : State) (a : Nat) (as : List Nat) (hk : s.turnKept = true)
    (hf : s.inFlight s.keptPort ≠ .nothing) : s.chooseAgent a as = s.keptPort := if_pos ⟨hk, hf⟩

/-- What the next turn can be, and what it leaves of the state. -/
theorem takeTurn_cases (s : State) :
    (∃ t ts, s.turns = t :: ts ∧ s.takeTurn = (t, { s with turns := ts })) ∨
      (s.turns = [] ∧ s.active = [] ∧ s.takeTurn = (.idle, s)) ∨
      (s.turns = [] ∧ ∃ a pick, a ∈ s.active ∧
        s.takeTurn = (.agent a pick, { s with choices := s.nextChoices })) := by
  unfold State.takeTurn
  split
  · rename_i t ts h; exact .inl ⟨t, ts, h, rfl⟩
  · rename_i h
    right
    split
    · rename_i ha; exact .inl ⟨h, ha, rfl⟩
    · rename_i a as ha
      exact .inr ⟨h, _, _, chooseAgent_mem s a as ha, rfl⟩

/-- One step, by the turn it takes: `u` is the state less the turn (or less one free choice). -/
theorem step_cases (s : State) (o : StepOutcome) (h : step s = o) :
    ∃ (u : State) (t : Turn), takeMove t u = o ∧
      ((∃ ts, s.turns = t :: ts ∧ u = { s with turns := ts }) ∨ (s.turns = [] ∧ t = .idle ∧ u = s) ∨
        (s.turns = [] ∧ (∃ a pick, t = .agent a pick ∧ a ∈ s.active) ∧ u = { s with choices := s.nextChoices })) := by
  unfold step at h
  rcases takeTurn_cases s with ⟨t, ts, h1, h2⟩ | ⟨h1, h2, h3⟩ | ⟨h1, a, pick, h2, h3⟩
  · rw [h2] at h
    exact ⟨_, t, h, .inl ⟨ts, h1, rfl⟩⟩
  · rw [h3] at h
    exact ⟨_, _, h, .inr (.inl ⟨h1, rfl, rfl⟩)⟩
  · rw [h3] at h
    exact ⟨_, _, h, .inr (.inr ⟨h1, ⟨a, pick, rfl, h2⟩, rfl⟩)⟩

/-- A step by its turn: `u` is the state less the turn or less one free choice, in which every agent is where it was. -/
theorem step_turn (s : State) :
    ∃ u : State, step s = takeMove s.takeTurn.1 u ∧
      (∃ ts n, u = { s with turns := ts, choices := n }) ∧
      (s.takeTurn.1 = .reset → ∃ ts, s.turns = .reset :: ts) := by
  rcases takeTurn_cases s with ⟨t, ts, h1, h2⟩ | ⟨h1, h2, h3⟩ | ⟨h1, a, pick, h2, h3⟩
  · refine ⟨s.takeTurn.2, rfl, ⟨ts, s.choices, by rw [h2]⟩, fun h => ⟨ts, ?_⟩⟩
    rw [h2] at h
    rw [h1, ← h]
  · exact ⟨s.takeTurn.2, rfl, ⟨s.turns, s.choices, by rw [h3]⟩, fun h => by rw [h3] at h; cases h⟩
  · exact ⟨s.takeTurn.2, rfl, ⟨s.turns, s.nextChoices, by rw [h3]⟩, fun h => by rw [h3] at h; cases h⟩

/-- What a move of an agent can be. -/
theorem moveAgent_cases (s : State) (a pick : Nat) :
    (s.inFlight a = .enq ∧ moveAgent s a pick = enqStep { s with cur := a } pick) ∨
      (∃ r, s.inFlight a = .deq r ∧ moveAgent s a pick = deqStep { s with cur := a } r pick) ∨
      (s.inFlight a = .nothing ∧ moveAgent s a pick = runLine s a) := by
  unfold moveAgent
  split
  · rename_i h; exact .inl ⟨h, rfl⟩
  · rename_i r h; exact .inr (.inl ⟨r, h, rfl⟩)
  · rename_i h; exact .inr (.inr ⟨h, rfl⟩)

/-- What running the next line can be. -/
theorem runLine_cases (s : State) (a : Nat) :
    (s.nextLine a = none ∧ runLine s a = .next s) ∨
      (∃ cmd i, s.nextLine a = some (.command cmd) ∧ decode cmd.word = .instr i ∧
        runLine s a = exec i (s.present a cmd)) ∨
      (∃ cmd why, s.nextLine a = some (.command cmd) ∧ decode cmd.word = .illegal why ∧
        runLine s a = .next ((s.present a cmd).endCommand .illegalCommand {})) ∨
      (∃ line, s.nextLine a = some line ∧ (∀ cmd, line ≠ .command cmd) ∧ runLine s a = .next (s.runHostLine a line)) := by
  unfold runLine
  split
  · rename_i h; exact .inl ⟨h, rfl⟩
  · rename_i cmd h
    right
    unfold issue
    cases hd : decode cmd.word with
    | instr i => exact .inl ⟨cmd, i, h, hd, rfl⟩
    | illegal why => exact .inr (.inl ⟨cmd, why, h, hd, rfl⟩)
  · rename_i k t h; exact .inr (.inr (.inr ⟨_, h, by simp, rfl⟩))
  · rename_i k t h; exact .inr (.inr (.inr ⟨_, h, by simp, rfl⟩))
  · rename_i k t h; exact .inr (.inr (.inr ⟨_, h, by simp, rfl⟩))
  · rename_i h; exact .inr (.inr (.inr ⟨_, h, by simp, rfl⟩))

/-- One agent moves at a time. -/
theorem moves_unique (s : State) (a b : Nat) (ha : s.moves a) (hb : s.moves b) : a = b := by
  obtain ⟨_, ha⟩ := ha
  obtain ⟨_, hb⟩ := hb
  rw [ha] at hb
  cases hb
  rfl

/-- What a port has in flight, by the enqueue and the cursors that are its. -/
theorem inFlight_congr (s t : State) (a : Nat) (h1 : t.enqueuing a = s.enqueuing a)
    (h2 : t.readers.map (·.dequeuing a) = s.readers.map (·.dequeuing a)) : t.inFlight a = s.inFlight a := by
  have hf : ∀ l : List Reader, l.findIdx? (·.dequeuing a) = (l.map (·.dequeuing a)).findIdx? id := fun l => by
    rw [List.findIdx?_map]; rfl
  rw [State.inFlight, State.inFlight, h1, hf, hf, h2]

/-- The ways a step from `s` to the outcome `o` can go: `u` is the state less the turn or less one free choice. -/
inductive StepKind (s : State) (o : StepOutcome) : Prop where
  /-- Nobody moved, or an agent with nothing left. -/
  | idle (ts : List Turn) (n : Choices) (hn : ∀ a, s.moves a → s.inFlight a = .nothing) (e : o = .next { s with turns := ts, choices := n })
  /-- The reset input. -/
  | reset (ts : List Turn) (n : Choices) (ht : ∃ us, s.turns = .reset :: us)
      (e : o = .next (State.applyReset { s with turns := ts, choices := n }))
  /-- The enqueue in flight goes on. -/
  | enq (ts : List Turn) (n : Choices) (a pick : Nat) (hm : s.moves a) (hf : s.inFlight a = .enq)
      (e : enqStep { s with turns := ts, choices := n, cur := a } pick = o)
  /-- A dequeue in flight goes on. -/
  | deq (ts : List Turn) (n : Choices) (a r pick : Nat) (hm : s.moves a) (hf : s.inFlight a = .deq r)
      (e : deqStep { s with turns := ts, choices := n, cur := a } r pick = o)
  /-- An agent issues a command. -/
  | command (ts : List Turn) (n : Choices) (a : Nat) (cmd : Command) (i : Instr) (hi : s.issues a i) (hc : s.nextLine a = some (.command cmd))
      (hd : decode cmd.word = .instr i) (e : exec i (State.present { s with turns := ts, choices := n } a cmd) = o)
  /-- An agent issues an illegal word. -/
  | illegal (ts : List Turn) (n : Choices) (a : Nat) (cmd : Command) (why : IllegalReason) (hm : s.moves a)
      (hf : s.inFlight a = .nothing) (hc : s.nextLine a = some (.command cmd)) (hd : decode cmd.word = .illegal why)
      (e : o = .next ((State.present { s with turns := ts, choices := n } a cmd).endCommand .illegalCommand {}))
  /-- An agent runs a line of the host notation. -/
  | host (ts : List Turn) (n : Choices) (a : Nat) (line : Line) (hm : s.moves a) (hf : s.inFlight a = .nothing)
      (hc : s.nextLine a = some line) (e : o = .next (State.runHostLine { s with turns := ts, choices := n } a line))

/-- Every step is one of these. -/
theorem step_kind (s : State) (o : StepOutcome) (h : step s = o) : StepKind s o := by
  obtain ⟨u, h1, ⟨ts, n, rfl⟩, h3⟩ := step_turn s
  rw [h1] at h
  cases ht : s.takeTurn.1 with
  | reset => rw [ht] at h; exact .reset ts n (h3 ht) h.symm
  | idle => rw [ht] at h; exact .idle ts n (fun a ⟨_, ha⟩ => by rw [ht] at ha; cases ha) h.symm
  | agent a pick =>
    have hm : s.moves a := ⟨pick, ht⟩
    rw [ht, takeMove] at h
    rcases moveAgent_cases { s with turns := ts, choices := n } a pick with ⟨hf, h'⟩ | ⟨r, hf, h'⟩ | ⟨hf, h'⟩ <;>
      rw [h'] at h
    · exact .enq ts n a pick hm hf h
    · exact .deq ts n a r pick hm hf h
    · rcases runLine_cases { s with turns := ts, choices := n } a with
        ⟨_, h'⟩ | ⟨cmd, i, hc, hd, h'⟩ | ⟨cmd, why, hc, hd, h'⟩ | ⟨line, hc, _, h'⟩ <;> rw [h'] at h
      · exact .idle ts n (fun b hb => moves_unique s a b hm hb ▸ hf) h.symm
      · exact .command ts n a cmd i ⟨hm, hf, cmd, hc, hd⟩ hc hd h
      · exact .illegal ts n a cmd why hm hf hc hd h.symm
      · exact .host ts n a line hm hf hc h.symm

end Sys2Proof.Machine
end

