-- ==== Sys2Proof/Laws/Flight.lean ====
section
/-! SUPPORT. A command in flight: what the step of another agent leaves of it, and what its own agent's move makes of
it. -/

namespace Sys2Proof.Machine

/-- What port `a` has in flight is the same in `t` as in `s`. -/
structure SameFlight (s t : State) (a : Nat) : Prop where
  inFlight : t.inFlight a = s.inFlight a
  wop : s.inFlight a = .enq → t.wop = s.wop
  reader : ∀ r, s.inFlight a = .deq r → t.reader r = s.reader r

/-- The micro-steps left of a command in flight before its last: its pending bytes. -/
def State.pendingCount (s : State) (a : Nat) : Nat :=
  match s.inFlight a with
  | .nothing => 0
  | .enq => match s.wop with
    | .idle => 0
    | .enq _ _ _ pending => pending.length
  | .deq r => match (s.reader r).rop with
    | .idle => 0
    | .deq _ _ _ _ pending => pending.length

theorem SameFlight.pendingCount {s t : State} {a : Nat} (h : SameFlight s t a) :
    t.pendingCount a = s.pendingCount a := by
  unfold State.pendingCount
  rw [h.inFlight]
  cases hf : s.inFlight a with
  | nothing => rfl
  | enq => simp only [h.wop hf]
  | deq r => simp only [h.reader r hf]

/-- The same enqueue, the same cursors. -/
theorem SameFlight.of_same {s t : State} (a : Nat) (h1 : t.wop = s.wop) (h2 : t.writer = s.writer)
    (h3 : t.readers = s.readers) : SameFlight s t a where
  inFlight := inFlight_congr s t a (by rw [State.enqueuing, State.enqueuing, h1, h2]) (by rw [h3])
  wop := fun _ => h1
  reader := fun r _ => by rw [State.reader, State.reader, h3]

/-- The enqueue was and is another's. -/
theorem SameFlight.of_writer {s t : State} (a b : Nat) (hab : a ≠ b)
    (h1 : s.writer = none ∨ s.writer = some b) (h2 : t.writer = some b) (h3 : t.readers = s.readers) :
    SameFlight s t a := by
  have hs : s.enqueuing a = false := by
    rw [Bool.eq_false_iff, Ne, enqueuing_iff]
    rintro ⟨hw, _⟩
    rw [hw] at h1
    rcases h1 with h1 | h1 <;> cases h1
    exact hab rfl
  have ht : t.enqueuing a = false := by
    rw [Bool.eq_false_iff, Ne, enqueuing_iff]
    rintro ⟨hw, _⟩
    rw [h2] at hw
    cases hw
    exact hab rfl
  refine ⟨inFlight_congr s t a (by rw [hs, ht]) (by rw [h3]), fun hf => ?_, fun r _ => by
    rw [State.reader, State.reader, h3]⟩
  exact absurd (inFlight_enq s a hf).1 (by
    intro hw
    rw [hw] at h1
    rcases h1 with h1 | h1 <;> cases h1
    exact hab rfl)

/-- The cursor that changed was and is another's. -/
theorem SameFlight.of_reader {s t : State} (a b r : Nat) {rd : Reader} (hab : a ≠ b)
    (h1 : (s.reader r).owner = none ∨ (s.reader r).owner = some b) (h3 : t.readers = s.readers.set r rd)
    (h2 : rd.owner = some b) (h4 : t.wop = s.wop) (h5 : t.writer = s.writer) : SameFlight s t a := by
  have hs : (s.reader r).owner ≠ some a := by
    intro ho
    rw [ho] at h1
    rcases h1 with h1 | h1 <;> cases h1
    exact hab rfl
  have ht : rd.dequeuing a = false := by
    rw [Bool.eq_false_iff, Ne, dequeuing_iff]
    rintro ⟨ho, _⟩
    rw [h2] at ho
    cases ho
    exact hab rfl
  refine ⟨inFlight_congr s t a (by rw [State.enqueuing, State.enqueuing, h4, h5]) ?_, fun _ => h4, fun q hq => ?_⟩
  · rw [h3, List.map_set, ht]
    by_cases hr : r < s.readers.length
    · have : (s.readers.map (·.dequeuing a))[r]'(by simpa using hr) = false := by
        rw [List.getElem_map, Bool.eq_false_iff, Ne, dequeuing_iff]
        rintro ⟨ho, _⟩
        exact hs (by rw [State.reader, List.getD_eq_getElem _ _ hr]; exact ho)
      rw [← this, List.set_getElem_self]
    · rw [List.set_eq_of_length_le (by simpa using Nat.le_of_not_lt hr)]
  · have hqr : q ≠ r := by
      rintro rfl
      exact hs (inFlight_deq s a q hq).2.1
    have : t.reader q = (s.setReader r rd).reader q := by rw [State.reader, State.reader, h3]; rfl
    rw [this, State.reader_setReader_ne _ _ _ _ hqr]

/-- A step in which another agent moves, or nobody, leaves what a port has in flight, unless it is a reset. -/
theorem step_other (s t : State) (a : Nat) (e : step s = .next t) (hm : ¬s.moves a)
    (hr : ∀ ts, s.turns ≠ .reset :: ts) : SameFlight s t a := by
  cases step_kind s _ e with
  | idle _ _ _ e => cases e; exact .of_same a rfl rfl rfl
  | reset _ _ h _ => obtain ⟨ts, h⟩ := h; exact absurd h (hr ts)
  | enq ts n b pick hb hf he =>
    have hab : a ≠ b := by rintro rfl; exact hm hb
    have hw := (inFlight_enq s b hf).1
    cases enqStep_next _ _ _ he with
    | idle _ e => subst e; exact .of_same a rfl rfl rfl
    | byte _ _ _ _ _ _ _ _ e => subst e; exact .of_writer a b hab (.inr hw) hw rfl
    | published _ _ _ _ _ e => subst e; exact .of_writer a b hab (.inr hw) hw rfl
  | deq ts n b r pick hb hf he =>
    have hab : a ≠ b := by rintro rfl; exact hm hb
    have ho := (inFlight_deq s b r hf).2.1
    cases deqStep_next _ _ _ _ he with
    | idle _ e => subst e; exact .of_same a rfl rfl rfl
    | byte _ _ _ _ _ _ _ _ _ e => subst e; exact .of_reader a b r hab (.inr ho) rfl ho rfl rfl
    | finished _ _ _ _ _ e => rw [finishCopy] at e; cases e; exact .of_reader a b r hab (.inr ho) rfl ho rfl rfl
  | illegal _ _ _ _ _ _ _ _ _ e => cases e; exact .of_same a rfl rfl rfl
  | host _ _ _ _ _ _ _ e => cases e; exact .of_same a rfl rfl rfl
  | command ts n b cmd i hi hc hd he =>
    have hab : a ≠ b := by rintro rfl; exact hm hi.1
    let w : State := State.present { s with turns := ts, choices := n } b cmd
    have again : ∀ (r : Nat) (v : State) (rd : Reader), (s.reader r).owner = none ∨ (s.reader r).owner = some b →
        v.readers = ((w.owning r).setReader r rd).readers →
        rd.owner = ((w.owning r).reader r).owner →
        v.wop = s.wop → v.writer = s.writer → SameFlight s v a := by
      intro r v rd ho h1 hrd h2 h3
      by_cases hr : r < s.readers.length
      · have ho' := congrArg Reader.owner (State.reader_setReader_same w r { s.reader r with owner := some b } hr)
        exact .of_reader a b r hab ho (h1.trans (List.set_set ..)) (hrd.trans ho') h2 h3
      · exact .of_same a h2 h3
          (h1.trans ((List.set_set ..).trans (List.set_eq_of_length_le (Nat.le_of_not_lt hr))))
    cases exec_next i _ _ he with
    | raised _ _ e => subst e; exact .of_same a rfl rfl rfl
    | reported _ e => subst e; exact .of_same a rfl rfl rfl
    | channel _ _ _ _ _ e => subst e; exact .of_same a rfl rfl rfl
    | init _ hw e => subst e; exact .of_writer a b hab hw rfl rfl
    | enq _ _ _ hw e => subst e; exact .of_writer a b hab hw rfl rfl
    | rinit r _ _ _ ho e =>
      subst e
      exact again r _ _ ho rfl rfl rfl rfl
    | owned r _ _ _ ho e => subst e; exact .of_reader a b r hab ho rfl rfl rfl rfl
    | empty r _ _ _ ho _ e => subst e; exact .of_reader a b r hab ho rfl rfl rfl rfl
    | deq r _ _ ho _ _ _ e =>
      subst e
      exact again r _ _ ho rfl rfl rfl rfl

/-- The move of the agent of a command in flight ends that command or leaves fewer of its bytes pending. -/
theorem step_own (s t : State) (a : Nat) (e : step s = .next t) (hm : s.moves a) (hf : s.inFlight a ≠ .nothing) :
    t.inFlight a ≠ s.inFlight a ∨ t.pendingCount a < s.pendingCount a := by
  by_cases hsame : t.inFlight a = s.inFlight a
  swap
  · exact .inl hsame
  right
  cases step_kind s _ e with
  | idle _ _ hn _ => exact absurd (hn a hm) hf
  | reset _ _ h _ =>
    obtain ⟨ts, h⟩ := h
    obtain ⟨pick, hm⟩ := hm
    rw [State.takeTurn, h] at hm
    cases hm
  | enq ts n b pick hb hfb he =>
    obtain rfl := moves_unique s a b hm hb
    rw [State.pendingCount, State.pendingCount, hsame, hfb]
    cases enqStep_next _ _ _ he with
    | idle h e => exact absurd h (inFlight_enq s a hfb).2
    | byte sent len payload pending q hw hq _ e =>
      subst e
      have hw : s.wop = .enq sent len payload pending := hw
      simp only [hw, List.length_erase_of_mem hq]
      exact Nat.sub_lt (List.length_pos_of_mem hq) (by omega)
    | published _ _ _ _ _ e =>
      subst e
      exact absurd rfl (inFlight_enq _ a (hsame.trans hfb)).2
  | deq ts n b r pick hb hfb he =>
    obtain rfl := moves_unique s a b hm hb
    obtain ⟨hr, _, hop⟩ := inFlight_deq s a r hfb
    rw [State.pendingCount, State.pendingCount, hsame, hfb]
    cases deqStep_next _ _ _ _ he with
    | idle h e => exact absurd h hop
    | byte sent dropped idx copy pending q hw hq _ e =>
      have hw : (s.reader r).rop = .deq sent dropped idx copy pending := hw
      have ht := (congrArg (fun u : State => (u.reader r).rop) e).trans
        (congrArg Reader.rop (State.reader_setReader_same { s with turns := ts, choices := n, cur := a } r _ hr))
      dsimp only at ht
      simp only [hw, ht, List.length_erase_of_mem hq]
      exact Nat.sub_lt (List.length_pos_of_mem hq) (by omega)
    | finished _ _ _ _ _ e =>
      rw [finishCopy] at e
      cases e
      refine absurd ?_ (inFlight_deq _ a r (hsame.trans hfb)).2.2
      exact congrArg Reader.rop (State.reader_setReader_same { s with turns := ts, choices := n, cur := a } r
        { s.reader r with rop := .idle } hr)
  | command ts n b cmd i hi hc hd he => exact absurd (moves_unique s a b hm hi.1 ▸ hi.2.1) hf
  | illegal ts n b cmd why hb hfb _ _ _ => exact absurd (moves_unique s a b hm hb ▸ hfb) hf
  | host ts n b line hb hfb _ _ => exact absurd (moves_unique s a b hm hb ▸ hfb) hf

/-! ## A move draws on no later turn and no free choice -/

theorem enqStep_turns (s t : State) (pick : Nat) (e : enqStep s pick = .next t) :
    t.turns = s.turns ∧ t.choices = s.choices := by
  cases enqStep_next _ _ _ e with
  | idle _ e => subst e; exact ⟨rfl, rfl⟩
  | byte _ _ _ _ _ _ _ _ e => subst e; exact ⟨rfl, rfl⟩
  | published _ _ _ _ _ e => subst e; exact ⟨rfl, rfl⟩

theorem deqStep_turns (s t : State) (r pick : Nat) (e : deqStep s r pick = .next t) :
    t.turns = s.turns ∧ t.choices = s.choices := by
  cases deqStep_next _ _ _ _ e with
  | idle _ e => subst e; exact ⟨rfl, rfl⟩
  | byte _ _ _ _ _ _ _ _ _ e => subst e; exact ⟨rfl, rfl⟩
  | finished _ _ _ _ _ e => rw [finishCopy] at e; cases e; exact ⟨rfl, rfl⟩

theorem exec_turns (i : Instr) (s t : State) (e : exec i s = .next t) :
    t.turns = s.turns ∧ t.choices = s.choices := by
  cases exec_next i _ _ e with
  | raised _ _ e => subst e; exact ⟨rfl, rfl⟩
  | reported _ e => subst e; exact ⟨rfl, rfl⟩
  | channel _ _ _ _ _ e => subst e; exact ⟨rfl, rfl⟩
  | init _ _ e => subst e; exact ⟨rfl, rfl⟩
  | enq _ _ _ _ e => subst e; exact ⟨rfl, rfl⟩
  | rinit _ _ _ _ _ e => subst e; exact ⟨rfl, rfl⟩
  | owned _ _ _ _ _ e => subst e; exact ⟨rfl, rfl⟩
  | empty _ _ _ _ _ _ e => subst e; exact ⟨rfl, rfl⟩
  | deq _ _ _ _ _ _ _ e => subst e; exact ⟨rfl, rfl⟩

/-- What a move of an agent leaves of the interleaving: all of it. -/
theorem moveAgent_turns (s t : State) (a pick : Nat) (e : moveAgent s a pick = .next t) :
    t.turns = s.turns ∧ t.choices = s.choices := by
  rcases moveAgent_cases s a pick with ⟨_, h⟩ | ⟨r, _, h⟩ | ⟨_, h⟩ <;> rw [h] at e
  · exact enqStep_turns { s with cur := a } _ _ e
  · exact deqStep_turns { s with cur := a } _ _ _ e
  · rcases runLine_cases s a with ⟨_, h⟩ | ⟨_, _, _, _, h⟩ | ⟨_, _, _, _, h⟩ | ⟨_, _, _, h⟩ <;> rw [h] at e
    · cases e; exact ⟨rfl, rfl⟩
    · exact exec_turns _ (s.present a _) _ e
    · cases e; exact ⟨rfl, rfl⟩
    · cases e; exact ⟨rfl, rfl⟩

end Sys2Proof.Machine
end

