-- ==== Sys2Proof/Laws/Invariant.lean ====
section
/-! SUPPORT. The invariant taken apart, and what each shared update needs to keep it. -/

namespace Sys2Proof.Machine

/-- The parts of the invariant. -/
structure InvParts (s : State) : Prop where
  params : s.params.valid = true
  channels_length : s.channels.length = s.params.NCH
  channels : ∀ ch ∈ s.channels, ch.inv s.params.N = true
  image_wf : Memory.wf s.image = true
  image_below : Memory.below s.params.ringBytes s.image = true
  readers_length : s.readers.length = s.params.NRD
  readers : ∀ rd ∈ s.readers, rd.inv s = true
  ports_length : s.ports.length = 1 + s.params.NRD + s.params.NUSER
  cur : s.cur < s.ports.length
  writer_port : ∀ a, s.writer = some a → a < s.ports.length
  counter : s.scValid = true → s.sendCounter = wrap32 s.published
  uncounted : s.scValid = false → s.published = 0
  writer : s.writerInv = true
  lags_length : s.lags.length = s.params.NRD
  lags : ∀ r, r < s.params.NRD → (s.reader r).valid = true → (s.lag r).items < 2 ^ 32

theorem inv_iff (s : State) : s.inv = true ↔ InvParts s := by
  have opt (o : Option Nat) (n : Nat) : o.all (fun a => decide (a < n)) = true ↔ ∀ a, o = some a → a < n := by
    cases o <;> simp
  have lag (r : Nat) : (!(s.reader r).valid || !tooFarAhead (s.lag r).items) = true ↔
      ((s.reader r).valid = true → (s.lag r).items < 2 ^ 32) := by
    rw [← tooFarAhead_false]
    cases (s.reader r).valid <;> simp
  constructor
  · intro h
    simp only [State.inv, Bool.and_eq_true, decide_eq_true_eq, List.all_eq_true, opt, List.mem_range, lag] at h
    obtain ⟨⟨⟨⟨⟨⟨⟨⟨⟨⟨⟨⟨⟨h1, h2⟩, h3⟩, h4⟩, h5⟩, h6⟩, h7⟩, h8⟩, h9⟩, h10⟩, h11⟩, h12⟩, h13⟩, h14⟩ := h
    refine ⟨h1, h2, h3, h4, h5, h6, h7, h8, h9, h10, fun hv => ?_, fun hv => ?_, h12, h13, h14⟩
    · simpa [hv] using h11
    · simpa [hv] using h11
  · intro h
    simp only [State.inv, Bool.and_eq_true, decide_eq_true_eq, List.all_eq_true, opt, List.mem_range, lag]
    refine ⟨⟨⟨⟨⟨⟨⟨⟨⟨⟨⟨⟨⟨h.params, h.channels_length⟩, h.channels⟩, h.image_wf⟩, h.image_below⟩, h.readers_length⟩,
      h.readers⟩, h.ports_length⟩, h.cur⟩, h.writer_port⟩, ?_⟩, h.writer⟩, h.lags_length⟩, h.lags⟩
    cases hv : s.scValid
    · simpa using h.uncounted hv
    · simpa using h.counter hv

/-- The parts of the parameters' constraints (spec/00_scope.md R5). -/
structure ParamsParts (p : Params) : Prop where
  N_low : 2 ≤ p.N
  N_high : p.N ≤ 2 ^ 31
  Q_low : 2 ≤ p.Q
  Q_high : p.Q ≤ 2 ^ 31
  Q_power : p.Q = 2 ^ Nat.log2 p.Q
  MAX_high : p.MAX ≤ 2 ^ 16
  NCH_low : 1 ≤ p.NCH
  NCH_high : p.NCH ≤ 256
  NRD_low : 1 ≤ p.NRD
  NRD_high : p.NRD ≤ 256
  DIN_low : p.MAX ≤ p.DIN_MAX
  DIN_high : p.DIN_MAX ≤ 2 ^ 32 - 1
  ring : cellsWithin 0 p.N p.RING_INIT = true
  slot : cellsWithin 4 p.ringBytes p.SLOT_INIT = true

theorem Params.valid_parts (p : Params) (h : p.valid = true) : ParamsParts p := by
  simp only [Params.valid, Bool.and_eq_true, decide_eq_true_eq] at h
  obtain ⟨⟨⟨⟨⟨⟨⟨⟨⟨⟨⟨⟨⟨h1, h2⟩, h3⟩, h4⟩, h5⟩, h6⟩, h7⟩, h8⟩, h9⟩, h10⟩, h11⟩, h12⟩, h13⟩, h14⟩ := h
  exact ⟨h1, h2, h3, h4, h5, h6, h7, h8, h9, h10, h11, h12, h13, h14⟩

/-- `Q` divides 2^32 (spec/00_scope.md R6). -/
theorem ParamsParts.Q_dvd {p : Params} (h : ParamsParts p) : p.Q ∣ 2 ^ 32 := by
  rw [h.Q_power]
  apply pow_dvd_pow
  have h1 := h.Q_high
  rw [h.Q_power] at h1
  by_contra hn
  have := Nat.pow_lt_pow_right (show 1 < 2 by omega) (show 32 < Nat.log2 p.Q by omega)
  omega

theorem Params.ringBytes_ge (p : Params) : 4 ≤ p.ringBytes := Nat.le_add_right _ _

/-- The parts of a channel unit's invariant. -/
theorem Channel.inv_iff (N : Nat) (ch : Channel) :
    ch.inv N = true ↔ Memory.wf ch.data = true ∧ Memory.below N ch.data = true ∧ ch.writeOffset < N ∧ ch.readOffset < N := by
  simp [Channel.inv, and_assoc]

/-- The parts of a cursor's invariant. -/
structure ReaderParts (s : State) (rd : Reader) : Prop where
  numRecv : rd.valid = true → rd.numRecv = wrap32 rd.received
  used : rd.rop ≠ .idle → rd.valid = true ∧ s.scValid = true ∧ rd.owner.isSome = true
  owner_port : ∀ a, rd.owner = some a → a < s.ports.length
  rop : rd.rop.inv s.params rd.numRecv = true

theorem Reader.inv_iff (s : State) (rd : Reader) : rd.inv s = true ↔ ReaderParts s rd := by
  have opt (o : Option Nat) (n : Nat) : o.all (fun a => decide (a < n)) = true ↔ ∀ a, o = some a → a < n := by
    cases o <;> simp
  simp only [Reader.inv, Bool.and_eq_true, Bool.or_eq_true, decide_eq_true_eq, opt, Bool.not_eq_true']
  constructor
  · rintro ⟨⟨⟨h1, h2⟩, h3⟩, h4⟩
    refine ⟨fun hv => ?_, fun hr => ?_, h3, h4⟩
    · rcases h1 with h1 | h1
      · rw [h1] at hv; cases hv
      · exact h1
    · rcases h2 with h2 | ⟨⟨h2, h5⟩, h6⟩
      · exact absurd h2 hr
      · exact ⟨h2, h5, h6⟩
  · intro h
    refine ⟨⟨⟨?_, ?_⟩, h.owner_port⟩, h.rop⟩
    · by_cases hv : rd.valid = true
      · exact .inr (h.numRecv hv)
      · exact .inl (by simpa using hv)
    · by_cases hr : rd.rop = .idle
      · exact .inl hr
      · obtain ⟨a, b, c⟩ := h.used hr
        exact .inr ⟨⟨a, b⟩, c⟩

/-- A cursor's invariant looks at the state's parameters, `scValid` and ports only. -/
theorem Reader.inv_congr (s t : State) (rd : Reader) (h1 : t.params = s.params) (h3 : t.ports.length = s.ports.length) (h4 : t.scValid = s.scValid) : rd.inv t = rd.inv s := by
  simp only [Reader.inv, h1, h3, h4]

/-- The writer's invariant looks at the operation in flight, the writer, the counter and the parameters only. -/
theorem writerInv_congr (s t : State) (h1 : t.wop = s.wop) (h2 : t.scValid = s.scValid) (h3 : t.writer = s.writer)
    (h4 : t.sendCounter = s.sendCounter) (h5 : t.params = s.params) : t.writerInv = s.writerInv := by
  simp only [State.writerInv, h1, h2, h3, h4, h5]

theorem writerInv_idle (s : State) (h : s.wop = .idle) : s.writerInv = true := by
  simp only [State.writerInv, h]

/-- The parts of the writer's invariant while an enqueue is in flight. -/
theorem writerInv_enq (s : State) (sent len : Word) (payload : List Byte) (pending : List Nat)
    (h : s.wop = .enq sent len payload pending) :
    s.writerInv = true ↔ s.scValid = true ∧ s.writer.isSome = true ∧ sent = s.sendCounter ∧
      payload.length = s.params.MAX ∧ pending.Nodup ∧
      ∀ o ∈ pending, o ∈ slotOffsets s.params (sent.toNat % s.params.Q) := by
  simp [State.writerInv, h, pendingInv, and_assoc]

/-! ### Cursors, units and ports that exist -/

theorem InvParts.channel {s : State} (h : InvParts s) (c : Nat) (hc : c < s.params.NCH) :
    c < s.channels.length ∧ (s.channel c).inv s.params.N = true := by
  have hl : c < s.channels.length := by rw [h.channels_length]; exact hc
  exact ⟨hl, h.channels _ (getD_mem _ _ _ hl)⟩

theorem InvParts.reader {s : State} (h : InvParts s) (r : Nat) (hr : r < s.params.NRD) :
    r < s.readers.length ∧ ReaderParts s (s.reader r) := by
  have hl : r < s.readers.length := by rw [h.readers_length]; exact hr
  exact ⟨hl, (Reader.inv_iff s _).1 (h.readers _ (getD_mem _ _ _ hl))⟩

/-! ### Updates that keep the invariant -/

/-- Any update of fields the invariant does not look at, and of ports, keeps it. -/
theorem InvParts.of_same {s t : State} (h : InvParts s) (h1 : t.params = s.params) (h2 : t.channels = s.channels)
    (h3 : t.image = s.image) (h4 : t.scValid = s.scValid) (h5 : t.readers = s.readers) (h6 : t.wop = s.wop)
    (h7 : t.writer = s.writer) (h8 : t.published = s.published) (h9 : t.ports.length = s.ports.length)
    (h10 : t.cur < t.ports.length) (h11 : t.lags = s.lags) : InvParts t := by
  have hsc : t.sendCounter = s.sendCounter := by rw [State.sendCounter, State.sendCounter, h3]
  refine ⟨?_, ?_, ?_, ?_, ?_, ?_, ?_, ?_, h10, ?_, ?_, ?_, ?_, ?_, ?_⟩
  · rw [h1]; exact h.params
  · rw [h1, h2]; exact h.channels_length
  · rw [h1, h2]; exact h.channels
  · rw [h3]; exact h.image_wf
  · rw [h1, h3]; exact h.image_below
  · rw [h1, h5]; exact h.readers_length
  · intro rd hrd
    rw [Reader.inv_congr s t rd h1 h9 h4]
    rw [h5] at hrd
    exact h.readers rd hrd
  · rw [h1, h9]; exact h.ports_length
  · rw [h7, h9]; exact h.writer_port
  · rw [h4, h8, hsc]; exact h.counter
  · rw [h4, h8]; exact h.uncounted
  · rw [writerInv_congr s t h6 h4 h7 hsc h1]; exact h.writer
  · rw [h1, h11]; exact h.lags_length
  · have hr (r : Nat) : t.reader r = s.reader r := by rw [State.reader, State.reader, h5]
    have hl (r : Nat) : t.lag r = s.lag r := by rw [State.lag, State.lag, h11]
    intro r
    rw [h1, hr, hl]
    exact h.lags r

theorem InvParts.endCommand {s : State} (h : InvParts s) (st : Status) (res : Results) :
    InvParts (s.endCommand st res) :=
  h.of_same rfl rfl rfl rfl rfl rfl rfl rfl (by simp) (by simpa using h.cur) rfl

theorem InvParts.emit {s : State} (h : InvParts s) (e : Event) : InvParts (s.emit e) :=
  h.of_same rfl rfl rfl rfl rfl rfl rfl rfl rfl h.cur rfl

theorem InvParts.setPort {s : State} (h : InvParts s) (a : Nat) (p : Port) : InvParts (s.setPort a p) :=
  h.of_same rfl rfl rfl rfl rfl rfl rfl rfl (by simp) (by simpa using h.cur) rfl

theorem InvParts.present {s : State} (h : InvParts s) (a : Nat) (cmd : Command) (ha : a < s.ports.length) :
    InvParts (s.present a cmd) :=
  h.of_same rfl rfl rfl rfl rfl rfl rfl rfl (by simp) (by simpa using ha) rfl

theorem InvParts.setChannel {s : State} (h : InvParts s) (c : Nat) (ch : Channel) (hch : ch.inv s.params.N = true) :
    InvParts (s.setChannel c ch) := by
  refine ⟨h.params, ?_, ?_, h.image_wf, h.image_below, h.readers_length, h.readers, h.ports_length, h.cur,
    h.writer_port, h.counter, h.uncounted, h.writer, h.lags_length, h.lags⟩
  · simpa using h.channels_length
  · intro d hd
    rcases List.mem_or_eq_of_mem_set hd with hd | rfl
    · exact h.channels d hd
    · exact hch

theorem InvParts.setReader {s : State} (h : InvParts s) (r : Nat) (rd : Reader) (hrd : ReaderParts s rd)
    (hl : rd.valid = true → (s.lag r).items < 2 ^ 32) : InvParts (s.setReader r rd) := by
  refine ⟨h.params, h.channels_length, h.channels, h.image_wf, h.image_below, ?_, ?_, h.ports_length, h.cur,
    h.writer_port, h.counter, h.uncounted, h.writer, h.lags_length, fun q hq hv => ?_⟩
  · simpa using h.readers_length
  · intro q hq
    rw [Reader.inv_congr s (s.setReader r rd) q rfl rfl rfl]
    rcases List.mem_or_eq_of_mem_set hq with hq | rfl
    · exact h.readers q hq
    · exact (Reader.inv_iff s _).2 hrd
  · by_cases e : q = r
    · subst e
      rw [State.reader_setReader_same _ _ _ (by rw [h.readers_length]; exact hq)] at hv
      exact hl hv
    · rw [State.reader_setReader_ne _ _ _ _ e] at hv
      exact h.lags q hq hv

/-- Setting a lag below the limit keeps it. -/
theorem InvParts.setLag {s : State} (h : InvParts s) (r n : Nat) (hn : n < 2 ^ 32) : InvParts (s.setLag r n) := by
  refine ⟨h.params, h.channels_length, h.channels, h.image_wf, h.image_below, h.readers_length, h.readers,
    h.ports_length, h.cur, h.writer_port, h.counter, h.uncounted, h.writer, by simpa using h.lags_length,
    fun q hq hv => ?_⟩
  by_cases e : q = r
  · subst e
    rw [State.lag_setLag_same _ _ _ (by rw [h.lags_length]; exact hq)]
    exact hn
  · rw [State.lag_setLag_ne _ _ _ _ e]
    exact h.lags q hq hv

/-- Becoming the writer, with no other writer's enqueue in flight. -/
theorem InvParts.asWriter {s : State} (h : InvParts s) : InvParts { s with writer := some s.cur } := by
  refine ⟨h.params, h.channels_length, h.channels, h.image_wf, h.image_below, h.readers_length, h.readers,
    h.ports_length, h.cur, ?_, h.counter, h.uncounted, ?_, h.lags_length, h.lags⟩
  · intro a ha; cases ha; exact h.cur
  · have hw := h.writer
    unfold State.writerInv at hw ⊢
    cases hop : s.wop with
    | idle => simp
    | enq sent len payload pending =>
      simp only [hop] at hw ⊢
      simp only [Bool.and_eq_true] at hw ⊢
      exact ⟨⟨⟨⟨hw.1.1.1.1, rfl⟩, hw.1.1.2⟩, hw.1.2⟩, hw.2⟩

/-- Becoming the owner of a cursor. -/
theorem ReaderParts.own {s : State} {rd : Reader} (h : ReaderParts s rd) (hc : s.cur < s.ports.length) :
    ReaderParts s { rd with owner := some s.cur } :=
  ⟨h.numRecv, fun hr => ⟨(h.used hr).1, (h.used hr).2.1, rfl⟩, fun a ha => by cases ha; exact hc, h.rop⟩

end Sys2Proof.Machine
end

