-- ==== Sys2Proof/Laws/PerInstr.lean ====
section
/-! SUPPORT. Statements made per instruction: the fields of a well-formed command's word (spec/30_encoding.md R71, R77). -/

namespace Sys2Proof.Laws.EncodeFields

/-- The word of a well-formed command holds its opcode, unit and A bit in their fields, and RSV = 0 (R71). -/
def Statement (i : Instr) : Prop :=
  i.wf = true →
    opcField (encode i) = i.opc ∧ unitField (encode i) = i.unit ∧ autoField (encode i) = i.autoBit ∧
      rsvField (encode i) = 0

/-- The fields of a word written as RSV = 0, A, UNIT, OPC. -/
theorem fields_of_word (a : Bool) (u o : Nat) (hu : u < 256) (ho : o < 256) :
    opcField (wrap32 (a.toNat * 2 ^ 16 + u * 2 ^ 8 + o)) = o ∧
      unitField (wrap32 (a.toNat * 2 ^ 16 + u * 2 ^ 8 + o)) = u ∧
      autoField (wrap32 (a.toNat * 2 ^ 16 + u * 2 ^ 8 + o)) = a ∧
      rsvField (wrap32 (a.toNat * 2 ^ 16 + u * 2 ^ 8 + o)) = 0 := by
  have ha : a.toNat ≤ 1 := by cases a <;> decide
  refine ⟨?_, ?_, ?_, ?_⟩
  · simp only [opcField, wrap32, BitVec.extractLsb'_toNat, BitVec.toNat_ofNat, Nat.shiftRight_eq_div_pow]
    omega
  · simp only [unitField, wrap32, BitVec.extractLsb'_toNat, BitVec.toNat_ofNat, Nat.shiftRight_eq_div_pow]
    omega
  · have h : (a.toNat * 2 ^ 16 + u * 2 ^ 8 + o) % 2 ^ 32 / 2 ^ 16 % 2 = a.toNat := by omega
    simp only [autoField, wrap32, BitVec.getLsbD, BitVec.toNat_ofNat, Nat.testBit_eq_decide_div_mod_eq, h]
    cases a <;> rfl
  · simp only [rsvField, wrap32, BitVec.extractLsb'_toNat, BitVec.toNat_ofNat, Nat.shiftRight_eq_div_pow]
    omega

/-- Every opcode fits its field. -/
theorem opc_lt (i : Instr) : i.opc < 256 := by cases i <;> simp [Instr.opc]

/-- The general case, from which each command's lemma follows. -/
theorem of_wf (i : Instr) : Statement i := fun h =>
  fields_of_word i.autoBit i.unit i.opc (of_decide_eq_true h) (opc_lt i)

theorem cksum : Statement .cksum := of_wf _
theorem regRead : Statement .regRead := of_wf _
theorem rbRemcap (c : Nat) : Statement (.rbRemcap c) := of_wf _
theorem rbAppend (c : Nat) : Statement (.rbAppend c) := of_wf _
theorem rbFind (c : Nat) : Statement (.rbFind c) := of_wf _
theorem rbReaduint (c : Nat) (auto : Bool) : Statement (.rbReaduint c auto) := of_wf _
theorem rbAdvance (c : Nat) : Statement (.rbAdvance c) := of_wf _
theorem frAppend (c : Nat) : Statement (.frAppend c) := of_wf _
theorem frScan (c : Nat) : Statement (.frScan c) := of_wf _
theorem brInit : Statement .brInit := of_wf _
theorem brEnq : Statement .brEnq := of_wf _
theorem brRinit (r : Nat) : Statement (.brRinit r) := of_wf _
theorem brDeq (r : Nat) : Statement (.brDeq r) := of_wf _
theorem brIsempty (r : Nat) : Statement (.brIsempty r) := of_wf _

end Sys2Proof.Laws.EncodeFields
end

