-- ==== Sys2Proof/Tests/Slice0.lean ====
section
/-! SUPPORT. The model's own tests: words of the spec decoded, ill-formed terms refused, one step per instruction with the
results of spec/95_test_vectors.md, and for every statement a state and operands that meet its hypotheses. -/

namespace Sys2Proof.Tests

open Sys2Proof.Machine

/-! ## Decoding (spec/95_test_vectors.md section 7, spec/opcode_table.json) -/

theorem test_decode_cksum : decode 0x00000001 = .instr .cksum := by decide
theorem test_decode_regRead : decode 0x00000002 = .instr .regRead := by decide
theorem test_decode_rbRemcap : decode 0x00000110 = .instr (.rbRemcap 1) := by decide
theorem test_decode_rbAppend : decode 0x0000FF11 = .instr (.rbAppend 255) := by decide
theorem test_decode_rbFind : decode 0x00000012 = .instr (.rbFind 0) := by decide
theorem test_decode_rbReaduint_auto : decode 0x00010113 = .instr (.rbReaduint 1 true) := by decide
theorem test_decode_rbReaduint_plain : decode 0x00000013 = .instr (.rbReaduint 0 false) := by decide
theorem test_decode_rbAdvance : decode 0x00000114 = .instr (.rbAdvance 1) := by decide
theorem test_decode_frAppend : decode 0x00000120 = .instr (.frAppend 1) := by decide
theorem test_decode_frScan : decode 0x00000221 = .instr (.frScan 2) := by decide
theorem test_decode_brInit : decode 0x00000030 = .instr .brInit := by decide
theorem test_decode_brEnq : decode 0x00000031 = .instr .brEnq := by decide
theorem test_decode_brRinit : decode 0x00000032 = .instr (.brRinit 0) := by decide
theorem test_decode_brDeq : decode 0x00000133 = .instr (.brDeq 1) := by decide
theorem test_decode_brIsempty : decode 0x00000034 = .instr (.brIsempty 0) := by decide
theorem test_decode_opcode_zero : decode 0x00000000 = .illegal .unknownOpcode := by decide
theorem test_decode_unassigned : decode 0x00000003 = .illegal .unknownOpcode := by decide
theorem test_decode_bit_17 : decode 0x00020013 = .illegal .reservedBits := by decide
theorem test_decode_bit_31 : decode 0x80000001 = .illegal .reservedBits := by decide
theorem test_decode_all_ones : decode 0xFFFFFFFF = .illegal .reservedBits := by decide
theorem test_decode_auto_on_rbFind : decode 0x00010012 = .illegal .autoBitSet := by decide
theorem test_decode_unit_on_cksum : decode 0x00000101 = .illegal .unitNotZero := by decide
theorem test_decode_unit_on_brEnq : decode 0x00000131 = .illegal .unitNotZero := by decide
theorem test_decodeTableWord : decodeTableWord 32 0x00000033 = some (.brDeq 0) := by decide
theorem test_encode_readuint : encode (.rbReaduint 1 true) = 0x00010113 := by decide

/-! ## Well-formedness: a unit that needs a ninth bit is refused in every command that names a unit -/

theorem test_wf_refuses_rbRemcap : (Instr.rbRemcap 256).wf = false := by decide
theorem test_wf_refuses_rbAppend : (Instr.rbAppend 256).wf = false := by decide
theorem test_wf_refuses_rbFind : (Instr.rbFind 256).wf = false := by decide
theorem test_wf_refuses_rbReaduint : (Instr.rbReaduint 256 true).wf = false := by decide
theorem test_wf_refuses_rbAdvance : (Instr.rbAdvance 256).wf = false := by decide
theorem test_wf_refuses_frAppend : (Instr.frAppend 256).wf = false := by decide
theorem test_wf_refuses_frScan : (Instr.frScan 256).wf = false := by decide
theorem test_wf_refuses_brRinit : (Instr.brRinit 256).wf = false := by decide
theorem test_wf_refuses_brDeq : (Instr.brDeq 256).wf = false := by decide
theorem test_wf_refuses_brIsempty : (Instr.brIsempty 256).wf = false := by decide
theorem test_wf_accepts_last_unit : (Instr.brDeq 255).wf = true := by decide

/-! ## Helpers -/

/-- The vectors' parameters with a small ring (spec/95_test_vectors.md RB-2 to RB-9). -/
def small : State := State.resetWith { Params.vectors with N := 64 }

/-- Port 0 presents these operands. -/
def given (s : State) (arg0 arg1 : Word) (din : List Byte) : State := s.present 0 ⟨0, arg0, arg1, din⟩

/-- Channel 0 holds `bytes` from read offset `rd` on. -/
def holding (s : State) (rd : Nat) (bytes : List Byte) : State :=
  s.setChannel 0 { s.channel 0 with
    data := writeRing s.params.N [] rd bytes, writeOffset := (rd + bytes.length) % s.params.N, readOffset := rd }

/-- `sent` items enqueued, cursor 0 at `recv`, slots as they were. -/
def ringAt (s : State) (sent recv : Nat) : State :=
  { s with
    image := writeWord s.image 0 (wrap32 sent), scValid := true, published := sent, writer := some 0
    readers := s.readers.set 0 { s.reader 0 with numRecv := wrap32 recv, valid := true, received := recv }
    lags := s.lags.set 0 ⟨sent - recv, 0⟩ }

/-- Port 0's list is one line, and it is port 0's turn. -/
def lineNext (s : State) (line : Line) : State :=
  { s.setPort 0 { s.port 0 with program := [line], pc := 0 } with turns := [.agent 0 0] }

/-- The next state, if that is the outcome. -/
def nextState : StepOutcome → Option State
  | .next t => some t
  | .fault _ => none
  | .refused _ => none

/-- The refusal, if that is the outcome. -/
def refusal : StepOutcome → Option Refusal
  | .next _ => none
  | .fault _ => none
  | .refused e => some e

theorem eq_next {o : StepOutcome} {t : State} (h : nextState o = some t) : o = .next t := by
  cases o <;> simp_all [nextState]

theorem eq_refused {o : StepOutcome} {e : Refusal} (h : refusal o = some e) : o = .refused e := by
  cases o <;> simp_all [refusal]

/-- Some next state with a decidable property. -/
theorem exists_next {o : StepOutcome} {P : State → Prop} [DecidablePred P]
    (h : ((nextState o).any fun t => decide (P t)) = true) : ∃ t, o = .next t ∧ P t := by
  cases o with
  | next t => exact ⟨t, rfl, by simpa [nextState] using h⟩
  | fault f => simp [nextState] at h
  | refused e => simp [nextState] at h

/-- STATUS, CODE, VAL0, DOUT of the executing port after a next state. -/
def results : StepOutcome → Option (BitVec 8 × Word × Word × List Byte)
  | .next t => some ((t.port t.cur).status, (t.port t.cur).code, (t.port t.cur).val0, (t.port t.cur).dout)
  | .fault _ => none
  | .refused _ => none

/-- Channel 0 after a next state: write and read offset, telemetry counters. -/
def channel0 : StepOutcome → Option (Nat × Nat × Word × Word × Word)
  | .next t => some ((t.channel 0).writeOffset, (t.channel 0).readOffset, (t.channel 0).validCount,
      (t.channel 0).invalidCount, (t.channel 0).disregardedCount)
  | .fault _ => none
  | .refused _ => none

/-- Cursor 0 after a next state: `numRecv` and the operation in flight, less its copy. -/
def cursor0 : StepOutcome → Option (Word × Word × Word)
  | .next t =>
    match (t.reader 0).rop with
    | .idle => some ((t.reader 0).numRecv, 0, 0)
    | .deq _ dropped idx _ _ => some ((t.reader 0).numRecv, dropped, idx)
  | .fault _ => none
  | .refused _ => none

/-- "hello". -/
def hello : List Byte := [0x68, 0x65, 0x6C, 0x6C, 0x6F]

/-- The 41 bytes of SRC-1, written out. -/
def helloFrame : List Byte :=
  [0x2B, 0x3D, 0x2B, 0x3D, 0x2B, 0x3D, 0x2B, 0x3D, 0x35, 0x23, 0x40, 0x23, 0x40, 0x23, 0x40, 0x23, 0x40,
    0x68, 0x65, 0x6C, 0x6C, 0x6F, 0x21, 0x25, 0x21, 0x25, 0x21, 0x25, 0x21, 0x25, 0x35, 0x33, 0x32,
    0x3F, 0x5E, 0x3F, 0x5E, 0x3F, 0x5E, 0x3F, 0x5E]

/-! ## One step per instruction -/

/-- CK-2. -/
theorem test_cksum_hello : results (exec .cksum (given State.reset 0 0 hello)) = some (0, 0, 532, []) := by decide
/-- CK-9. -/
theorem test_cksum_too_long :
    results (exec .cksum (given (State.resetWith { Params.vectors with DIN_MAX := 4 }) 0 0 hello)) =
      some (3, 0, 0, []) := by decide
/-- REG-1. -/
theorem test_regRead_no_value : results (exec .regRead (given State.reset 0x800 0 [])) = some (4, 0, 0, []) := by decide
/-- REG-4. -/
theorem test_regRead_remcap : results (exec .regRead (given State.reset 0x1006 0 [])) = some (0, 0, 65535, []) := by
  decide
/-- RB-1. -/
theorem test_rbRemcap_empty : results (exec (.rbRemcap 0) State.reset) = some (0, 0, 65535, []) := by decide
/-- RB-33. -/
theorem test_rbRemcap_bad_unit : results (exec (.rbRemcap 2) State.reset) = some (2, 0, 0, []) := by decide
/-- RB-3: no partial write. -/
theorem test_rbAppend_full :
    nextState (exec (.rbAppend 0) (given (holding small 0 (List.replicate 63 0x41)) 0 0 [0x42])) =
      some ((given (holding small 0 (List.replicate 63 0x41)) 0 0 [0x42]).endCommand .done {}) := by decide
/-- RB-4: the write wraps from index 63 to 0. -/
theorem test_rbAppend_wraps :
    (match exec (.rbAppend 0) (given (holding small 60 []) 0 0 [0x61, 0x62, 0x63, 0x64, 0x65, 0x66]) with
      | .next t => some ((t.channel 0).data, (t.channel 0).writeOffset, (t.port 0).code)
      | _ => none) =
      some ([(0, 0x65), (1, 0x66), (60, 0x61), (61, 0x62), (62, 0x63), (63, 0x64)], 2, 1) := by decide
/-- RB-8: the leftmost match at index 1 or later is at 2. -/
theorem test_rbFind_from_one :
    results (exec (.rbFind 0) (given (holding small 0 (beforeSize ++ [0x2B, 0x3D])) 1 0 beforeSize)) =
      some (0, 1, 10, []) := by decide
/-- RB-9: the match straddles index 63 and 0. -/
theorem test_rbFind_wraps :
    results (exec (.rbFind 0) (given (holding small 62 beforeSize) 0 0 beforeSize)) = some (0, 1, 8, []) := by decide
/-- RB-17: "010" is octal. -/
theorem test_rbReaduint_octal :
    results (exec (.rbReaduint 0 true) (given (holding small 0 [0x30, 0x31, 0x30]) 0 3 [])) = some (0, 1, 8, []) := by
  decide
/-- RB-26: "4294967296" overflows. -/
theorem test_rbReaduint_overflow :
    results (exec (.rbReaduint 0 true)
      (given (holding small 0 [0x34, 0x32, 0x39, 0x34, 0x39, 0x36, 0x37, 0x32, 0x39, 0x36]) 0 10 [])) =
      some (0, 0, 0, []) := by decide
/-- RB-30. -/
theorem test_rbAdvance_wraps :
    channel0 (exec (.rbAdvance 0) (given (holding small 62 [1, 2, 3, 4]) 3 0 [])) = some (2, 1, 0, 0, 0) := by decide
/-- RB-31. -/
theorem test_rbAdvance_too_far :
    nextState (exec (.rbAdvance 0) (given (holding small 62 [1, 2, 3, 4]) 5 0 [])) =
      some ((given (holding small 62 [1, 2, 3, 4]) 5 0 []).endCommand .badOperand {}) := by decide
/-- SRC-1: the frame of "hello", byte by byte, and its event. -/
theorem test_frAppend_hello :
    (match exec (.frAppend 0) (given small 0 0 hello) with
      | .next t => some (unread 64 (t.channel 0), t.events)
      | _ => none) = some (helloFrame, [.frameAppended 0]) := by decide
/-- FR-11b: a frame of 64 bytes does not fit a ring of 64. -/
theorem test_frAppend_no_room :
    nextState (exec (.frAppend 0) (given small 0 0 (List.replicate 26 0x41))) =
      some ((given small 0 0 (List.replicate 26 0x41)).endCommand .done {}) := by decide
/-- FR-9: `BEFORE_SIZE` matches inside the garbage, so the size field is "+=5". -/
theorem test_frScan_collision :
    channel0 (exec (.frScan 0) (given (holding small 0 ([0x61, 0x62, 0x2B, 0x3D] ++ helloFrame)) 16 0 [])) =
      some (45, 45, 0, 1, 2) := by decide
/-- FR-15: a size of 9 copies into the marker. -/
theorem test_frScan_oversize :
    results (exec (.frScan 0)
      (given (holding small 60 (helloFrame.set 8 0x39 ++ [0x77, 0x78, 0x79, 0x7A])) 16 0 [])) =
      some (0, 4, 0, hello ++ [0x21, 0x25, 0x21, 0x25]) := by decide
/-- `br.init` gives the counter the value 0, little-endian (R182, R52). -/
theorem test_brInit_zeroes :
    (match exec .brInit (ringAt State.reset 0x01020304 0) with
      | .next t => some (t.sendCounter, t.scValid, t.image)
      | _ => none) = some (0, true, []) := by decide
/-- BR-2. -/
theorem test_brEnq_no_value : results (exec .brEnq (given State.reset 4 0 [1, 2, 3, 4])) = some (4, 0, 0, []) := by decide
/-- E0 of item 17: the eight bytes of slot 1 are pending (R184, R51). -/
theorem test_brEnq_pending :
    (match exec .brEnq (given (ringAt State.reset 17 17) 4 0 [1, 2, 3, 4]) with
      | .next t => some t.wop
      | _ => none) = some (.enq 17 4 [1, 2, 3, 4] [12, 13, 14, 15, 16, 17, 18, 19]) := by decide
/-- `br.rinit 0` of BR-4. -/
theorem test_brRinit_zeroes : cursor0 (exec (.brRinit 0) (ringAt State.reset 5 3)) = some (0, 0, 0) := by decide
/-- D1 of BR-6: 20 enqueued, 5 dropped, item 5 next. -/
theorem test_brDeq_drops : cursor0 (exec (.brDeq 0) (ringAt State.reset 20 0)) = some (6, 5, 5) := by decide
/-- D1 of BR-11: the counters wrap. D1 of BR-16: after a second BR_INIT and one more item, cursor 0 goes from 5 to where 14
items are unseen, which is what is then ahead of it (R277). -/
theorem test_brDeq_wraps :
    cursor0 (exec (.brDeq 0) (ringAt State.reset (2 ^ 32 + 2) (2 ^ 32 - 2))) = some (0xFFFFFFFF, 0, 14) ∧
    (match exec (.brDeq 0) (ringAt State.reset 1 5) with
      | .next t => some ((t.reader 0).numRecv, (t.lag 0).items)
      | _ => none) = some (0xFFFFFFF3, 14) := by decide
/-- E2 after BR-16: the writer can publish up to 2^32 − 1 items ahead and not one more (R258 item 5). -/
theorem test_publish_limit_after_second_init :
    let s (since : Nat) := { ringAt State.reset (1 + since) (2 ^ 32 - 13) with
      wop := .enq (wrap32 (1 + since)) 1 [1, 2, 3, 4] [], lags := [⟨14, since⟩, Lag.reset] }
    (results (enqStep (s (2 ^ 32 - 16)) 0) = some (0, 0, 0, [])) ∧
      refusal (enqStep (s (2 ^ 32 - 15)) 0) = some .counterLapped := by decide

/-- BR-12. -/
theorem test_brIsempty_empty : results (exec (.brIsempty 0) (ringAt State.reset 20 20)) = some (0, 1, 0, []) := by decide
/-- BR-15. -/
theorem test_brIsempty_bad_unit : results (exec (.brIsempty 2) State.reset) = some (2, 0, 0, []) := by decide

/-- The word port 0 fetches first after reset is the one placed there. -/
theorem test_withFetchWord : results (step (State.reset.withFetchWord 32 0x00000010)) = some (0, 0, 65535, []) := by
  decide
/-- CK-8: an illegal word. -/
theorem test_withFetchWord_illegal : results (step (State.reset.withFetchWord 32 0x00000101)) = some (1, 0, 0, []) := by
  decide

/-! ## Witnesses: for every statement with hypotheses, a state and operands that meet them all -/

/-- A machine of four ports (W, R0, R1, U0), two channels of 64 bytes, four slots of one payload byte. -/
def tiny : Params := { Params.vectors with N := 64, Q := 4, MAX := 1, DIN_MAX := 40, NUSER := 1 }

/-- `tiny` at reset. -/
def base : State := State.resetWith tiny

/-- Port `a`'s list is these lines, and the turns are its. -/
def turning (s : State) (a : Nat) (lines : List Line) (picks : List Nat) : State :=
  { s.setPort a { s.port a with program := lines, pc := 0 } with turns := picks.map (Turn.agent a) }

/-- W enqueues the item (1, AA) as number 0, with these slot bytes still to be written. -/
def writing (pending : List Nat) : State := { ringAt base 0 0 with wop := .enq 0 1 [0xAA] pending }

/-- Item (1, AA) stands in slot 0, one item is published. -/
def published : State :=
  { ringAt base 1 0 with image := Memory.write (Memory.write (writeWord [] 0 1) 4 1) 8 0xAA }

/-- R0 takes item 0 of `published`: what it has copied, what is pending. -/
def reading (copy : List (Option Byte)) (pending : List Nat) : State :=
  { (published.setReader 0 ⟨1, true, .deq 1 0 0 copy pending, some 1, 1⟩).setLag 0 0 with cur := 1 }

/-- R0 has copied all of slot 0. -/
def copied : State := reading [some 1, some 0, some 0, some 0, some 0xAA] []

/-- A command of the word `w`. -/
def word (w : Word) : Line := .command ⟨w, 1, 0, [0xAA]⟩

theorem test_witness_DecodeOfEncode : (Instr.rbReaduint 255 true).wf = true ∧ Instr.brInit.wf = true := by decide

theorem test_witness_EncodeOfDecode : decode 0x0001FF13 = .instr (.rbReaduint 255 true) := by decide

theorem test_witness_IllegalWords :
    (0x00020001 : Word).toNat / 2 ^ 17 ≠ 0 ∧ (0x80000001 : Word).toNat / 2 ^ 17 ≠ 0 ∧
    ((0x00010012 : Word).toNat / 2 ^ 16 % 2 ≠ 0 ∧ (0x00010012 : Word).toNat % 2 ^ 8 ≠ 0x13) ∧
    (0x00000035 : Word).toNat % 2 ^ 8 ∉
      [0x01, 0x02, 0x10, 0x11, 0x12, 0x13, 0x14, 0x20, 0x21, 0x30, 0x31, 0x32, 0x33, 0x34] ∧
    ((0x00000102 : Word).toNat / 2 ^ 8 % 2 ^ 8 ≠ 0 ∧ (0x00000102 : Word).toNat % 2 ^ 8 ∈ [0x01, 0x02, 0x30, 0x31]) ∧
    3 < base.ports.length := by decide

theorem test_witness_StepIssues :
    let s := turning base 3 [word 0x00010013] [7]
    s.turns = .agent 3 7 :: [] ∧ s.inFlight 3 = .nothing ∧ s.nextLine 3 = some (word 0x00010013) ∧
      decode 0x00010013 = .instr (.rbReaduint 0 true) := by decide

theorem test_witness_StepContinues :
    let s := { writing [4, 8] with turns := [.agent 0 1] }
    let t := { reading [none, none, none, none, none] [4, 5, 6, 7, 8] with turns := [.agent 1 1] }
    s.turns = .agent 0 1 :: [] ∧ s.inFlight 0 = .enq ∧ t.turns = .agent 1 1 :: [] ∧ t.inFlight 1 = .deq 0 := by decide

theorem test_witness_StepRunsAHostLine :
    ∀ line ∈ [Line.bcode 0 5, .bcode 1 5, .bncode 0 5, .bncode 1 5, .bstat 0 5, .bstat 1 5, .halt],
      let s := turning base 3 [line] [0]
      s.turns = .agent 3 0 :: [] ∧ s.inFlight 3 = .nothing ∧ s.nextLine 3 = some line ∧
        ¬(∃ cmd, line = .command cmd) := by
  intro line h
  simp only [List.mem_cons, List.not_mem_nil, or_false] at h
  rcases h with rfl | rfl | rfl | rfl | rfl | rfl | rfl <;> exact ⟨rfl, by decide, rfl, by rintro ⟨_, h⟩; cases h⟩

theorem test_witness_FreeTurn :
    (base.turns = [] ∧ base.active = []) ∧
      ((turning base 3 [.halt] []).turns = [] ∧ (turning base 3 [.halt] []).active ≠ []) := by decide

theorem test_witness_ResetSets :
    tiny.valid = true ∧ (0 < tiny.NCH ∧ 1 < tiny.NRD) ∧
      ({ writing [4] with turns := [.reset] } : State).turns = .reset :: [] := by decide

theorem test_witness_ResetMeetsTheInvariant : tiny.valid = true := by decide

theorem test_witness_EveryStepKeepsTheInvariant :
    (copied.inv = true ∧ ({ copied with turns := [.agent 1 0] } : State).inv = true) ∧
      ∃ t, step { copied with turns := [.agent 1 0] } = .next t ∧ (t.reader 0).rop = .idle :=
  ⟨by decide, exists_next (by decide)⟩

theorem test_witness_InvariantStatesNeverFault : ({ writing [8] with turns := [.agent 0 0] } : State).inv = true := by
  decide

theorem test_witness_StepsRefuse :
    step (turning { base with writer := some 0 } 3 [word 0x30] [0]) = .refused .secondWriter ∧
    step (turning { base with readers := [{ Reader.reset with owner := some 1 }, Reader.reset] } 3 [word 0x32] [0]) =
      .refused (.sharedCursor 0) ∧
    step { ringAt base (2 ^ 32 - 1) 0 with wop := .enq 0xFFFFFFFF 1 [0xAA] [], turns := [.agent 0 0] } =
      .refused .counterLapped ∧
    step (turning (ringAt base (2 ^ 32) 1) 2 [word 0x132] [0]) = .refused .counterLapped :=
  ⟨eq_refused (by decide), eq_refused (by decide), eq_refused (by decide), eq_refused (by decide)⟩

theorem test_witness_StepsKeepParameters :
    ∃ t, step (turning base 0 [word 0x30] [0]) = .next t ∧ t.scValid = true := exists_next (by decide)

theorem test_witness_EndedRuns :
    base.runEnded = true ∧ base.turns = [] ∧ ({ base with turns := [.agent 9 0] } : State).runEnded = true ∧
      ({ base with turns := [.idle] } : State).runEnded = true ∧ Turn.idle ≠ .reset ∧ Turn.agent 9 0 ≠ .reset := by decide

theorem test_witness_Errors :
    (3 < base.ports.length ∧ ∃ t, exec (.rbRemcap 2) { base with cur := 3 } = .next t ∧
      (t.port 3).pc ≠ (base.port 3).pc ∧ (t.port 3).status ≠ 0) ∧
    (3 < base.ports.length ∧ decode 0x00000135 = .illegal .unknownOpcode) ∧
    (∃ t, enqStep (writing []) 0 = .next t ∧ (t.port 0).pc ≠ ((writing []).port 0).pc) ∧
    (∃ t, deqStep copied 0 0 = .next t ∧ (t.port 1).pc ≠ (copied.port 1).pc) :=
  ⟨⟨by decide, exists_next (by decide)⟩, by decide, exists_next (by decide), exists_next (by decide)⟩

theorem test_witness_UnitsOutOfRange :
    base.cur < base.ports.length ∧
    ((Instr.frScan 2).channelUnit? = some 2 ∧ base.params.NCH ≤ 2) ∧
    ((Instr.rbFind 255).channelUnit? = some 255 ∧ base.params.NCH ≤ 255) ∧
    ((Instr.brDeq 2).readerUnit? = some 2 ∧ base.params.NRD ≤ 2) := by decide

theorem test_witness_OperandsOutOfRange :
    let s := given (holding base 0 [1, 2, 3]) 4 3 (List.replicate 41 0)
    s.cur < s.ports.length ∧ 1 < s.params.NCH ∧ s.params.DIN_MAX < s.din.length ∧
    (given base 0 0 []).din.length = 0 ∧ s.arg1.toNat < s.arg0.toNat ∧
    occupied s.params.N (s.channel 0) < (given s 0 4 []).arg1.toNat ∧ occupied s.params.N (s.channel 0) < s.arg0.toNat ∧
    (given base 0 0 []).din.length ≠ s.params.MAX ∧ (given base 0 0 [1, 2]).din.length ≠ s.params.MAX := by decide

theorem test_witness_CountersWithoutValue :
    let s := given base 1 0 [0xAA]
    s.cur < s.ports.length ∧ 1 < s.params.NRD ∧ s.din.length = s.params.MAX ∧ s.scValid = false ∧
    ((ringAt base 1 0).scValid = true ∧ ((ringAt base 1 0).reader 1).valid = false) := by decide

theorem test_witness_BrokenContracts :
    let s := State.present { reading [] [] with cur := 2 } 2 ⟨0x31, 1, 0, [0xAA]⟩
    0 ≠ s.cur ∧ 1 ≠ s.cur ∧ 0 < s.params.NRD ∧ s.writer = some 0 ∧ s.scValid = true ∧ (s.reader 0).owner = some 1 ∧
      (s.reader 0).valid = true ∧ s.din.length = s.params.MAX := by decide

theorem test_witness_Cksum :
    let s := given base 0 0 (List.replicate 40 0xFF)
    s.cur < s.ports.length ∧ s.din.length ≤ s.params.DIN_MAX := by decide

theorem test_witness_ChecksumSees :
    (4 < hello.length ∧ (0 : Byte) ≠ hello.getD 4 0) ∧ [(1 : Byte), 2].Perm [2, 1] ∧
    (0 < hello.length ∧ 4 < hello.length ∧ 0 ≠ 4 ∧
      (0x69 : Byte).toNat + (0x6E : Byte).toNat = (hello.getD 0 0).toNat + (hello.getD 4 0).toNat) := by decide

theorem test_witness_RbRemcap : (holding base 63 [1, 2]).inv = true ∧ 0 < base.params.NCH := by decide

theorem test_witness_RbAppend :
    let s := given (holding base 63 (List.replicate 23 1)) 0 0 (List.replicate 40 2)
    let u := given (holding base 63 (List.replicate 24 1)) 0 0 (List.replicate 40 2)
    (s.inv = true ∧ 0 < s.params.NCH ∧ s.din.length ≤ s.params.DIN_MAX ∧
      s.din.length = remcap s.params.N (s.channel 0)) ∧
    (u.inv = true ∧ u.din.length ≤ u.params.DIN_MAX ∧ ¬u.din.length ≤ remcap u.params.N (u.channel 0)) := by decide

theorem test_witness_RbFind :
    let s := given (holding base 63 hello) 0 0 [0x6F]
    s.inv = true ∧ 0 < s.params.NCH ∧ 1 ≤ s.din.length ∧ s.din.length ≤ s.params.DIN_MAX := by decide

theorem test_witness_RbReaduint :
    let s := given (holding base 63 [0x35, 0x33]) 2 2 []
    let u := given (holding base 63 [0x35, 0x33]) 0 2 []
    (s.inv = true ∧ 0 < s.params.NCH ∧ s.arg0.toNat ≤ s.arg1.toNat ∧
      s.arg1.toNat ≤ occupied s.params.N (s.channel 0)) ∧
    (u.inv = true ∧ u.arg0.toNat ≤ u.arg1.toNat ∧ u.arg1.toNat ≤ occupied u.params.N (u.channel 0)) := by decide

theorem test_witness_AsciiNumbers :
    ([0x37, 0x39].map (fun x : Byte => digitValue x 10) = [7, 9].map some) ∧
    ([0x66, 0x41].map (fun x : Byte => digitValue x 16) = [15, 10].map some) ∧
    ([(0x30 : Byte), 0x37].head? = some 0x30 ∧ [(0x30 : Byte), 0x37][1]? ≠ some 0x78 ∧
      [0x30, 0x37].map (fun x : Byte => digitValue x 8) = [0, 7].map some) ∧
    ([(0x39 : Byte)].head? ≠ some 0x30 ∧ [0x39].map (fun x : Byte => digitValue x 10) = [9].map some) ∧
    ((0x38 : Byte) ∈ [0x30, 0x38] ∧ digitValue 0x38 8 = none ∧ [(0x30 : Byte), 0x38].head? ≠ some 0x20 ∧
      [(0x30 : Byte), 0x38].head? ≠ some 0x2D ∧ [(0x30 : Byte), 0x38][1]? ≠ some 0x78) ∧
    ((0x20 : Byte) ∈ [0x20, 0x35] ∧ digitValue 0x20 10 = none) := by decide

theorem test_witness_DecimalForm : 4294967295 < 2 ^ 32 ∧ 0 < 2 ^ 32 := by decide

theorem test_witness_RbAdvance :
    let s := given (holding base 62 [1, 2, 3]) 3 0 []
    s.inv = true ∧ 0 < s.params.NCH ∧ s.arg0.toNat ≤ occupied s.params.N (s.channel 0) := by decide

theorem test_witness_ChannelsAreByteQueues :
    let s := given (holding base 62 (hello ++ hello)) 1 0 [0x41]
    (s.inv = true ∧ 0 < s.params.NCH ∧ s.din.length ≤ s.params.DIN_MAX ∧
      s.arg0.toNat ≤ (unread s.params.N (s.channel 0)).length) ∧
    (∃ t, exec (.rbAppend 0) s = .next t ∧ (t.channel 0).writeOffset = 9) ∧
    (∃ t, exec (.frAppend 0) s = .next t ∧ (t.channel 0).writeOffset = 44) ∧
    (∃ t, exec (.rbAdvance 0) s = .next t ∧ (t.channel 0).readOffset = 63) ∧
    (∃ t, exec (.frScan 0) s = .next t ∧ (t.channel 0).readOffset = 62) ∧
    (∃ t, exec (.rbRemcap 0) s = .next t ∧ (t.port 0).val0 = 53) :=
  ⟨by decide, exists_next (by decide), exists_next (by decide), exists_next (by decide), exists_next (by decide),
    exists_next (by decide)⟩

theorem test_witness_ByteCommandsWriteNoTelemetry :
    (Instr.rbAdvance 0 ∈ [Instr.rbRemcap 0, .rbAppend 0, .rbFind 0, .rbReaduint 0 true, .rbAdvance 0] ∧
      Instr.rbAdvance 0 ≠ .rbAppend 0) ∧
    ∃ t, exec (.rbAdvance 0) (given (holding base 62 [1, 2, 3]) 3 0 []) = .next t ∧ (t.channel 0).readOffset = 1 :=
  ⟨by decide, exists_next (by decide)⟩

theorem test_witness_CommandsTouchOnlyTheirChannel :
    (Instr.rbAppend 0).channelUnit? ≠ some 1 ∧
    ∃ t, exec (.rbAppend 0) (given base 0 0 [1]) = .next t ∧ (t.channel 0).writeOffset = 1 :=
  ⟨by decide, exists_next (by decide)⟩

theorem test_witness_FrAppend :
    let s := given (holding base 40 (List.replicate 22 1)) 0 0 hello
    let u := given (holding base 40 (List.replicate 23 1)) 0 0 hello
    (s.inv = true ∧ 0 < s.params.NCH ∧ s.din.length ≤ s.params.DIN_MAX ∧
      (encodeFrame s.din).length = remcap s.params.N (s.channel 0)) ∧
    (u.inv = true ∧ ¬(encodeFrame u.din).length ≤ remcap u.params.N (u.channel 0)) := by decide

theorem test_witness_FrScan : (given (holding base 40 helloFrame) 16 0 []).inv = true ∧ 0 < base.params.NCH := by decide

theorem test_witness_FrScanJudges :
    let s := given (holding base 40 helloFrame) 5 0 []
    let ch := s.channel 0
    (s.inv = true ∧ 0 < s.params.NCH ∧ findMarker 64 ch beforeSize 0 = some 8 ∧ findMarker 64 ch afterSize 8 = some 17 ∧
      findMarker 64 ch beforeChecksum 17 = some 30 ∧ findMarker 64 ch afterChecksum 30 = some 41) ∧
    (parseUint (((unread 64 ch).take 9).drop 8) true = some 5 ∧
      parseUint (((unread 64 ch).take 33).drop 30) true = some 532 ∧ 5 ≤ s.arg0.toNat ∧
      (given s 4 0 []).arg0.toNat < 5) ∧
    (parseUint (((unread 64 ((holding base 40 (helloFrame.set 8 0x78)).channel 0)).take 9).drop 8) true = none ∧
      (checksum [0x48, 0x65, 0x6C, 0x6C, 0x6F]).toNat ≠ 532 ∧ (checksum hello).toNat = 532) := by decide

theorem test_witness_FrScanMakesProgress :
    let s := given (holding base 40 helloFrame) 5 0 []
    (s.inv = true ∧ 0 < s.params.NCH) ∧ ∃ t, exec (.frScan 0) s = .next t ∧ (t.port 0).code ≠ 1 :=
  ⟨by decide, exists_next (by decide)⟩

theorem test_witness_IncompleteScans :
    let find (n : Nat) (m : List Byte) (start : Nat) : Option Nat :=
      findMarker 64 ((holding base 40 (helloFrame.take n)).channel 0) m start
    (holding base 40 (helloFrame.take 40)).inv = true ∧ 0 < base.params.NCH ∧ find 7 beforeSize 0 = none ∧
    (find 16 beforeSize 0 = some 8 ∧ find 16 afterSize 8 = none) ∧
    (find 29 beforeSize 0 = some 8 ∧ find 29 afterSize 8 = some 17 ∧ find 29 beforeChecksum 17 = none) ∧
    (find 40 beforeSize 0 = some 8 ∧ find 40 afterSize 8 = some 17 ∧ find 40 beforeChecksum 17 = some 30 ∧
      find 40 afterChecksum 30 = none) := by decide

theorem test_witness_FramesRoundTrip :
    let s := given (holding base 40 []) 0 0 hello
    s.inv = true ∧ 0 < s.params.NCH ∧ occupied s.params.N (s.channel 0) = 0 ∧ s.din.length ≤ s.params.DIN_MAX ∧
      (encodeFrame s.din).length ≤ remcap s.params.N (s.channel 0) ∧
      (∀ i, i < s.din.length → ((s.din ++ beforeChecksum).drop i).take 8 ≠ beforeChecksum) ∧ 3 < s.ports.length ∧
      s.din.length ≤ (5 : Word).toNat := by decide

theorem test_witness_AlteredFrames :
    let s := given (holding base 40 (helloFrame.set 17 0x48)) 5 0 []
    s.inv = true ∧ 0 < s.params.NCH ∧ 0 < hello.length ∧ (0x48 : Byte) ≠ hello.getD 0 0 ∧
      unread s.params.N (s.channel 0) =
        beforeSize ++ dec hello.length ++ afterSize ++ hello.set 0 0x48 ++ beforeChecksum ++
          dec (checksum hello).toNat ++ afterChecksum ∧
      (∀ j, j < hello.length → ((hello.set 0 0x48 ++ beforeChecksum).drop j).take 8 ≠ beforeChecksum) ∧
      hello.length ≤ s.arg0.toNat := by decide

theorem test_witness_ScansResynchronize :
    let s := given (holding base 40 ([0x61, 0x62, 0x63] ++ helloFrame)) 5 0 []
    s.inv = true ∧ 0 < s.params.NCH ∧ unread s.params.N (s.channel 0) = [0x61, 0x62, 0x63] ++ encodeFrame hello ∧
      (∀ i, i < 3 → (([0x61, 0x62, 0x63] ++ beforeSize).drop i).take 8 ≠ beforeSize) ∧
      (∀ i, i < hello.length → ((hello ++ beforeChecksum).drop i).take 8 ≠ beforeChecksum) ∧
      hello.length ≤ s.arg0.toNat := by decide

theorem test_witness_BrInit : base.inv = true ∧ base.writer = none ∧ published.writer = some published.cur := by decide

theorem test_witness_BrEnq :
    let s := given published 1 0 [0xAA]
    s.din.length = s.params.MAX ∧ s.scValid = true ∧ s.writer = some s.cur := by decide

theorem test_witness_EnqueuesWrite :
    (writing [4, 8]).inv = true ∧ (writing [4, 8]).wop = .enq 0 1 [0xAA] [4, 8] ∧ [4, 8] ≠ ([] : List Nat) := by decide

theorem test_witness_EnqueuesPublish :
    let s := { ringAt base (2 ^ 32 - 1) 0 with wop := .enq 0xFFFFFFFF 1 [0xAA] [] }
    ((writing []).inv = true ∧ (writing []).wop = .enq 0 1 [0xAA] [] ∧ (writing []).lapsReader = false) ∧
    (s.inv = true ∧ s.wop = .enq 0xFFFFFFFF 1 [0xAA] [] ∧ (s.reader 0).valid = true ∧
      2 ^ 32 ≤ (s.lag 0).items + 1) := by decide

theorem test_witness_UninterruptedEnqueues :
    let s := turning published 0 [word 0x31] [3, 1, 4, 1, 5, 9, 2]
    s.inv = true ∧ s.inFlight 0 = .nothing ∧ s.nextLine 0 = some (word 0x31) ∧ decode 0x31 = .instr .brEnq ∧
      [(0xAA : Byte)].length = s.params.MAX ∧ s.scValid = true ∧ s.writer = some 0 ∧
      s.lapsReader = false ∧ [3, 1, 4, 1, 5, 9, 2].length = 2 + 4 + s.params.MAX ∧
      s.turns = [3, 1, 4, 1, 5, 9, 2].map (Turn.agent 0) ++ [] := by decide

theorem test_witness_SendCounterMoves :
    let s := { writing [] with turns := [.agent 0 0] }
    let v := turning { published with cur := 0 } 0 [word 0x30] [0]
    let w := { published with turns := [.reset] }
    (s.inv = true ∧ ∃ t, step s = .next t ∧ t.sendCounter = 1) ∧
      (v.inv = true ∧ v.sendCounter = 1 ∧ ∃ t, step v = .next t ∧ t.sendCounter = 0 ∧ t.scValid = true) ∧
      w.inv = true ∧ ∃ t, step w = .next t ∧ t.scValid = false :=
  ⟨⟨by decide, exists_next (by decide)⟩, ⟨by decide, by decide, exists_next (by decide)⟩,
    by decide, exists_next (by decide)⟩

theorem test_witness_BrRinit :
    (ringAt base (2 ^ 32 - 1) 5).inv = true ∧ 1 < base.params.NRD ∧ ((ringAt base (2 ^ 32 - 1) 5).reader 1).owner = none ∧
      (ringAt base (2 ^ 32 - 1) 5).published < 2 ^ 32 ∧ (ringAt base (2 ^ 32) 5).inv = true ∧
      2 ^ 32 ≤ (ringAt base (2 ^ 32) 5).published ∧ ((ringAt base (2 ^ 32) 5).reader 1).owner = none := by decide

theorem test_witness_BrDeq :
    ∀ sent ∈ [5, 6, 8, 9, 2 ^ 32 + 4],
      (ringAt base sent 5).inv = true ∧ 0 < base.params.NRD ∧ ((ringAt base sent 5).reader 0).valid = true ∧
        (ringAt base sent 5).scValid = true ∧ ((ringAt base sent 5).reader 0).owner = none := by decide

theorem test_witness_DequeuesCopy :
    let s := reading [none, some 0, some 0, some 0, none] [4, 8]
    s.inv = true ∧ 0 < s.params.NRD ∧ (s.reader 0).rop = .deq 1 0 0 [none, some 0, some 0, some 0, none] [4, 8] ∧
      [4, 8] ≠ ([] : List Nat) := by decide

theorem test_witness_DequeuesDecide :
    let racy := { copied with image := writeWord copied.image 0 4, published := 4, lags := [⟨0, 3⟩, Lag.reset] }
    (copied.inv = true ∧ 0 < copied.params.NRD ∧
      (copied.reader 0).rop = .deq 1 0 0 [some 1, some 0, some 0, some 0, some 0xAA] [] ∧
      (copied.sendCounter - (copied.reader 0).numRecv + 1).toNat < copied.params.Q ∧ copied.sendCounter = 1 ∧
      ((1 : Word) - (copied.reader 0).numRecv).toNat + 1 < copied.params.Q) ∧
    (racy.inv = true ∧ racy.params.Q ≤ (racy.sendCounter - (racy.reader 0).numRecv + 1).toNat) := by decide

theorem test_witness_UninterruptedDequeues :
    let s := turning published 1 [word 0x33] [3, 1, 4, 1, 5, 9, 2]
    s.inv = true ∧ s.inFlight 1 = .nothing ∧ s.nextLine 1 = some (word 0x33) ∧ decode 0x33 = .instr (.brDeq 0) ∧
      0 < s.params.NRD ∧ (s.reader 0).valid = true ∧ s.scValid = true ∧ (s.reader 0).owner = none ∧
      s.sendCounter ≠ (s.reader 0).numRecv ∧ [3, 1, 4, 1, 5, 9, 2].length = 2 + 4 + s.params.MAX ∧
      s.turns = [3, 1, 4, 1, 5, 9, 2].map (Turn.agent 1) ++ [] := by decide

theorem test_witness_BrIsempty :
    published.inv = true ∧ 0 < published.params.NRD ∧ (published.reader 0).valid = true ∧ published.scValid = true ∧
      (published.reader 0).owner = none := by decide

theorem test_witness_ReadersAreIndependent :
    let s := turning { copied with turns := [] } 2 [word 0x00000132] [0]
    (s.takeTurn.1 = .agent 2 0 ∧ (s.reader 0).owner = some 1 ∧ 1 ≠ 2 ∧ 1 ≠ 0) ∧
      ∃ t, step s = .next t ∧ (t.reader 1).valid = true := ⟨by decide, exists_next (by decide)⟩

theorem test_witness_DropsAreAccounted :
    let s := { copied with turns := [.agent 1 0] }
    let u := turning published 1 [word 0x32] [0]
    ((s.inv = true ∧ 0 < s.params.NRD) ∧ ∃ t, step s = .next t ∧ (t.reader 0).settled ≠ (s.reader 0).settled) ∧
      (u.inv = true ∧ ∃ t, step u = .next t ∧ (t.reader 0).settled = 0) ∧
      ∃ t, step { s with turns := [.reset] } = .next t ∧ (t.reader 0).valid = false :=
  ⟨⟨by decide, exists_next (by decide)⟩, ⟨by decide, exists_next (by decide)⟩, exists_next (by decide)⟩

theorem test_witness_HistoryHoldsAtReset : tiny.valid = true := by decide

theorem test_witness_EveryStepKeepsTheHistory :
    let s := { published with
      image := Memory.write published.image 9 1, wop := .enq 1 1 [0xBB] [13], turns := [.agent 0 0] }
    historyInv s [(1, [0xAA])] = true ∧ ∃ t, step s = .next t ∧ s.published ≤ t.published :=
  ⟨by decide, exists_next (by decide)⟩

theorem test_witness_OkDequeues :
    (historyInv copied [(1, [0xAA])] = true ∧ 0 < copied.params.NRD ∧
      (copied.reader 0).rop = .deq 1 0 0 [some 1, some 0, some 0, some 0, some 0xAA] [] ∧
      copied.published + 1 < (copied.reader 0).received + 2 ^ 32) ∧
    ∃ t, deqStep copied 0 0 = .next t ∧ (t.port copied.cur).code = 1 := ⟨by decide, exists_next (by decide)⟩

theorem test_witness_RegRead :
    (given published 0x1016 0 []).inv = true ∧ 1 < published.params.NCH ∧ 1 < published.params.NRD ∧
      (given published 0x1016 0 []).arg0.toNat = 0x1000 + 16 * 1 + 6 ∧
      (given published 0x2011 0 []).arg0.toNat = 0x2000 + 16 * 1 + 1 ∧
      0x802 ∉ [0x10, 0x11, 0x12, 0x13, 0x14, 0x15, 0x0800, 0x0801] := by decide

theorem test_witness_CommandsInFlight :
    copied.inv = true ∧ copied.inFlight 1 = .deq 0 ∧ (writing [4, 8]).inv = true ∧
      (writing [4, 8]).inFlight 0 = .enq := by decide

/-- Where the turn is kept, the agent whose command is in flight has it, whatever the free choice names. -/
theorem test_kept_turn :
    let s := { writing [4, 8] with choices := ⟨0, Config.freeGap 0, 0⟩ }
    s.turns = [] ∧ s.turnKept = true ∧ s.keptPort = 0 ∧ s.inFlight s.keptPort = .enq ∧
      ∀ a as, s.chooseAgent a as = 0 := by
  have hk : State.turnKept { writing [4, 8] with choices := ⟨0, Config.freeGap 0, 0⟩ } = true :=
    decide_eq_true (Nat.le_refl _)
  have hp : State.inFlight { writing [4, 8] with choices := ⟨0, Config.freeGap 0, 0⟩ } 0 = .enq := by decide
  exact ⟨rfl, hk, rfl, hp, fun a as => if_pos ⟨hk, by rw [show State.keptPort _ = 0 from rfl, hp]; decide⟩⟩

end Sys2Proof.Tests
end

/-! ## Decoding by fields (spec/30_encoding.md R71, R77, R78) -/

namespace Sys2Proof.Proofs.DecodeFields

open Sys2Proof.Machine

/-! ### The fields of a word -/

theorem opcField_eq (w : Word) : opcField w = w.toNat % 2 ^ 8 := by
  simp [opcField]

theorem unitField_eq (w : Word) : unitField w = w.toNat / 2 ^ 8 % 2 ^ 8 := by
  simp [unitField, Nat.shiftRight_eq_div_pow]

theorem autoField_eq (w : Word) : autoField w = decide (w.toNat / 2 ^ 16 % 2 = 1) :=
  Nat.testBit_eq_decide_div_mod_eq

theorem rsvField_eq (w : Word) : rsvField w = w.toNat / 2 ^ 17 := by
  have := w.isLt
  simp only [rsvField, BitVec.extractLsb'_toNat, Nat.shiftRight_eq_div_pow]
  omega

theorem opcField_lt (w : Word) : opcField w < 2 ^ 8 := (w.extractLsb' 0 8).isLt

theorem unitField_lt (w : Word) : unitField w < 2 ^ 8 := (w.extractLsb' 8 8).isLt

theorem rsvField_lt (w : Word) : rsvField w < 2 ^ 15 := (w.extractLsb' 17 15).isLt

/-- The four fields of R71 are the whole word. -/
theorem eq_iff_fields (v w : Word) :
    v = w ↔ opcField v = opcField w ∧ unitField v = unitField w ∧ autoField v = autoField w ∧
      rsvField v = rsvField w := by
  constructor
  · rintro rfl
    exact ⟨rfl, rfl, rfl, rfl⟩
  · simp only [opcField_eq, unitField_eq, autoField_eq, rsvField_eq, decide_eq_decide]
    rintro ⟨hopc, hunit, hauto, hrsv⟩
    apply BitVec.eq_of_toNat_eq
    omega

theorem opcField_and (v w : Word) : opcField (v &&& w) = opcField v &&& opcField w := by
  simp [opcField, BitVec.extractLsb'_and]

theorem unitField_and (v w : Word) : unitField (v &&& w) = unitField v &&& unitField w := by
  simp [unitField, BitVec.extractLsb'_and]

theorem autoField_and (v w : Word) : autoField (v &&& w) = (autoField v && autoField w) :=
  BitVec.getLsbD_and

theorem rsvField_and (v w : Word) : rsvField (v &&& w) = rsvField v &&& rsvField w := by
  simp [rsvField, BitVec.extractLsb'_and]

/-! ### The rows of R77 -/

/-- The opcodes of the commands without a unit (R72). -/
def unitlessOpcodes : List Nat := [0x01, 0x02, 0x30, 0x31]

/-- The shape of a row: its pattern is an opcode alone, and its mask fixes OPC and RSV, A except for RB_READUINT, and
UNIT exactly for a command without a unit. -/
structure RowShape (row : OpRow) : Prop where
  maskOpc : opcField row.mask = 2 ^ 8 - 1
  maskRsv : rsvField row.mask = 2 ^ 15 - 1
  maskAuto : autoField row.mask = decide (opcField row.pattern ≠ 0x13)
  maskUnit : unitField row.mask = if opcField row.pattern ∈ unitlessOpcodes then 2 ^ 8 - 1 else 0
  patternUnit : unitField row.pattern = 0
  patternAuto : autoField row.pattern = false
  patternRsv : rsvField row.pattern = 0

theorem rowShape_of_mem {row : OpRow} (h : row ∈ opRows) : RowShape row := by
  have hrows : ∀ row ∈ opRows,
      (opcField row.mask = 2 ^ 8 - 1 ∧ rsvField row.mask = 2 ^ 15 - 1 ∧
        autoField row.mask = decide (opcField row.pattern ≠ 0x13) ∧
        unitField row.mask = if opcField row.pattern ∈ unitlessOpcodes then 2 ^ 8 - 1 else 0) ∧
      unitField row.pattern = 0 ∧ autoField row.pattern = false ∧ rsvField row.pattern = 0 := by decide
  obtain ⟨⟨hopc, hrsv, hauto, hunit⟩, hpunit, hpauto, hprsv⟩ := hrows row h
  exact ⟨hopc, hrsv, hauto, hunit, hpunit, hpauto, hprsv⟩

/-- What a row builds has the row's opcode, and takes UNIT and A where its command has them. -/
theorem build_fields (u : Nat) (a : Bool) : ∀ row ∈ opRows,
    (row.build u a).opc = opcField row.pattern ∧
      (row.build u a).unit = (if opcField row.pattern ∈ unitlessOpcodes then 0 else u) ∧
      (row.build u a).autoBit = (a && decide (opcField row.pattern = 0x13)) := by
  simp [opRows, opcField, unitlessOpcodes, Instr.opc, Instr.unit, Instr.autoBit]

/-- The opcodes of R77. -/
def opcodes : List Nat := opRows.map fun row => opcField row.pattern

theorem opcodes_eq :
    opcodes = [0x01, 0x02, 0x10, 0x11, 0x12, 0x13, 0x14, 0x20, 0x21, 0x30, 0x31, 0x32, 0x33, 0x34] := rfl

/-- A word matches a row when it has the row's opcode, no unit where the row's command has none, no A where it has none,
and no reserved bit. -/
theorem hits_iff (w : Word) {row : OpRow} (h : row ∈ opRows) :
    row.hits w = true ↔ opcField w = opcField row.pattern ∧ (opcField w ∈ unitlessOpcodes → unitField w = 0) ∧
      (autoField w = true → opcField w = 0x13) ∧ rsvField w = 0 := by
  have hrow := rowShape_of_mem h
  have hopc : opcField (w &&& row.mask) = opcField w := by
    rw [opcField_and, hrow.maskOpc, Nat.and_two_pow_sub_one_of_lt_two_pow (opcField_lt w)]
  have hrsv : rsvField (w &&& row.mask) = rsvField w := by
    rw [rsvField_and, hrow.maskRsv, Nat.and_two_pow_sub_one_of_lt_two_pow (rsvField_lt w)]
  have hunit : unitField (w &&& row.mask) = if opcField row.pattern ∈ unitlessOpcodes then unitField w else 0 := by
    rw [unitField_and, hrow.maskUnit]
    split
    · exact Nat.and_two_pow_sub_one_of_lt_two_pow (unitField_lt w)
    · exact Nat.and_zero _
  rw [OpRow.hits, beq_iff_eq, eq_iff_fields, hopc, hrsv, hunit, autoField_and, hrow.maskAuto, hrow.patternUnit,
    hrow.patternAuto, hrow.patternRsv]
  refine and_congr_right fun hp => ?_
  rw [← hp]
  have hauto : (autoField w && decide (opcField w ≠ 0x13)) = false ↔ (autoField w = true → opcField w = 0x13) := by
    simp
  rw [hauto, ite_eq_right_iff]

/-! ### What the decoder answers -/

/-- The four conditions of R78 on the fields of a word. -/
def IllegalFields (w : Word) : Prop :=
  rsvField w ≠ 0 ∨ (autoField w = true ∧ opcField w ≠ 0x13) ∨ opcField w ∉ opcodes ∨
    (unitField w ≠ 0 ∧ opcField w ∈ unitlessOpcodes)

/-- The conditions of R78 written out on the bits of the word. -/
theorem illegalFields_iff (w : Word) :
    IllegalFields w ↔
      w.toNat / 2 ^ 17 ≠ 0 ∨ (w.toNat / 2 ^ 16 % 2 ≠ 0 ∧ w.toNat % 2 ^ 8 ≠ 0x13) ∨
        w.toNat % 2 ^ 8 ∉ [0x01, 0x02, 0x10, 0x11, 0x12, 0x13, 0x14, 0x20, 0x21, 0x30, 0x31, 0x32, 0x33, 0x34] ∨
        (w.toNat / 2 ^ 8 % 2 ^ 8 ≠ 0 ∧ w.toNat % 2 ^ 8 ∈ [0x01, 0x02, 0x30, 0x31]) := by
  rw [IllegalFields, rsvField_eq, autoField_eq, opcField_eq, unitField_eq, decide_eq_true_iff, opcodes_eq,
    unitlessOpcodes, Nat.mod_two_ne_zero]

/-- No row matches exactly where a condition of R78 holds. -/
theorem illegalFields_iff_no_hit (w : Word) : IllegalFields w ↔ ∀ row ∈ opRows, ¬row.hits w = true := by
  constructor
  · intro hill row hmem hhit
    obtain ⟨hopc, hunit, hauto, hrsv⟩ := (hits_iff w hmem).1 hhit
    rcases hill with hr | ⟨ha, h13⟩ | hunknown | ⟨hu, hunitless⟩
    · exact hr hrsv
    · exact h13 (hauto ha)
    · exact hunknown (List.mem_map.2 ⟨row, hmem, hopc.symm⟩)
    · exact hu (hunit hunitless)
  · intro hnone
    by_contra hlegal
    simp only [IllegalFields, not_or, not_and, not_not] at hlegal
    obtain ⟨hrsv, hauto, hknown, hunit⟩ := hlegal
    obtain ⟨row, hmem, hopc⟩ := List.mem_map.1 hknown
    exact hnone row hmem
      ((hits_iff w hmem).2 ⟨hopc.symm, fun h => by_contra fun hu => hunit hu h, hauto, hrsv⟩)

theorem decode_illegal {w : Word} (h : IllegalFields w) : ∃ why, decode w = .illegal why := by
  have hnone : opRows.find? (OpRow.hits w) = none := List.find?_eq_none.2 ((illegalFields_iff_no_hit w).1 h)
  exact ⟨illegalReason w, by rw [decode, hnone]⟩

/-- The command of a matching row has the fields of the word. -/
theorem build_fields_of_hit {w : Word} {row : OpRow} (hmem : row ∈ opRows) (hhit : row.hits w = true) :
    (row.build (unitField w) (autoField w)).opc = opcField w ∧
      (row.build (unitField w) (autoField w)).unit = unitField w ∧
      (row.build (unitField w) (autoField w)).autoBit = autoField w := by
  obtain ⟨hopc, hunit, hauto, -⟩ := (hits_iff w hmem).1 hhit
  obtain ⟨hbopc, hbunit, hbauto⟩ := build_fields (unitField w) (autoField w) row hmem
  rw [hbopc, hbunit, hbauto, ← hopc]
  refine ⟨rfl, ?_, ?_⟩
  · split
    next h => exact (hunit h).symm
    next => rfl
  · simpa using hauto

/-- A word that meets no condition of R78 is one command, with the word's fields. -/
theorem decode_legal {w : Word} (h : ¬IllegalFields w) :
    ∃ i, decode w = .instr i ∧ i.opc = opcField w ∧ i.unit = unitField w ∧ i.autoBit = autoField w := by
  cases hfind : opRows.find? (OpRow.hits w) with
  | none => exact absurd ((illegalFields_iff_no_hit w).2 (List.find?_eq_none.1 hfind)) h
  | some row =>
    refine ⟨row.build (unitField w) (autoField w), by rw [decode, hfind], ?_⟩
    exact build_fields_of_hit (List.mem_of_find?_eq_some hfind) (List.find?_some hfind)

/-! ### Issuing an illegal word -/

/-- An illegal word ends its command with ILLEGAL_COMMAND and changes nothing but the port (R78, R242). -/
theorem issue_illegal (s : State) (a : Nat) (cmd : Command) (ha : a < s.ports.length) {why : IllegalReason}
    (hw : decode cmd.word = .illegal why) :
    ∃ t, issue s a cmd = .next t ∧ endsWith (s.present a cmd) t .illegalCommand {} ∧ sameBlock s t := by
  have hcur : (s.present a cmd).cur < (s.present a cmd).ports.length := by simpa using ha
  obtain ⟨hends, hsame⟩ := endCommand_endsWith (s.present a cmd) .illegalCommand {} hcur
  exact ⟨(s.present a cmd).endCommand .illegalCommand {}, by rw [issue, hw, State.raise], hends, hsame⟩

/-- Settles O3: by whether some row of R77 matches the word, which its fields decide. -/
theorem illegalWordsEndInIllegalCommand : Obligations.IllegalWordsEndInIllegalCommand := by
  intro w opc unit auto rsv
  split
  next hill =>
    rintro s a cmd rfl ha
    obtain ⟨why, hdecode⟩ := decode_illegal ((illegalFields_iff cmd.word).2 hill)
    exact issue_illegal s a cmd ha hdecode
  next hlegal =>
    have hinstr := decode_legal (mt (illegalFields_iff w).1 hlegal)
    rwa [opcField_eq, unitField_eq, autoField_eq] at hinstr

end Sys2Proof.Proofs.DecodeFields

/-! ## The checksum and CKSUM (spec/41_checksum.md R100, R101) -/

namespace Sys2Proof.Proofs.Checksum

open Sys2Proof.Machine

/-! ### The checksum of a byte string -/

theorem checksum_toNat (bs : List Byte) : (checksum bs).toNat = (bs.map BitVec.toNat).sum % 2 ^ 32 :=
  BitVec.toNat_ofNat _ 32

@[simp] theorem checksum_nil : checksum [] = 0 := rfl

/-- The sum does not depend on the order of the bytes (R100). -/
theorem checksum_perm {bs cs : List Byte} (h : bs.Perm cs) : checksum bs = checksum cs :=
  congrArg wrap32 (h.map BitVec.toNat).sum_eq

/-! ### The command -/

/-- With a DIN within bounds, CKSUM ends at once with the checksum of DIN (R101). -/
theorem exec_cksum_ok (s : State) (h : s.din.length ≤ s.params.DIN_MAX) :
    exec .cksum s = .next (s.endCommand .done { val0 := checksum s.din }) := by
  rw [exec, execCksum, withDin_ok s _ h, State.done]

/-- Settles O21: CKSUM ends with the checksum of DIN, which is the sum of the bytes of any rearrangement. -/
theorem cksumSumsTheBytesOfDin : Obligations.CksumSumsTheBytesOfDin := by
  intro s hcur hdin
  obtain ⟨hends, hsame⟩ := endCommand_endsWith s .done { val0 := checksum s.din } hcur
  refine ⟨_, checksum s.din, exec_cksum_ok s hdin, hends, hsame, checksum_toNat s.din, ?_, ?_⟩
  · exact fun bs hperm => checksum_perm hperm
  · intro hempty
    rw [hempty, checksum_nil]

end Sys2Proof.Proofs.Checksum

/-! ## The RingByteChannel commands (spec/42_ring_byte_channel.md R120 to R126, R130, R131) -/

namespace Sys2Proof.Proofs.RingByteChannel

open Sys2Proof.Machine

/-! ### Occupancy and free space -/

/-- `occupied` is the difference of the offsets modulo N, as integers (R120). -/
theorem occupied_eq_emod (N : Nat) (ch : Channel) (hr : ch.readOffset < N) :
    (occupied N ch : Int) = ((ch.writeOffset : Int) - ch.readOffset) % (N : Int) := by
  have hle : ch.readOffset ≤ ch.writeOffset + N := by omega
  rw [occupied, Int.natCast_mod, Nat.cast_sub hle, Nat.cast_add, add_sub_right_comm, Int.add_emod_right]

/-- What consumption takes from the occupancy it gives to the free space (R130). -/
theorem remcap_advanceRead (N : Nat) (ch : Channel) (n : Nat) (hw : ch.writeOffset < N) (hr : ch.readOffset < N)
    (hn : n ≤ occupied N ch) : remcap N (advanceRead N ch n) = remcap N ch + n := by
  have hocc := occupied_lt N ch (by omega)
  rw [remcap, remcap, occupied_advance N ch (advanceRead N ch n) n hw hr hn rfl rfl]
  omega

/-! ### Frames -/

/-- A command that replaces channel unit `c` and reports leaves every other unit, the broadcast ring and the rest. -/
theorem setChannel_endCommand_frame {s t : State} {c : Nat} {ch : Channel} {res : Results}
    (ht : t = (s.setChannel c ch).endCommand .done res) (hcur : s.cur < s.ports.length) :
    endsWith s t .done res ∧ sameRing s t ∧ sameRest s t ∧ sameOtherChannels s t c := by
  subst ht
  refine ⟨endCommand_endsWith_of s _ .done res hcur rfl rfl, ⟨rfl, rfl, rfl, rfl, rfl, rfl, rfl⟩,
    ⟨rfl, rfl, rfl, rfl⟩, by simp, fun d hd => ?_⟩
  rw [State.endCommand_channel, s.channel_setChannel_ne c d ch hd]

/-- The replaced unit, read back after the command has ended. -/
theorem channel_setChannel_endCommand {s : State} {c : Nat} (hc : c < s.channels.length) (ch : Channel)
    (res : Results) : ((s.setChannel c ch).endCommand .done res).channel c = ch := by
  rw [State.endCommand_channel, s.channel_setChannel_same c ch hc]

/-! ### What each command answers for a unit that exists -/

section Answers

variable {s : State} {c : Nat}

theorem exec_rbRemcap_ok (hc : c < s.params.NCH) :
    exec (.rbRemcap c) s = .next (s.endCommand .done { val0 := wrap32 (remcap s.params.N (s.channel c)) }) := by
  rw [exec, execRbRemcap, withChannel_ok s c _ hc, State.done]

theorem exec_rbAppend_of_some (hc : c < s.params.NCH) (hdin : s.din.length ≤ s.params.DIN_MAX) {ch : Channel}
    (h : appendBytes s.params.N (s.channel c) s.din = some ch) :
    exec (.rbAppend c) s = .next ((s.setChannel c ch).endCommand .done { code := 1 }) := by
  rw [exec, execRbAppend, withChannel_ok s c _ hc, withDin_ok s _ hdin, h]
  rfl

theorem exec_rbAppend_of_none (hc : c < s.params.NCH) (hdin : s.din.length ≤ s.params.DIN_MAX)
    (h : appendBytes s.params.N (s.channel c) s.din = none) :
    exec (.rbAppend c) s = .next (s.endCommand .done { code := 0 }) := by
  rw [exec, execRbAppend, withChannel_ok s c _ hc, withDin_ok s _ hdin, h]
  rfl

theorem exec_rbFind_of_some (hc : c < s.params.NCH) (hlen : 1 ≤ s.din.length)
    (hdin : s.din.length ≤ s.params.DIN_MAX) {k : Nat}
    (h : findMarker s.params.N (s.channel c) s.din s.arg0.toNat = some k) :
    exec (.rbFind c) s = .next (s.endCommand .done { code := 1, val0 := wrap32 k }) := by
  rw [exec, execRbFind, withChannel_ok s c _ hc, if_neg (by omega), h]
  rfl

theorem exec_rbFind_of_none (hc : c < s.params.NCH) (hlen : 1 ≤ s.din.length)
    (hdin : s.din.length ≤ s.params.DIN_MAX)
    (h : findMarker s.params.N (s.channel c) s.din s.arg0.toNat = none) :
    exec (.rbFind c) s = .next (s.endCommand .done { code := 0 }) := by
  rw [exec, execRbFind, withChannel_ok s c _ hc, if_neg (by omega), h]
  rfl

theorem exec_rbAdvance_ok (hc : c < s.params.NCH) (hn : s.arg0.toNat ≤ occupied s.params.N (s.channel c)) :
    exec (.rbAdvance c) s =
      .next ((s.setChannel c (advanceRead s.params.N (s.channel c) s.arg0.toNat)).endCommand .done {}) := by
  rw [exec, execRbAdvance, withChannel_ok s c _ hc, if_neg (by omega), State.done]

end Answers

/-! ### The obligations -/

/-- Settles O23: RB_REMCAP only reports, and its occupancy is the integer difference modulo N. -/
theorem rbRemcapReportsTheFreeSpace : Obligations.RbRemcapReportsTheFreeSpace := by
  intro s c hinv hc
  have hparts := (inv_iff s).1 hinv
  obtain ⟨-, -, -, hr⟩ := (Channel.inv_iff _ _).1 (hparts.channel c hc).2
  obtain ⟨hends, hsame⟩ :=
    endCommand_endsWith s .done { val0 := wrap32 (remcap s.params.N (s.channel c)) } hparts.cur
  exact ⟨_, occupied s.params.N (s.channel c), exec_rbRemcap_ok hc, hsame, occupied_eq_emod _ _ hr, rfl,
    occupied_lt _ _ (by omega), hends⟩

/-- Settles O24: by whether DIN fits; where it does, the ring is the old one with DIN's bytes stored from the write
offset on. -/
theorem rbAppendStoresAllOrNothing : Obligations.RbAppendStoresAllOrNothing := by
  intro s c hinv hc hdin
  have hparts := (inv_iff s).1 hinv
  obtain ⟨hlen, hch⟩ := hparts.channel c hc
  obtain ⟨hwf, -, -, -⟩ := (Channel.inv_iff _ _).1 hch
  rcases appendBytes_cases s.params.N (s.channel c) s.din with ⟨hfull, happ⟩ | ⟨hfits, happ⟩
  · obtain ⟨hends, -, hring, hrest⟩ := endCommand_endsWith s .done { code := 0 } hparts.cur
    refine ⟨_, exec_rbAppend_of_none hc hdin happ, hring, hrest, ⟨rfl, fun _ _ => rfl⟩, ⟨rfl, rfl, rfl⟩, rfl, ?_⟩
    rw [if_neg (Nat.not_le.2 hfull)]
    exact ⟨hends, rfl⟩
  · obtain ⟨hends, hring, hrest, hothers⟩ := setChannel_endCommand_frame (s := s) (c := c) rfl hparts.cur
    refine ⟨_, exec_rbAppend_of_some hc hdin happ, hring, hrest, hothers, ?_⟩
    rw [channel_setChannel_endCommand hlen, if_pos hfits]
    have hN : s.din.length ≤ s.params.N := by rw [remcap] at hfits; omega
    exact ⟨⟨rfl, rfl, rfl⟩, rfl, hends, rfl,
      fun k hk => read_writeRing_inside _ _ _ _ k hwf hN hk,
      fun j hj => read_writeRing_outside _ _ _ _ j hj⟩

/-- Settles O25: by the two answers of the marker search. -/
theorem rbFindReportsTheLeftmostMatch : Obligations.RbFindReportsTheLeftmostMatch := by
  intro s c hinv hc hlen hdin
  have hcur := ((inv_iff s).1 hinv).cur
  rcases findMarker_cases s.params.N (s.channel c) s.din s.arg0.toNat with
    ⟨i, hfind, hstart, hhit, hleft⟩ | ⟨hfind, hnone⟩
  · obtain ⟨hends, hsame⟩ :=
      endCommand_endsWith s .done { code := 1, val0 := wrap32 (i + s.din.length) } hcur
    exact ⟨_, exec_rbFind_of_some hc hlen hdin hfind, hsame, unread_length _ _,
      .inl ⟨i, hstart, hhit, hleft, hends⟩⟩
  · obtain ⟨hends, hsame⟩ := endCommand_endsWith s .done { code := 0 } hcur
    exact ⟨_, exec_rbFind_of_none hc hlen hdin hfind, hsame, unread_length _ _, .inr ⟨hnone, hends⟩⟩

/-- Settles O29: RB_ADVANCE replaces its unit by the one with the read offset moved on. -/
theorem rbAdvanceConsumes : Obligations.RbAdvanceConsumes := by
  intro s c hinv hc hn
  have hparts := (inv_iff s).1 hinv
  obtain ⟨hlen, hch⟩ := hparts.channel c hc
  obtain ⟨-, -, hw, hr⟩ := (Channel.inv_iff _ _).1 hch
  obtain ⟨hends, hring, hrest, hothers⟩ := setChannel_endCommand_frame (s := s) (c := c) rfl hparts.cur
  refine ⟨_, exec_rbAdvance_ok hc hn, hring, hrest, hothers, hends, ?_⟩
  rw [channel_setChannel_endCommand hlen]
  exact ⟨rfl, occupied_advance _ _ _ _ hw hr hn rfl rfl, remcap_advanceRead _ _ _ hw hr hn⟩

end Sys2Proof.Proofs.RingByteChannel

/-! ## The ASCII integer decoder (spec/42_ring_byte_channel.md R127, R128) -/

namespace Sys2Proof.Proofs.AsciiInteger

open Sys2Proof.Machine

/-! ### Digits -/

/-- The digits of each radix are those of R128, each below its radix. -/
theorem digitValue_eq_some_iff (x : Byte) (radix d : Nat) :
    digitValue x radix = some d ↔
      d < radix ∧
        ((0x30 ≤ x.toNat ∧ x.toNat ≤ 0x39 ∧ d = x.toNat - 0x30) ∨
          (radix = 16 ∧ 0x61 ≤ x.toNat ∧ x.toNat ≤ 0x66 ∧ d = x.toNat - 0x57) ∨
          (radix = 16 ∧ 0x41 ≤ x.toNat ∧ x.toNat ≤ 0x46 ∧ d = x.toNat - 0x37)) := by
  simp only [digitValue]
  split_ifs <;> simp only [Option.some.injEq, false_iff] <;> omega

/-- A space is no digit in any radix. -/
theorem digitValue_space (radix : Nat) : digitValue 0x20 radix = none := by simp [digitValue]

/-- A minus is no digit in any radix. -/
theorem digitValue_minus (radix : Nat) : digitValue 0x2D radix = none := by simp [digitValue]

/-- The number that the digits `ds` continue from the value `v` on, most significant first. -/
def digitsFrom (radix v : Nat) (ds : List Nat) : Nat := ds.foldl (fun v d => v * radix + d) v

theorem digitsFrom_cons (radix v d : Nat) (ds : List Nat) :
    digitsFrom radix v (d :: ds) = digitsFrom radix (v * radix + d) ds := rfl

/-- More digits never make a number smaller, so once above 2^32 − 1 it stays above. -/
theorem le_digitsFrom {radix : Nat} (hradix : 0 < radix) (v : Nat) (ds : List Nat) : v ≤ digitsFrom radix v ds := by
  induction ds generalizing v with
  | nil => exact le_refl v
  | cons d ds ih =>
    calc v ≤ v * radix := Nat.le_mul_of_pos_right v hradix
      _ ≤ v * radix + d := Nat.le_add_right _ d
      _ ≤ digitsFrom radix v (d :: ds) := ih _

/-! ### The digit loop -/

/-- On digits alone, the loop answers their number, or none where it exceeds 2^32 − 1. -/
theorem readDigits_digits (radix v : Nat) (xs : List Byte) (ds : List Nat) (hv : v ≤ 2 ^ 32 - 1)
    (h : xs.map (fun x => digitValue x radix) = ds.map some) :
    readDigits radix v xs = if digitsFrom radix v ds ≤ 2 ^ 32 - 1 then some (digitsFrom radix v ds) else none := by
  induction xs generalizing v ds with
  | nil =>
    obtain rfl : ds = [] := List.map_eq_nil_iff.1 h.symm
    exact (if_pos hv).symm
  | cons x xs ih =>
    cases ds with
    | nil => cases h
    | cons d ds =>
      obtain ⟨hd, htail⟩ := List.cons.inj h
      have hradix : 0 < radix := Nat.zero_lt_of_lt ((digitValue_eq_some_iff x radix d).1 hd).1
      rw [digitsFrom_cons]
      simp only [readDigits, hd]
      by_cases hover : 2 ^ 32 - 1 < v * radix + d
      · rw [if_pos hover, if_neg (Nat.not_le.2 (hover.trans_le (le_digitsFrom hradix _ ds)))]
      · rw [if_neg hover]
        exact ih _ ds (Nat.not_lt.1 hover) htail

/-- A non-digit anywhere leaves no value. -/
theorem readDigits_of_nondigit (radix v : Nat) (xs : List Byte) {y : Byte} (hy : y ∈ xs)
    (h : digitValue y radix = none) : readDigits radix v xs = none := by
  induction xs generalizing v with
  | nil => cases hy
  | cons x xs ih =>
    cases hx : digitValue x radix with
    | none => simp only [readDigits, hx]
    | some d =>
      have hmem : y ∈ xs := (List.mem_cons.1 hy).resolve_left (by rintro rfl; rw [hx] at h; cases h)
      simp only [readDigits, hx, ih _ hmem, ite_self]

/-! ### Spaces, minus and radix -/

/-- What may stand in front of the number: spaces, then at most one minus. -/
def leading (spaces : Nat) (minus : Bool) : List Byte :=
  List.replicate spaces 0x20 ++ (if minus then [0x2D] else [])

/-- The decoder drops what stands in front of the bytes `rest`, where those do not themselves go on with a space or a
minus (after a minus they may). -/
theorem dropMinus_dropWhile_leading (spaces : Nat) (minus : Bool) (rest : List Byte)
    (h : minus = true ∨ (rest.head? ≠ some 0x20 ∧ rest.head? ≠ some 0x2D)) :
    dropMinus ((leading spaces minus ++ rest).dropWhile (· == 0x20)) = rest := by
  have hspaces (bs : List Byte) :
      (List.replicate spaces (0x20 : Byte) ++ bs).dropWhile (· == 0x20) = bs.dropWhile (· == 0x20) :=
    List.dropWhile_append_of_pos fun b hb => by rw [List.eq_of_mem_replicate hb]; rfl
  rw [leading, List.append_assoc, hspaces]
  cases minus with
  | true => rfl
  | false =>
    obtain ⟨hspace, hminus⟩ := h.resolve_left Bool.false_ne_true
    cases rest with
    | nil => rfl
    | cons x xs =>
      have hx : ¬(x == 0x20) = true := fun e => hspace (congrArg some (beq_iff_eq.1 e))
      have hx' : x ≠ 0x2D := fun e => hminus (congrArg some e)
      calc dropMinus ((x :: xs).dropWhile (· == 0x20))
        _ = dropMinus (x :: xs) := by rw [List.dropWhile_cons_of_neg (p := (· == 0x20)) hx]
        _ = x :: xs := if_neg hx'

/-- The forms of a number after spaces and minus (R127): the radix, the bytes `pre` that only name it, and the bytes `xs`
that hold the digits. -/
def RadixForm (auto : Bool) (radix : Nat) (pre xs : List Byte) : Prop :=
  (auto = false ∧ radix = 10 ∧ pre = []) ∨ (auto = true ∧ radix = 16 ∧ pre = [0x30, 0x78]) ∨
    (auto = true ∧ radix = 8 ∧ pre = [] ∧ xs.head? = some 0x30 ∧ xs[1]? ≠ some 0x78) ∨
    (auto = true ∧ radix = 10 ∧ pre = [] ∧ xs.head? ≠ some 0x30)

/-- Radix detection answers the form's radix and digits. -/
theorem RadixForm.detectRadix_eq {auto : Bool} {radix : Nat} {pre xs : List Byte} (h : RadixForm auto radix pre xs) :
    detectRadix auto (pre ++ xs) = (radix, xs) := by
  rcases h with ⟨rfl, rfl, rfl⟩ | ⟨rfl, rfl, rfl⟩ | ⟨rfl, rfl, rfl, hzero, hx⟩ | ⟨rfl, rfl, rfl, hzero⟩
  case inl => rfl
  case inr.inl => rfl
  case inr.inr.inl =>
    cases xs with
    | nil => cases hzero
    | cons x rest =>
      obtain rfl : x = 0x30 := Option.some.inj hzero
      cases rest with
      | nil => rfl
      | cons y rest => rw [List.nil_append, detectRadix, if_pos rfl, if_neg fun e => hx (congrArg some e)]
  case inr.inr.inr =>
    cases xs with
    | nil => rfl
    | cons x rest =>
      have hx : x ≠ 0x30 := fun e => hzero (congrArg some e)
      cases rest with
      | nil => exact if_neg hx
      | cons y rest => exact if_neg hx

/-- A form whose first bytes name its radix starts with '0'. -/
theorem RadixForm.head_of_pre {auto : Bool} {radix : Nat} {pre xs : List Byte} (h : RadixForm auto radix pre xs)
    (hpre : pre ≠ []) : (pre ++ xs).head? = some 0x30 := by
  rcases h with ⟨-, -, e⟩ | ⟨-, -, rfl⟩ | ⟨-, -, e, -⟩ | ⟨-, -, e, -⟩
  case inr.inl => rfl
  all_goals exact absurd e hpre

/-! ### The decoder -/

/-- Neither a space nor a minus is taken from the number itself: it follows a minus, or names its radix, or its digits
start with something else. -/
def Delimited (minus : Bool) (pre xs : List Byte) : Prop :=
  minus = true ∨ pre ≠ [] ∨ (xs.head? ≠ some 0x20 ∧ xs.head? ≠ some 0x2D)

/-- The decoder runs the digit loop on the digits of the form, and an empty digit string has no value. -/
theorem parseUint_eq {auto : Bool} {radix : Nat} {pre xs : List Byte} (hform : RadixForm auto radix pre xs)
    (spaces : Nat) {minus : Bool} (h : Delimited minus pre xs) :
    parseUint (leading spaces minus ++ (pre ++ xs)) auto = if xs = [] then none else readDigits radix 0 xs := by
  have hfront : minus = true ∨ ((pre ++ xs).head? ≠ some 0x20 ∧ (pre ++ xs).head? ≠ some 0x2D) := by
    by_cases hpre : pre = []
    · rw [hpre]
      exact h.imp_right fun h' => h'.resolve_left (not_not.2 hpre)
    · rw [hform.head_of_pre hpre]
      exact .inr (by decide)
  rw [parseUint, dropMinus_dropWhile_leading spaces minus _ hfront, hform.detectRadix_eq]
  cases xs <;> rfl

/-- Digits alone are delimited, for neither a space nor a minus is one. -/
theorem delimited_of_digits (minus : Bool) (pre : List Byte) {radix : Nat} {xs : List Byte} {ds : List Nat}
    (h : xs.map (fun x => digitValue x radix) = ds.map some) : Delimited minus pre xs := by
  have hdigit (x : Byte) (hx : xs.head? = some x) : digitValue x radix ≠ none := by
    intro hnone
    have hmem : digitValue x radix ∈ ds.map some := h ▸ List.mem_map_of_mem (List.mem_of_mem_head? hx)
    rw [hnone] at hmem
    simp at hmem
  exact .inr (.inr ⟨fun e => hdigit _ e (digitValue_space radix), fun e => hdigit _ e (digitValue_minus radix)⟩)

/-- Settles O27: the decoder comes down to the digit loop on the digits of the form. -/
theorem asciiNumbersDecodeByTheirRadix : Obligations.AsciiNumbersDecodeByTheirRadix := by
  refine ⟨fun spaces minus auto radix pre xs hform => ⟨fun ds hne hds => ?_, fun y hy hnone hdel => ?_, ?_⟩,
    digitValue_eq_some_iff⟩
  · calc parseUint (leading spaces minus ++ (pre ++ xs)) auto
      _ = readDigits radix 0 xs := by
        rw [parseUint_eq hform spaces (delimited_of_digits minus pre hds), if_neg hne]
      _ = _ := readDigits_digits radix 0 xs ds (Nat.zero_le _) hds
  · calc parseUint (leading spaces minus ++ (pre ++ xs)) auto
      _ = readDigits radix 0 xs := by
        rw [parseUint_eq hform spaces hdel, if_neg (List.ne_nil_of_mem hy)]
      _ = none := readDigits_of_nondigit radix 0 xs hy hnone
  · rintro rfl
    exact parseUint_eq hform spaces (.inr (.inr (by simp)))

end Sys2Proof.Proofs.AsciiInteger

/-! ## The decimal form of a number (spec/43_sentinel_framer.md R151) -/

namespace Sys2Proof.Proofs.DecimalForm

open Sys2Proof.Machine Sys2Proof.Proofs.AsciiInteger

/-! ### The byte of a digit -/

theorem digitByte_toNat {d : Nat} (hd : d < 10) : (digitByte d).toNat = 0x30 + d := by
  rw [digitByte, BitVec.toNat_ofNat, Nat.mod_eq_of_lt (by omega)]

/-- The decoder takes the byte of a decimal digit as that digit (R128). -/
theorem digitValue_digitByte {d : Nat} (hd : d < 10) : digitValue (digitByte d) 10 = some d := by
  have hbyte := digitByte_toNat hd
  exact (digitValue_eq_some_iff _ 10 d).2 ⟨hd, .inl (by omega)⟩

/-! ### The digits of a number that is not 0 -/

/-- The decimal digits of `v` as numbers, most significant first. -/
def numerals (v : Nat) : List Nat := (Nat.digits 10 v).reverse

theorem lt_ten_of_mem_numerals {v d : Nat} (h : d ∈ numerals v) : d < 10 :=
  Nat.digits_lt_base (by decide) (List.mem_reverse.1 h)

theorem numerals_ne_nil {v : Nat} (hv : v ≠ 0) : numerals v ≠ [] := by
  rw [numerals, ne_eq, List.reverse_eq_nil_iff]
  exact Nat.digits_ne_nil_iff_ne_zero.2 hv

theorem numerals_length_le {v k : Nat} (h : v < 10 ^ k) : (numerals v).length ≤ k := by
  rw [numerals, List.length_reverse]
  exact (Nat.digits_length_le_iff (by decide) v).2 h

/-- The most significant digit is not 0. -/
theorem numerals_head {v d : Nat} (h : (numerals v).head? = some d) : d ≠ 0 := by
  rw [numerals, List.head?_reverse] at h
  obtain ⟨hne, hlast⟩ := List.mem_getLast?_eq_getLast h
  rw [hlast]
  exact Nat.getLast_digit_ne_zero 10 (Nat.digits_ne_nil_iff_ne_zero.1 hne)

/-- The digits of `v`, read from the left, make `v`. -/
theorem digitsFrom_numerals (v : Nat) : digitsFrom 10 0 (numerals v) = v := by
  calc digitsFrom 10 0 (numerals v)
    _ = (Nat.digits 10 v).foldr (fun d n => n * 10 + d) 0 := List.foldl_reverse
    _ = Nat.ofDigits 10 (Nat.digits 10 v) := by
      simp only [Nat.ofDigits_eq_foldr, Nat.cast_id, Nat.mul_comm, Nat.add_comm]
    _ = v := Nat.ofDigits_digits 10 v

/-! ### The decimal form -/

@[simp] theorem dec_zero : dec 0 = [0x30] := rfl

/-- With fuel for every digit, the model's digits are those of `v`. -/
theorem decimalDigits_eq {fuel v : Nat} (hv : v ≠ 0) (h : v < 10 ^ fuel) :
    decimalDigits fuel v = (numerals v).map digitByte := by
  induction fuel generalizing v with
  | zero => omega
  | succ fuel ih =>
    rw [decimalDigits, numerals]
    split
    next hlt => rw [Nat.digits_of_lt 10 v hv hlt]; rfl
    next hge =>
      rw [Nat.digits_def' (by decide) (Nat.pos_of_ne_zero hv), ih (by omega) (by omega), numerals,
        List.reverse_cons, List.map_append, List.map_singleton]

theorem dec_eq {v : Nat} (hv : v ≠ 0) (h : v < 2 ^ 32) : dec v = (numerals v).map digitByte :=
  decimalDigits_eq hv (by omega)

/-- Digit by digit, the decoder takes the decimal form as the digits of the number. -/
theorem map_digitValue_numerals (v : Nat) :
    ((numerals v).map digitByte).map (fun b => digitValue b 10) = (numerals v).map some := by
  rw [List.map_map]
  exact List.map_congr_left fun d hd => digitValue_digitByte (lt_ten_of_mem_numerals hd)

/-- The values of the bytes, read from the left, make the number. -/
theorem foldl_numerals (v : Nat) :
    ((numerals v).map digitByte).foldl (fun n b => n * 10 + (b.toNat - 0x30)) 0 = v := by
  rw [List.foldl_map]
  refine (List.foldl_ext _ _ 0 fun n d hd => ?_).trans (digitsFrom_numerals v)
  rw [digitByte_toNat (lt_ten_of_mem_numerals hd), Nat.add_sub_cancel_left]

/-- The decimal form of a number that is not 0 does not start with a zero. -/
theorem head_map_numerals (v : Nat) : ((numerals v).map digitByte).head? ≠ some 0x30 := by
  rw [List.head?_map]
  intro h
  obtain ⟨d, hd, hbyte⟩ := Option.map_eq_some_iff.1 h
  have hval := digitByte_toNat (lt_ten_of_mem_numerals (List.mem_of_mem_head? hd))
  rw [hbyte] at hval
  exact numerals_head hd (by simpa using hval)

/-- A number that is not 0 reads back in radix 10, with or without `auto`, because its form has no leading zero. -/
theorem parseUint_numerals {v : Nat} (auto : Bool) (hv : v ≠ 0) (h : v < 2 ^ 32) :
    parseUint ((numerals v).map digitByte) auto = some v := by
  have hform : RadixForm auto 10 [] ((numerals v).map digitByte) := by
    cases auto with
    | false => exact .inl ⟨rfl, rfl, rfl⟩
    | true => exact .inr (.inr (.inr ⟨rfl, rfl, rfl, head_map_numerals v⟩))
  have hdigits := map_digitValue_numerals v
  have hne : (numerals v).map digitByte ≠ [] := mt List.map_eq_nil_iff.1 (numerals_ne_nil hv)
  calc parseUint ((numerals v).map digitByte) auto
    _ = readDigits 10 0 ((numerals v).map digitByte) :=
      (parseUint_eq hform 0 (delimited_of_digits false [] hdigits)).trans (if_neg hne)
    _ = some v := by
      rw [readDigits_digits 10 0 _ _ (Nat.zero_le _) hdigits, digitsFrom_numerals, if_pos (by omega)]

/-- Settles O28: 0 apart, the decimal form is the bytes of the number's digits in base 10. -/
theorem decimalFormReadsBack : Obligations.DecimalFormReadsBack := by
  intro v auto hlt
  by_cases hv : v = 0
  · subst hv
    cases auto <;> decide
  · rw [dec_eq hv hlt, List.length_map]
    have hdigit : ∀ b ∈ (numerals v).map digitByte, 0x30 ≤ b.toNat ∧ b.toNat ≤ 0x39 := by
      intro b hb
      obtain ⟨d, hd, rfl⟩ := List.mem_map.1 hb
      have hten := lt_ten_of_mem_numerals hd
      rw [digitByte_toNat hten]
      omega
    exact ⟨List.length_pos_of_ne_nil (numerals_ne_nil hv), numerals_length_le (by omega), hdigit,
      foldl_numerals v, fun _ => head_map_numerals v, dec_zero, parseUint_numerals auto hv hlt⟩

end Sys2Proof.Proofs.DecimalForm

/-! ## The sentinel framer (spec/43_sentinel_framer.md R150, R152, R154 to R157, R163, R164) -/

namespace Sys2Proof.Proofs.SentinelFramer

open Sys2Proof.Machine Sys2Proof.Proofs.RingByteChannel

/-! ### The wire format -/

/-- Settles O33: the four markers are the bytes of R150, eight each. -/
theorem encodedFramesHaveTheWireFormat : Obligations.EncodedFramesHaveTheWireFormat := by
  intro p
  refine ⟨rfl, ?_⟩
  have hmarkers : beforeSize.length = 8 ∧ afterSize.length = 8 ∧ beforeChecksum.length = 8 ∧
      afterChecksum.length = 8 := ⟨rfl, rfl, rfl, rfl⟩
  simp only [encodeFrame, List.length_append]
  omega

/-! ### What a scan answers -/

/-- No span is found where one of the four searches in turn finds nothing (R154). -/
theorem findSpan_none (N : Nat) (ch : Channel) :
    findSpan N ch = none ↔
      findMarker N ch beforeSize 0 = none ∨ ∃ a1, findMarker N ch beforeSize 0 = some a1 ∧
        (findMarker N ch afterSize a1 = none ∨ ∃ a2, findMarker N ch afterSize a1 = some a2 ∧
          (findMarker N ch beforeChecksum a2 = none ∨ ∃ a3, findMarker N ch beforeChecksum a2 = some a3 ∧
            findMarker N ch afterChecksum a3 = none)) := by
  have hbind {f : Nat → Option Span} (o : Option Nat) :
      o.bind f = none ↔ o = none ∨ ∃ a, o = some a ∧ f a = none := by
    cases o <;> simp
  simp only [findSpan_eq, hbind, Option.map_eq_none_iff]

/-- The results of a committed span, by how it ends (R157). -/
def spanResults (N : Nat) (ch : Channel) (sp : Span) (cap : Nat) : Results :=
  frameResults (judgeSpan N ch sp cap).1 (judgeSpan N ch sp cap).2

theorem exec_frScan_of_none {s : State} {c : Nat} (hc : c < s.params.NCH)
    (h : findSpan s.params.N (s.channel c) = none) :
    exec (.frScan c) s = .next (s.endCommand .done { code := 1 }) := by
  rw [exec, execFrScan, withChannel_ok s c _ hc, h]
  rfl

theorem exec_frScan_of_some {s : State} {c : Nat} (hc : c < s.params.NCH) {sp : Span}
    (h : findSpan s.params.N (s.channel c) = some sp) :
    exec (.frScan c) s = .next
      ((s.setChannel c (countFrame (commitSpan s.params.N (s.channel c) sp)
        (judgeSpan s.params.N (s.channel c) sp s.arg0.toNat).1)).endCommand .done
          (spanResults s.params.N (s.channel c) sp s.arg0.toNat)) := by
  rw [exec, execFrScan, withChannel_ok s c _ hc, h]
  rfl

/-- Settles O38: a missing marker means no span, and without a span the scan only reports. -/
theorem incompleteScansKeepEverything : Obligations.IncompleteScansKeepEverything := by
  intro s c hinv hc find hmissing
  obtain ⟨hends, hsame⟩ := endCommand_endsWith s .done { code := 1 } ((inv_iff s).1 hinv).cur
  exact ⟨_, exec_frScan_of_none hc ((findSpan_none _ _).2 hmissing), hends, hsame⟩

/-! ### How a committed span ends (R155, R163) -/

/-- The decoder on a region of the unread bytes (R127). -/
theorem readUint_unread (N : Nat) (ch : Channel) (a b : Nat) (auto : Bool) (h1 : a ≤ b) (h2 : b ≤ occupied N ch) :
    readUint N ch ch.readOffset a b auto = parseUint (((unread N ch).take b).drop a) auto := by
  rw [readUint, ringBytes_region N ch ch.readOffset (occupied N ch) a b h1 h2, unread]

section Judgement

variable {N cap : Nat} {ch : Channel} {sp : Span}

/-- The size a span states: between `BEFORE_SIZE` and `AFTER_SIZE`. -/
def sizeField (N : Nat) (ch : Channel) (sp : Span) : Option Nat :=
  parseUint (((unread N ch).take (sp.a2 - 8)).drop sp.a1) true

/-- The checksum a span states: between `BEFORE_CHECKSUM` and `AFTER_CHECKSUM`. -/
def sumField (N : Nat) (ch : Channel) (sp : Span) : Option Nat :=
  parseUint (((unread N ch).take (sp.a4 - 8)).drop sp.a3) true

theorem readUint_size (h : findSpan N ch = some sp) :
    readUint N ch ch.readOffset sp.a1 (sp.a2 - 8) true = sizeField N ch sp := by
  obtain ⟨-, h12, h23, h34, h4⟩ := span_bounds N ch sp h
  exact readUint_unread N ch _ _ true (by omega) (by omega)

theorem readUint_sum (h : findSpan N ch = some sp) :
    readUint N ch ch.readOffset sp.a3 (sp.a4 - 8) true = sumField N ch sp := by
  obtain ⟨-, -, -, h34, h4⟩ := span_bounds N ch sp h
  exact readUint_unread N ch _ _ true (by omega) (by omega)

/-- A span whose size or checksum does not read is Malformed, and nothing is copied. -/
theorem spanResults_of_unreadable (h : findSpan N ch = some sp)
    (hfield : sizeField N ch sp = none ∨ sumField N ch sp = none) : spanResults N ch sp cap = { code := 2 } := by
  have hjudge : judgeSpan N ch sp cap = (.malformed, []) := by
    rw [judgeSpan, readUint_size h, readUint_sum h]
    rcases hfield with hsize | hsum
    · rw [hsize]
    · rw [hsum]
      cases sizeField N ch sp <;> rfl
  rw [spanResults, hjudge]
  rfl

/-- A span whose fields read: the size is held against the cap alone, and the checksum of that many bytes after
`AFTER_SIZE` decides between Ok and IntegrityFailure. -/
theorem spanResults_of_fields (h : findSpan N ch = some sp) {sz ck : Nat} (hsize : sizeField N ch sp = some sz)
    (hsum : sumField N ch sp = some ck) :
    spanResults N ch sp cap =
      if cap < sz then { code := 3 }
      else if (checksum (ringBytes N ch (ch.readOffset + sp.a2) sz)).toNat = ck then
        { code := 0, val0 := wrap32 sz, dout := ringBytes N ch (ch.readOffset + sp.a2) sz }
      else { code := 4, dout := ringBytes N ch (ch.readOffset + sp.a2) sz } := by
  simp only [spanResults, judgeSpan, readUint_size h, readUint_sum h, hsize, hsum]
  split
  · rfl
  · split
    · simp [frameResults, FrameEnd.number]
    · rfl

end Judgement

/-- Settles O36: the four searches give the span, and its results follow from its two fields, the cap and the
checksum. -/
theorem frScanJudgesTheSpan : Obligations.FrScanJudgesTheSpan := by
  intro s c a1 a2 a3 a4 hinv hc N ch h1 h2 h3 h4 size sum copy
  have hspan : findSpan N ch = some ⟨a1, a2, a3, a4⟩ := (findSpan_some N ch _).2 ⟨h1, h2, h3, h4⟩
  refine ⟨_, spanResults N ch ⟨a1, a2, a3, a4⟩ s.arg0.toNat, exec_frScan_of_some hc hspan,
    (setChannel_endCommand_frame rfl ((inv_iff s).1 hinv).cur).1, spanResults_of_unreadable hspan, ?_⟩
  intro sz ck hsize hsum
  rw [spanResults_of_fields hspan hsize hsum]
  refine ⟨fun hcap => if_pos hcap, fun hcap hck => ?_, fun hcap hck => ?_⟩
  · rw [if_neg (Nat.not_lt.2 hcap)]
    exact if_neg hck
  · rw [if_neg (Nat.not_lt.2 hcap)]
    exact if_pos hck

end Sys2Proof.Proofs.SentinelFramer

/-! ## The first and the byte micro-steps of the broadcast ring (spec/44_broadcast_ring.md R184, R185, R194) -/

namespace Sys2Proof.Proofs.SlotMicroSteps

open Sys2Proof.Machine

/-! ### The bytes of an item -/

/-- Byte `k` of an item: the little-endian length first, then the payload (R51, R185). -/
theorem itemBytes_getD (len : Word) (payload : List Byte) (k : Nat) :
    (itemBytes len payload).getD k 0 =
      if k < 4 then len.extractLsb' (8 * k) 8 else payload.getD (k - 4) 0 := by
  match k with
  | 0 | 1 | 2 | 3 => rfl
  | k + 4 =>
    rw [if_neg (Nat.not_lt.2 (Nat.le_add_left 4 k)), Nat.add_sub_cancel]
    rfl

/-! ### Operations in flight -/

/-- The parts of a cursor's invariant while a dequeue is in flight (R193). -/
theorem readerOpInv_deq (p : Params) (numRecv sent dropped idx : Word) (copy : List (Option Byte))
    (pending : List Nat) :
    (ReaderOp.deq sent dropped idx copy pending).inv p numRecv = true ↔
      idx.toNat = (numRecv - 1).toNat % p.Q ∧ copy.length = 4 + p.MAX ∧ pending.Nodup ∧
        (∀ o ∈ pending, o ∈ slotOffsets p idx.toNat) ∧
        ∀ o ∈ slotOffsets p idx.toNat, o ∈ pending ∨ (copy.getD (o - slotBase p idx.toNat) none).isSome = true := by
  simp [ReaderOp.inv, pendingInv, and_assoc]

/-- The offsets a writer in flight has pending lie in the image. -/
theorem pending_lt_ringBytes_of_enq {s : State} (hparts : InvParts s) {sent len : Word} {payload : List Byte}
    {pending : List Nat} (hwop : s.wop = .enq sent len payload pending) {o : Nat} (ho : o ∈ pending) :
    o < s.params.ringBytes := by
  obtain ⟨-, -, -, -, -, hslot⟩ := (writerInv_enq s sent len payload pending hwop).1 hparts.writer
  have hQ := (Params.valid_parts _ hparts.params).Q_low
  exact (slot_within _ _ _ (Nat.mod_lt _ (by omega)) (hslot o ho)).2

/-- The offsets a reader in flight has pending lie in its slot and in the image, and have their place in the copy. -/
theorem pending_place_of_deq {s : State} (hparts : InvParts s) {r : Nat} (hr : r < s.params.NRD)
    {sent dropped idx : Word} {copy : List (Option Byte)} {pending : List Nat}
    (hrop : (s.reader r).rop = .deq sent dropped idx copy pending) {o : Nat} (ho : o ∈ pending) :
    slotBase s.params idx.toNat ≤ o ∧ o - slotBase s.params idx.toNat < copy.length ∧ o < s.params.ringBytes := by
  have hop := (hparts.reader r hr).2.rop
  rw [hrop, readerOpInv_deq] at hop
  obtain ⟨hidx, hlen, -, hslot, -⟩ := hop
  have hQ := (Params.valid_parts _ hparts.params).Q_low
  have hidxQ : idx.toNat < s.params.Q := hidx ▸ Nat.mod_lt _ (by omega)
  obtain ⟨hlow, hhigh⟩ := (mem_slotOffsets _ _ _).1 (hslot o ho)
  exact ⟨hlow, by omega, (slot_within _ _ _ hidxQ (hslot o ho)).2⟩

/-! ### What the micro-steps answer -/

/-- E0: a BR_ENQ of the one writer that passes its checks puts its item in flight (R183, R184). -/
theorem exec_brEnq_ok {s : State} (hlen : s.din.length = s.params.MAX) (hvalid : s.scValid = true)
    (hwriter : s.writer = none ∨ s.writer = some s.cur) :
    exec .brEnq s = .next { s with
      writer := some s.cur
      wop := .enq s.sendCounter s.arg0 s.din (slotOffsets s.params (s.sendCounter.toNat % s.params.Q)) } := by
  rw [exec, execBrEnq, if_neg (not_not.2 hlen), if_neg (by simp [hvalid]), asWriter_ok s _ hwriter]
  rfl

theorem enqStep_of_pending {s : State} {sent len : Word} {payload : List Byte} {o : Nat} {os : List Nat}
    (hwop : s.wop = .enq sent len payload (o :: os)) (pick : Nat) :
    enqStep s pick = writeSlotByte s sent len payload (o :: os) (choosePending o os pick) := by
  rw [enqStep, hwop]

theorem deqStep_of_pending {s : State} {r : Nat} {sent dropped idx : Word} {copy : List (Option Byte)} {o : Nat}
    {os : List Nat} (hrop : (s.reader r).rop = .deq sent dropped idx copy (o :: os)) (pick : Nat) :
    deqStep s r pick = copySlotByte s r sent dropped idx copy (o :: os) (choosePending o os pick) := by
  rw [deqStep, hrop]

/-- E1 at an offset of the image (R185). -/
theorem writeSlotByte_ok {s : State} {o : Nat} (ho : o < s.params.ringBytes) (sent len : Word) (payload : List Byte)
    (pending : List Nat) :
    writeSlotByte s sent len payload pending o = .next { s with
      image := Memory.write s.image o (itemByteAt (slotBase s.params (sent.toNat % s.params.Q)) len payload o)
      wop := .enq sent len payload (pending.erase o) } :=
  if_pos ho

/-- D2 at an offset of the image (R194). -/
theorem copySlotByte_ok {s : State} {o : Nat} (ho : o < s.params.ringBytes) (r : Nat) (sent dropped idx : Word)
    (copy : List (Option Byte)) (pending : List Nat) :
    copySlotByte s r sent dropped idx copy pending o = .next (s.setReader r { s.reader r with
      rop := .deq sent dropped idx (copy.set (o - slotBase s.params idx.toNat) (some (Memory.read s.image o)))
        (pending.erase o) }) :=
  if_pos ho

/-- A micro-step that acts on the pending offset its pick names does one of them at every pick, and each of them at
some pick. -/
theorem picks_are_pending_offsets {stepAt act : Nat → StepOutcome} {effect : Nat → State → Prop} {o : Nat}
    {os : List Nat} (hstep : ∀ pick, stepAt pick = act (choosePending o os pick))
    (hact : ∀ q ∈ o :: os, ∃ t, act q = .next t ∧ effect q t) :
    (∀ pick, ∃ q t, stepAt pick = .next t ∧ effect q t) ∧
      ∀ q ∈ o :: os, ∃ pick t, stepAt pick = .next t ∧ effect q t := by
  constructor
  · intro pick
    rw [hstep pick]
    exact ⟨_, hact _ (choosePending_mem o os pick)⟩
  · intro q hq
    obtain ⟨pick, hpick⟩ := choosePending_surj o os q hq
    refine ⟨pick, ?_⟩
    rw [hstep pick, hpick]
    exact hact q hq

/-! ### The obligations -/

/-- Settles O43: the pending offsets are those of the slot, and E0 sets only the writer and `wop`. -/
theorem brEnqStartsAnEnqueue : Obligations.BrEnqStartsAnEnqueue := by
  intro s hlen hvalid hwriter
  exact ⟨_, slotOffsets s.params (s.sendCounter.toNat % s.params.Q), exec_brEnq_ok hlen hvalid hwriter, rfl,
    slotOffsets_nodup _ _, slotOffsets_length _ _, mem_slotOffsets _ _, ⟨rfl, rfl⟩, rfl, ⟨rfl, rfl, rfl, rfl⟩,
    rfl, rfl, rfl⟩

/-- Settles O44: every pending offset lies in the image, so E1 writes its byte there; the picks name exactly the
pending offsets. -/
theorem enqueuesWriteOneSlotByteAtATime : Obligations.EnqueuesWriteOneSlotByteAtATime := by
  intro s sent len payload pending hinv hwop hpending base writes
  have hparts := (inv_iff s).1 hinv
  obtain ⟨o, os, rfl⟩ := List.exists_cons_of_ne_nil hpending
  refine picks_are_pending_offsets (enqStep_of_pending hwop) fun q hq => ?_
  refine ⟨_, writeSlotByte_ok (pending_lt_ringBytes_of_enq hparts hwop hq) _ _ _ _, hq, rfl, ?_,
    fun k hk => Memory.read_write_ne _ _ _ _ hk, ⟨rfl, rfl⟩, rfl, ⟨rfl, rfl, rfl, rfl⟩, rfl, rfl⟩
  rw [Memory.read_write_same _ _ _ hparts.image_wf]
  exact itemBytes_getD len payload (q - base)

/-- Settles O50: every pending offset lies in the image and has its place in the copy, so D2 copies its byte there;
the picks name exactly the pending offsets. -/
theorem dequeuesCopyOneSlotByteAtATime : Obligations.DequeuesCopyOneSlotByteAtATime := by
  intro s r sent dropped idx copy pending hinv hr hrop hpending base copies
  have hparts := (inv_iff s).1 hinv
  obtain ⟨o, os, rfl⟩ := List.exists_cons_of_ne_nil hpending
  refine picks_are_pending_offsets (deqStep_of_pending hrop) fun q hq => ?_
  obtain ⟨hbase, hplace, himage⟩ := pending_place_of_deq hparts hr hrop hq
  exact ⟨_, copySlotByte_ok himage _ _ _ _ _ _, hq, hbase, hplace,
    s.reader_setReader_same r _ (hparts.reader r hr).1, ⟨rfl, rfl⟩, rfl, ⟨rfl, rfl, rfl, rfl⟩, rfl, rfl, rfl,
    by simp, fun p hp => s.reader_setReader_ne r p _ hp⟩

end Sys2Proof.Proofs.SlotMicroSteps

/-! ## Commands that end with an error (spec/60_exceptions.md R242) -/

namespace Sys2Proof.Proofs.ErrorEnds

open Sys2Proof.Machine

/-! ### Micro-steps that raise no error -/

/-- The executing port's command ended with DONE, or goes on: a micro-step that raises nothing leaves the port so. -/
def EndsDoneOrGoesOn (s t : State) : Prop := (t.port s.cur).status = 0 ∨ (t.port s.cur).pc = (s.port s.cur).pc

/-- A command that returns from a state whose ports and executing port are those of `s`. -/
theorem endsDoneOrGoesOn_done {s u : State} (hcur : s.cur < s.ports.length) (hports : u.ports = s.ports)
    (hu : u.cur = s.cur) (res : Results) : EndsDoneOrGoesOn s (u.endCommand .done res) := by
  obtain ⟨hport, -⟩ := endCommand_endsWith_of s u .done res hcur hports hu
  left
  rw [hport, Port.finish_status]
  rfl

/-- A micro-step that leaves the ports alone: the command goes on. -/
theorem endsDoneOrGoesOn_of_ports {s t : State} (hports : t.ports = s.ports) : EndsDoneOrGoesOn s t := by
  right
  rw [State.port, State.port, hports]

/-- The first micro-step of a command is an error end, with no other change, or it raises no error. -/
theorem exec_raised_or_endsDoneOrGoesOn {i : Instr} {s t : State} (hcur : s.cur < s.ports.length)
    (hexec : exec i s = .next t) : (∃ st : Status, st ≠ .done ∧ t = s.endCommand st {}) ∨ EndsDoneOrGoesOn s t := by
  cases exec_next i s t hexec with
  | raised st hst e => exact .inl ⟨st, hst, e⟩
  | reported res e => subst e; exact .inr (endsDoneOrGoesOn_done hcur rfl rfl res)
  | channel c ch res evs _ e => subst e; exact .inr (endsDoneOrGoesOn_done hcur rfl rfl res)
  | init _ _ e => subst e; exact .inr (endsDoneOrGoesOn_done hcur rfl rfl {})
  | enq _ _ _ _ e => subst e; exact .inr (endsDoneOrGoesOn_of_ports rfl)
  | rinit r _ _ _ _ e => subst e; exact .inr (endsDoneOrGoesOn_done hcur rfl rfl {})
  | owned r res _ _ _ e => subst e; exact .inr (endsDoneOrGoesOn_done hcur rfl rfl res)
  | empty r res _ _ _ _ e => subst e; exact .inr (endsDoneOrGoesOn_done hcur rfl rfl res)
  | deq r _ _ _ _ _ _ e => subst e; exact .inr (endsDoneOrGoesOn_of_ports rfl)

/-- E1 and E2 raise no error (R185, R186). -/
theorem enqStep_endsDoneOrGoesOn {s t : State} {pick : Nat} (hcur : s.cur < s.ports.length)
    (hstep : enqStep s pick = .next t) : EndsDoneOrGoesOn s t := by
  cases enqStep_next s t pick hstep with
  | idle _ e => subst e; exact endsDoneOrGoesOn_of_ports rfl
  | byte _ _ _ _ _ _ _ _ e => subst e; exact endsDoneOrGoesOn_of_ports rfl
  | published _ _ _ _ _ e => subst e; exact endsDoneOrGoesOn_done hcur rfl rfl {}

/-- D2, and D3 with D4, raise no error (R194 to R196). -/
theorem deqStep_endsDoneOrGoesOn {s t : State} {r pick : Nat} (hcur : s.cur < s.ports.length)
    (hstep : deqStep s r pick = .next t) : EndsDoneOrGoesOn s t := by
  cases deqStep_next s t r pick hstep with
  | idle _ e => subst e; exact endsDoneOrGoesOn_of_ports rfl
  | byte _ _ _ _ _ _ _ _ _ e => subst e; exact endsDoneOrGoesOn_of_ports rfl
  | finished _ _ _ _ _ e => rw [finishCopy] at e; cases e; exact endsDoneOrGoesOn_done hcur rfl rfl _

/-! ### The obligation -/

/-- Settles O16: among the ways a micro-step goes on, only the error end of a first one writes a STATUS other than DONE,
and it changes nothing but its port; an illegal word ends in the same way. -/
theorem errorsChangeOnlyTheResultRegisters : Obligations.ErrorsChangeOnlyTheResultRegisters := by
  refine ⟨?exec, ?illegal, fun s t pick hcur hstep hpc => ?enq, fun s t r pick hcur hstep hpc => ?deq⟩
  case exec =>
    intro i s t hcur hexec hpc hstatus
    rcases exec_raised_or_endsDoneOrGoesOn hcur hexec with ⟨st, hst, rfl⟩ | hdone | hgoes
    · obtain ⟨hends, hsame⟩ := endCommand_endsWith s st {} hcur
      exact ⟨st, hst, by rw [hends.1, Port.finish_status], hends, hsame⟩
    · exact absurd hdone hstatus
    · exact absurd hgoes hpc
  case illegal =>
    intro s a cmd ha hillegal
    cases hdecode : decode cmd.word with
    | instr i => exact absurd hdecode (hillegal i)
    | illegal why => exact DecodeFields.issue_illegal s a cmd ha hdecode
  case enq => exact (enqStep_endsDoneOrGoesOn hcur hstep).resolve_right hpc
  case deq => exact (deqStep_endsDoneOrGoesOn hcur hstep).resolve_right hpc

end Sys2Proof.Proofs.ErrorEnds

/-! ## The reset input (spec/70_reset_and_hazards.md R270) -/

namespace Sys2Proof.Proofs.ResetInput

open Sys2Proof.Machine

/-! ### An empty channel unit -/

@[simp] theorem occupied_reset (N : Nat) (ringInit : Memory) : occupied N (Channel.reset ringInit) = 0 := by
  simp [occupied, Channel.reset]

@[simp] theorem remcap_reset (N : Nat) (ringInit : Memory) : remcap N (Channel.reset ringInit) = N - 1 := by
  rw [remcap, occupied_reset, Nat.sub_zero]

/-! ### The units, cursors and ports after the reset input -/

@[simp] theorem channel_applyReset (s : State) (c : Nat) :
    s.applyReset.channel c = Channel.reset s.params.RING_INIT :=
  List.getElem?_getD_replicate_default_eq _ _ _

@[simp] theorem reader_applyReset (s : State) (r : Nat) : s.applyReset.reader r = Reader.reset :=
  List.getElem?_getD_replicate_default_eq _ _ _

@[simp] theorem port_applyReset (s : State) (a : Nat) : s.applyReset.port a = (s.port a).applyReset :=
  List.getD_map s.ports Port.reset Port.applyReset

/-- The state after power-on is one that the reset input leaves as it is. -/
theorem applyReset_resetWith (p : Params) : (State.resetWith p).applyReset = State.resetWith p := by
  have hports : (State.resetWith p).ports.map Port.applyReset = (State.resetWith p).ports := List.map_replicate
  rw [State.applyReset, hports]
  rfl

/-- A reset turn asserts the reset input on the state less the turn. -/
theorem step_reset {s : State} {ts : List Turn} (hturns : s.turns = .reset :: ts) :
    step s = .next { s with turns := ts }.applyReset := by
  rw [step, State.takeTurn, hturns]
  rfl

/-! ### The obligation -/

/-- Settles O9: the reset input sets every value of R270's table whatever the state, a reset turn asserts it, and the
state after power-on is its own image under it. -/
theorem resetSetsEveryResetValue : Obligations.ResetSetsEveryResetValue := by
  unfold Obligations.ResetSetsEveryResetValue
  intro atReset
  have hreset (s : State) : atReset s.params s.applyReset := by
    refine ⟨rfl, List.length_replicate, fun c _ => ?channel, rfl, fun k _ => rfl, List.length_replicate,
      fun r _ => ?reader, rfl, rfl, fun a _ => ?port⟩
    case channel =>
      rw [channel_applyReset]
      exact ⟨rfl, rfl, rfl, rfl, rfl, rfl, occupied_reset _ _, remcap_reset _ _⟩
    case reader =>
      rw [reader_applyReset]
      exact ⟨rfl, rfl⟩
    case port =>
      rw [port_applyReset]
      exact ⟨rfl, rfl, rfl, rfl, rfl⟩
  constructor
  · intro p _
    rw [← applyReset_resetWith]
    exact hreset (State.resetWith p)
  · intro s ts _ hturns
    exact ⟨_, step_reset hturns, hreset { s with turns := ts }, List.length_map _, rfl⟩

end Sys2Proof.Proofs.ResetInput

/-! ## Decode and encode are inverse (spec/30_encoding.md R71, R77, R80) -/

namespace Sys2Proof.Proofs.CodecRoundTrip

open Sys2Proof.Proofs.DecodeFields

/-- The command with a given opcode, UNIT and A, by the rows of R77. -/
def commandOf (opc unit : Nat) (auto : Bool) : Option Instr :=
  (opRows.find? fun row => opcField row.pattern == opc).map fun row => row.build unit auto

theorem commandOf_fields (i : Instr) : commandOf i.opc i.unit i.autoBit = some i := by
  cases i <;> rfl

/-- A command is its opcode, its unit and its A bit. -/
theorem instr_ext {i j : Instr} (hopc : i.opc = j.opc) (hunit : i.unit = j.unit) (hauto : i.autoBit = j.autoBit) :
    i = j := by
  have h := commandOf_fields i
  rw [hopc, hunit, hauto, commandOf_fields j] at h
  exact (Option.some.inj h).symm

/-- A decoded word has no illegal field, and the command has the word's fields. -/
theorem fields_of_decode {w : Word} {i : Instr} (h : decode w = .instr i) :
    ¬IllegalFields w ∧ i.opc = opcField w ∧ i.unit = unitField w ∧ i.autoBit = autoField w := by
  have hlegal : ¬IllegalFields w := fun hill => by
    obtain ⟨why, hwhy⟩ := decode_illegal hill
    rw [h] at hwhy
    cases hwhy
  obtain ⟨j, hj, hfields⟩ := decode_legal hlegal
  rw [h] at hj
  cases hj
  exact ⟨hlegal, hfields⟩

/-- The encoding of a well-formed command meets no condition of R78. -/
theorem encode_legal {i : Instr} (hwf : i.wf = true) : ¬IllegalFields (encode i) := by
  obtain ⟨hopc, hunit, hauto, hrsv⟩ := Laws.EncodeFields.of_wf i hwf
  rw [IllegalFields, hopc, hunit, hauto, hrsv, opcodes_eq]
  cases i <;> simp [Instr.opc, Instr.unit, Instr.autoBit, unitlessOpcodes]

/-- Settles O1: the encoding is legal, and decodes to the command with its fields. -/
theorem decodeOfEncodeIsTheInstruction : Obligations.DecodeOfEncodeIsTheInstruction := by
  intro i hwf
  obtain ⟨hopc, hunit, hauto, -⟩ := Laws.EncodeFields.of_wf i hwf
  obtain ⟨j, hj, hjopc, hjunit, hjauto⟩ := decode_legal (encode_legal hwf)
  rw [hj, instr_ext (hjopc.trans hopc) (hjunit.trans hunit) (hjauto.trans hauto)]

/-- Settles O2: the encoding has the four fields of the word, RSV = 0 among them. -/
theorem encodeOfDecodeIsTheWord : Obligations.EncodeOfDecodeIsTheWord := by
  intro w i hdecode
  obtain ⟨hlegal, hopc, hunit, hauto⟩ := fields_of_decode hdecode
  have hwf : i.wf = true := decide_eq_true (hunit ▸ unitField_lt w)
  have hrsv : rsvField w = 0 := not_not.1 fun h => hlegal (.inl h)
  obtain ⟨heopc, heunit, heauto, hersv⟩ := Laws.EncodeFields.of_wf i hwf
  exact ⟨(eq_iff_fields _ _).2
    ⟨heopc.trans hopc, heunit.trans hunit, heauto.trans hauto, hersv.trans hrsv.symm⟩, hwf⟩

/-- Settles O4: by evaluating the decoder on each word. -/
theorem wordsOfTheSpecDecode : Obligations.WordsOfTheSpecDecode := by
  unfold Obligations.WordsOfTheSpecDecode
  decide

end Sys2Proof.Proofs.CodecRoundTrip

/-! ## The ways a command can replace its channel unit (spec/42_ring_byte_channel.md, spec/43_sentinel_framer.md) -/

namespace Sys2Proof.Proofs.ChannelUpdates

open Sys2Proof.Machine

/-- What a command can make of its channel unit `c`: an append, a consumption, or a committed span. -/
inductive UnitNext (i : Instr) (s : State) (c : Nat) (ch : Channel) : Prop where
  /-- RB_APPEND of DIN. -/
  | appended (hi : i = .rbAppend c) (h : appendBytes s.params.N (s.channel c) s.din = some ch)
  /-- FR_APPEND of the frame of DIN. -/
  | framed (hi : i = .frAppend c) (h : appendBytes s.params.N (s.channel c) (encodeFrame s.din) = some ch)
  /-- RB_ADVANCE. -/
  | advanced (hi : i = .rbAdvance c) (hn : s.arg0.toNat ≤ occupied s.params.N (s.channel c))
      (e : ch = advanceRead s.params.N (s.channel c) s.arg0.toNat)
  /-- FR_SCAN of a span. -/
  | scanned (sp : Span) (how : FrameEnd) (hi : i = .frScan c) (hsp : findSpan s.params.N (s.channel c) = some sp)
      (e : ch = countFrame (commitSpan s.params.N (s.channel c) sp) how)

/-- The first micro-step of a command leaves every channel unit, or replaces the one it names. -/
theorem exec_channels {i : Instr} {s t : State} (e : exec i s = .next t) :
    t.channels = s.channels ∨
      ∃ c ch, i.channelUnit? = some c ∧ c < s.params.NCH ∧ t.channels = s.channels.set c ch ∧ UnitNext i s c ch := by
  cases i with
  | rbAppend c =>
    rw [exec, execRbAppend] at e
    rcases withChannel_cases s c _ with ⟨_, h'⟩ | ⟨hc, h'⟩ <;> rw [h'] at e
    · cases e; exact .inl rfl
    · rcases withDin_cases s _ with ⟨_, h'⟩ | ⟨_, h'⟩ <;> rw [h'] at e
      · cases e; exact .inl rfl
      · split at e
        next ch hch => cases e; exact .inr ⟨c, ch, rfl, hc, rfl, .appended rfl hch⟩
        next => cases e; exact .inl rfl
  | frAppend c =>
    rw [exec, execFrAppend] at e
    rcases withChannel_cases s c _ with ⟨_, h'⟩ | ⟨hc, h'⟩ <;> rw [h'] at e
    · cases e; exact .inl rfl
    · rcases withDin_cases s _ with ⟨_, h'⟩ | ⟨_, h'⟩ <;> rw [h'] at e
      · cases e; exact .inl rfl
      · split at e
        next ch hch => cases e; exact .inr ⟨c, ch, rfl, hc, rfl, .framed rfl hch⟩
        next => cases e; exact .inl rfl
  | rbAdvance c =>
    rw [exec, execRbAdvance] at e
    rcases withChannel_cases s c _ with ⟨_, h'⟩ | ⟨hc, h'⟩ <;> rw [h'] at e
    · cases e; exact .inl rfl
    · split at e
      next => cases e; exact .inl rfl
      next hn => cases e; exact .inr ⟨c, _, rfl, hc, rfl, .advanced rfl (Nat.not_lt.1 hn) rfl⟩
  | frScan c =>
    rw [exec, execFrScan] at e
    rcases withChannel_cases s c _ with ⟨_, h'⟩ | ⟨hc, h'⟩ <;> rw [h'] at e
    · cases e; exact .inl rfl
    · split at e
      next => cases e; exact .inl rfl
      next sp hsp => cases e; exact .inr ⟨c, _, rfl, hc, rfl, .scanned sp _ rfl hsp rfl⟩
  | rbRemcap c =>
    rw [exec, execRbRemcap] at e
    rcases withChannel_cases s c _ with ⟨_, h'⟩ | ⟨_, h'⟩ <;> rw [h'] at e <;> cases e <;> exact .inl rfl
  | rbFind c =>
    rw [exec, execRbFind] at e
    rcases withChannel_cases s c _ with ⟨_, h'⟩ | ⟨_, h'⟩ <;> rw [h'] at e
    · cases e; exact .inl rfl
    · split at e
      · cases e; exact .inl rfl
      · split at e <;> cases e <;> exact .inl rfl
  | rbReaduint c auto =>
    rw [exec, execRbReaduint] at e
    rcases withChannel_cases s c _ with ⟨_, h'⟩ | ⟨_, h'⟩ <;> rw [h'] at e
    · cases e; exact .inl rfl
    · split at e
      · cases e; exact .inl rfl
      · split at e <;> cases e <;> exact .inl rfl
  | cksum | regRead | brInit | brEnq | brRinit _ | brDeq _ | brIsempty _ =>
    left
    cases exec_next _ s t e with
    | channel _ _ _ _ hi _ => cases hi
    | raised _ _ e | reported _ e | init _ _ e | enq _ _ _ _ e | rinit _ _ _ _ _ e | owned _ _ _ _ _ e
      | empty _ _ _ _ _ _ e | deq _ _ _ _ _ _ _ e => subst e; rfl

/-- What a command makes of its channel unit keeps the unit's invariant. -/
theorem UnitNext.inv {i : Instr} {s : State} {c : Nat} {ch : Channel} (h : UnitNext i s c ch)
    (hinv : (s.channel c).inv s.params.N = true) : ch.inv s.params.N = true := by
  rw [Channel.inv_iff] at hinv ⊢
  obtain ⟨hwf, hbelow, hw, hr⟩ := hinv
  have hN : 0 < s.params.N := by omega
  cases h with
  | appended _ h => exact append_keeps _ _ _ _ hwf hbelow hr h
  | framed _ h => exact append_keeps _ _ _ _ hwf hbelow hr h
  | advanced _ _ e => subst e; exact ⟨hwf, hbelow, hw, Nat.mod_lt _ hN⟩
  | scanned sp how _ _ e =>
    subst e
    obtain ⟨hdata, hwo, hro, -⟩ := committed_offsets s.params.N (s.channel c) sp how
    rw [hdata, hwo, hro]
    exact ⟨hwf, hbelow, hw, Nat.mod_lt _ hN⟩

end Sys2Proof.Proofs.ChannelUpdates

/-! ## The invariant (spec/10_state.md, spec/20_memory.md R50) -/

namespace Sys2Proof.Proofs.Invariant

open Sys2Proof.Machine Sys2Proof.Proofs.ChannelUpdates Sys2Proof.Proofs.SlotMicroSteps

/-! ### At reset -/

theorem parts_resetWith {p : Params} (h : p.valid = true) : InvParts (State.resetWith p) := by
  have hp := Params.valid_parts p h
  obtain ⟨hswf, hsbelow, -⟩ := cellsWithin_wf _ _ _ hp.slot
  obtain ⟨hrwf, hrbelow, -⟩ := cellsWithin_wf _ _ _ hp.ring
  have hN := hp.N_low
  have hreader (r : Nat) : (State.resetWith p).reader r = Reader.reset :=
    List.getElem?_getD_replicate_default_eq _ _ _
  refine { params := h, channels_length := List.length_replicate, channels := fun ch hch => ?channels,
           image_wf := hswf, image_below := hsbelow, readers_length := List.length_replicate,
           readers := fun rd hrd => ?readers, ports_length := List.length_replicate, cur := ?cur,
           writer_port := fun _ ha => (nomatch ha), counter := fun hv => (nomatch hv), uncounted := fun _ => rfl,
           writer := rfl, lags_length := List.length_replicate, lags := fun r _ hv => ?lags }
  case channels =>
    rw [List.eq_of_mem_replicate hch, Channel.inv_iff]
    exact ⟨hrwf, hrbelow, Nat.lt_of_lt_of_le Nat.zero_lt_two hN, Nat.lt_of_lt_of_le Nat.zero_lt_two hN⟩
  case readers =>
    rw [List.eq_of_mem_replicate hrd]
    rfl
  case cur =>
    show 0 < (List.replicate _ _).length
    rw [List.length_replicate]
    omega
  case lags =>
    rw [hreader] at hv
    cases hv

theorem parts_applyReset {s : State} (h : InvParts s) : InvParts s.applyReset := by
  have hlen : s.applyReset.ports.length = (State.resetWith s.params).ports.length :=
    (List.length_map _).trans (h.ports_length.trans List.length_replicate.symm)
  refine (parts_resetWith h.params).of_same rfl rfl rfl rfl rfl rfl rfl rfl hlen ?_ rfl
  rw [hlen]
  exact (parts_resetWith h.params).cur

/-! ### Updates that keep the invariant -/

section Updates

variable {s : State}

theorem parts_withChannels (h : InvParts s) {chs : List Channel} (hlen : chs.length = s.params.NCH)
    (hall : ∀ ch ∈ chs, ch.inv s.params.N = true) : InvParts { s with channels := chs } :=
  { h with channels_length := hlen, channels := hall }

/-- A write to the image outside the counter. -/
theorem parts_withImage (h : InvParts s) {m : Memory} (hwf : Memory.wf m = true)
    (hbelow : Memory.below s.params.ringBytes m = true) (hword : readWord m 0 = s.sendCounter) :
    InvParts { s with image := m } := by
  have hsc : State.sendCounter { s with image := m } = s.sendCounter := hword
  refine { h with image_wf := hwf, image_below := hbelow, counter := fun hv => hsc.trans (h.counter hv), writer := ?_ }
  rw [writerInv_congr s { s with image := m } rfl rfl rfl hsc rfl]
  exact h.writer

theorem parts_withWop (h : InvParts s) {w : WriterOp} (hw : State.writerInv { s with wop := w } = true) :
    InvParts { s with wop := w } :=
  { h with writer := hw }

/-- Another agent executes. -/
theorem parts_withCur (h : InvParts s) {a : Nat} (ha : a < s.ports.length) (ts : List Turn) (n : Choices) :
    InvParts { s with turns := ts, choices := n, cur := a } :=
  h.of_same rfl rfl rfl rfl rfl rfl rfl rfl rfl ha rfl

theorem parts_withTurns (h : InvParts s) (ts : List Turn) (n : Choices) :
    InvParts { s with turns := ts, choices := n } :=
  h.of_same rfl rfl rfl rfl rfl rfl rfl rfl rfl h.cur rfl

theorem parts_owning (h : InvParts s) (r : Nat) (hr : r < s.params.NRD) : InvParts (s.owning r) :=
  h.setReader r _ ((h.reader r hr).2.own h.cur) (h.lags r hr)

/-- BR_INIT, with nothing of the writer in flight. -/
theorem parts_zeroCounter (h : InvParts s) (hidle : s.wop = .idle) : InvParts (zeroCounter s) := by
  refine { h with image_wf := writeWord_wf _ _ _ h.image_wf, image_below := writeWord_below _ _ _ _ h.image_below ?_,
                  readers := fun rd hrd => ?readers, counter := fun _ => readWord_writeWord _ _ _ h.image_wf,
                  uncounted := fun hv => (nomatch hv), writer := writerInv_idle _ hidle, lags_length := ?lagsLength,
                  lags := fun r hr hv => ?lags }
  · exact Params.ringBytes_ge _
  case readers =>
    have hrd := (Reader.inv_iff s rd).1 (h.readers rd hrd)
    exact (Reader.inv_iff _ rd).2 { hrd with used := fun hop => ⟨(hrd.used hop).1, rfl, (hrd.used hop).2.2⟩ }
  case lagsLength => rw [zeroCounter_lags, forgetLeft_length]; exact h.lags_length
  case lags =>
    rw [items_zeroCounter]
    exact Nat.lt_of_le_of_lt (Nat.le_add_left _ _) (h.lags r hr hv)

/-- E2, where it laps no reader. -/
theorem parts_storeNext (h : InvParts s) (hsc : s.scValid = true) (hlap : s.lapsReader = false) :
    InvParts (storeNext s s.sendCounter) := by
  refine { h with image_wf := writeWord_wf _ _ _ h.image_wf, image_below := writeWord_below _ _ _ _ h.image_below ?_,
                  counter := fun _ => ?counter, uncounted := fun hv => ?uncounted, writer := rfl,
                  lags_length := ?lagsLength, lags := fun r hr hv => ?lags }
  · exact Params.ringBytes_ge _
  case counter =>
    calc readWord (writeWord s.image 0 (s.sendCounter + 1)) 0
      _ = s.sendCounter + 1 := readWord_writeWord _ _ _ h.image_wf
      _ = wrap32 s.published + wrap32 1 := by rw [h.counter hsc]; rfl
      _ = wrap32 (s.published + 1) := (BitVec.ofNat_add _ _).symm
  case uncounted =>
    rw [storeNext_scValid, hsc] at hv
    cases hv
  case lagsLength => rw [storeNext_lags, countEnqueue_length]; exact h.lags_length
  case lags =>
    rw [items_storeNext _ _ _ (by rw [h.lags_length]; exact hr)]
    by_contra hfar
    have hlaps := (lapsReader_iff s).2 ⟨r, (h.reader r hr).1, hv, Nat.not_lt.1 hfar⟩
    rw [hlap] at hlaps
    cases hlaps

/-- BR_RINIT of a cursor with no dequeue in flight. -/
theorem parts_zeroCursor (h : InvParts s) {r : Nat} (hr : r < s.params.NRD) (hidle : (s.reader r).rop = .idle)
    (hpub : s.published < 2 ^ 32) : InvParts (zeroCursor s r) := by
  obtain ⟨-, hrd⟩ := h.reader r hr
  have hset := (h.setLag r s.published hpub).setReader r
    { s.reader r with numRecv := 0, valid := true, received := 0 }
    { numRecv := fun _ => rfl, used := fun hop => absurd hidle hop, owner_port := hrd.owner_port, rop := ?rop }
    fun _ => ?lag
  · exact hset
  case rop => rw [hidle]; rfl
  case lag =>
    rw [State.lag_setLag_same _ _ _ (by rw [h.lags_length]; exact hr)]
    simpa [Lag.items] using hpub

/-- The slot that a cursor takes from (R193). -/
theorem wrap32_mod_toNat {p : Params} (h : p.valid = true) (n : Nat) : (wrap32 (n % p.Q)).toNat = n % p.Q := by
  have hp := Params.valid_parts p h
  have hlow := hp.Q_low
  have hhigh := hp.Q_high
  have := Nat.mod_lt n (show 0 < p.Q by omega)
  rw [wrap32, BitVec.toNat_ofNat, Nat.mod_eq_of_lt (by omega)]

/-- D1 of a cursor in use. -/
theorem parts_startCopy (h : InvParts s) {r : Nat} (hr : r < s.params.NRD) (hvalid : (s.reader r).valid = true)
    (hsc : s.scValid = true) (hown : (s.reader r).owner.isSome = true) (sent unseen : Word) :
    InvParts (startCopy s r sent unseen) := by
  obtain ⟨-, hrd⟩ := h.reader r hr
  refine InvParts.setLag (InvParts.setReader h r _ ?_ fun _ => h.lags r hr hvalid) r _ (BitVec.isLt _)
  refine { numRecv := fun _ => ?numRecv, used := fun _ => ⟨hvalid, hsc, hown⟩, owner_port := hrd.owner_port,
           rop := ?rop }
  case numRecv =>
    simp only [hrd.numRecv hvalid, wrap32, BitVec.ofNat_add, BitVec.ofNat_toNat, BitVec.setWidth_eq]
    rfl
  case rop =>
    refine (readerOpInv_deq _ _ _ _ _ _ _).2
      ⟨wrap32_mod_toNat h.params _, List.length_replicate, slotOffsets_nodup _ _, fun _ ho => ho, fun _ ho => .inl ho⟩

/-- E1 of one pending byte. -/
theorem parts_writeByte (h : InvParts s) {sent len : Word} {payload : List Byte} {pending : List Nat} {q : Nat}
    (hwop : s.wop = .enq sent len payload pending) (hq : q ∈ pending) (b : Byte) :
    InvParts { s with image := Memory.write s.image q b, wop := .enq sent len payload (pending.erase q) } := by
  obtain ⟨hsc, hwr, hsent, hlen, hnodup, hslot⟩ := (writerInv_enq s sent len payload pending hwop).1 h.writer
  have hQ := (Params.valid_parts _ h.params).Q_low
  obtain ⟨hlow, hhigh⟩ := slot_within _ _ _ (Nat.mod_lt _ (by omega)) (hslot q hq)
  have hword : readWord (Memory.write s.image q b) 0 = s.sendCounter :=
    readWord_write_outside _ _ _ _ (.inr hlow)
  have himage := parts_withImage h (Memory.write_wf _ _ _ h.image_wf) (Memory.write_below _ _ _ _ h.image_below hhigh)
    hword
  refine parts_withWop himage ((writerInv_enq _ sent len payload _ rfl).2
    ⟨hsc, hwr, hsent.trans hword.symm, hlen, hnodup.erase q, fun o ho => hslot o (List.mem_of_mem_erase ho)⟩)

/-- D2 of one pending byte. -/
theorem parts_copyByte (h : InvParts s) {r : Nat} (hr : r < s.params.NRD) {sent dropped idx : Word}
    {copy : List (Option Byte)} {pending : List Nat} {q : Nat}
    (hrop : (s.reader r).rop = .deq sent dropped idx copy pending) (hq : q ∈ pending) (b : Byte) :
    InvParts (s.setReader r { s.reader r with
      rop := .deq sent dropped idx (copy.set (q - slotBase s.params idx.toNat) (some b)) (pending.erase q) }) := by
  obtain ⟨-, hrd⟩ := h.reader r hr
  obtain ⟨hbase, hplace, -⟩ := pending_place_of_deq h hr hrop hq
  have hused := hrd.used (by rw [hrop]; exact fun e => nomatch e)
  have hop := hrd.rop
  rw [hrop, readerOpInv_deq] at hop
  obtain ⟨hidx, hlen, hnodup, hslot, hcopied⟩ := hop
  refine h.setReader r _ { numRecv := hrd.numRecv, used := fun _ => hused, owner_port := hrd.owner_port, rop := ?_ }
    fun _ => h.lags r hr hused.1
  refine (readerOpInv_deq _ _ _ _ _ _ _).2
    ⟨hidx, List.length_set.trans hlen, hnodup.erase q, fun o ho => hslot o (List.mem_of_mem_erase ho), fun o ho => ?_⟩
  by_cases hoq : o = q
  · subst hoq
    rw [getD_set_same _ _ _ _ hplace]
    exact .inr rfl
  · have hne : o - slotBase s.params idx.toNat ≠ q - slotBase s.params idx.toNat := by
      have := ((mem_slotOffsets _ _ _).1 ho).1
      omega
    rw [getD_set_ne _ _ _ _ _ hne]
    exact (hcopied o ho).imp_left fun ho' => (List.mem_erase_of_ne hoq).2 ho'

/-- A dequeue that ends. -/
theorem parts_idleReader (h : InvParts s) {r : Nat} (hr : r < s.params.NRD) :
    InvParts (s.setReader r { s.reader r with rop := .idle }) := by
  obtain ⟨-, hrd⟩ := h.reader r hr
  exact h.setReader r _ { numRecv := hrd.numRecv, used := fun hop => absurd rfl hop, owner_port := hrd.owner_port,
                          rop := rfl } (h.lags r hr)

end Updates

/-! ### Micro-steps that keep the invariant -/

/-- The executing port has no command in flight. -/
structure NothingInFlight (s : State) : Prop where
  writer : s.writer = some s.cur → s.wop = .idle
  reader : ∀ r, (s.reader r).owner = some s.cur → (s.reader r).rop = .idle

/-- An enqueue in flight is never nobody's, so whoever may be the writer finds nothing in flight. -/
theorem NothingInFlight.wop_idle {s : State} (h : NothingInFlight s) (hinv : InvParts s)
    (hw : s.writer = none ∨ s.writer = some s.cur) : s.wop = .idle := by
  rcases hw with hw | hw
  · cases hop : s.wop with
    | idle => rfl
    | enq sent len payload pending =>
      obtain ⟨-, hsome, -⟩ := (writerInv_enq s sent len payload pending hop).1 hinv.writer
      rw [hw] at hsome
      cases hsome
  · exact h.writer hw

/-- A dequeue in flight is never nobody's, so whoever may use the cursor finds nothing in flight. -/
theorem NothingInFlight.rop_idle {s : State} (h : NothingInFlight s) (hinv : InvParts s) {r : Nat}
    (hr : r < s.params.NRD) (ho : (s.reader r).owner = none ∨ (s.reader r).owner = some s.cur) :
    (s.reader r).rop = .idle := by
  rcases ho with ho | ho
  · by_contra hop
    obtain ⟨-, -, hsome⟩ := (hinv.reader r hr).2.used hop
    rw [ho] at hsome
    cases hsome
  · exact h.reader r ho

/-- The cursor just taken. -/
theorem reader_owning {s : State} {r : Nat} (hr : r < s.readers.length) :
    (s.owning r).reader r = { s.reader r with owner := some s.cur } :=
  s.reader_setReader_same r _ hr

theorem exec_keeps {i : Instr} {s t : State} (h : InvParts s) (hfree : NothingInFlight s) (e : exec i s = .next t) :
    InvParts t := by
  cases exec_next i s t e with
  | raised st _ e => subst e; exact h.endCommand st {}
  | reported res e => subst e; exact h.endCommand .done res
  | channel c ch res evs _ e' =>
    have hchannels := parts_withChannels (chs := t.channels) h ?len ?all
    · subst e'
      exact (hchannels.of_same (t := { s.setChannel c ch with events := evs }) rfl rfl rfl rfl rfl rfl rfl rfl rfl
        h.cur rfl).endCommand .done res
    case len => rw [e']; simpa using h.channels_length
    case all =>
      rcases exec_channels e with hsame | ⟨d, ch', -, hd, hset, hnext⟩
      · rw [hsame]; exact h.channels
      · rw [hset]
        exact (h.setChannel d ch' (hnext.inv (h.channel d hd).2)).channels
  | init _ hw e =>
    subst e
    exact (parts_zeroCounter h.asWriter (hfree.wop_idle h hw)).endCommand .done {}
  | enq _ hlen hsc hw e =>
    subst e
    exact parts_withWop h.asWriter ((writerInv_enq _ _ _ _ _ rfl).2
      ⟨hsc, rfl, rfl, hlen, slotOffsets_nodup _ _, fun _ ho => ho⟩)
  | rinit r _ hr hpub ho e =>
    subst e
    have hidle : ((s.owning r).reader r).rop = .idle := by
      rw [reader_owning (h.reader r hr).1]
      exact hfree.rop_idle h hr ho
    exact (parts_zeroCursor (parts_owning h r hr) hr hidle hpub).endCommand .done {}
  | owned r res _ hr _ e => subst e; exact (parts_owning h r hr).endCommand .done res
  | empty r res _ hr _ _ e =>
    subst e
    exact ((parts_owning h r hr).setLag r 0 (by decide)).endCommand .done res
  | deq r _ hr _ hv hsc _ e =>
    subst e
    have hrd := reader_owning (s := s) (h.reader r hr).1
    exact parts_startCopy (parts_owning h r hr) hr (by rw [hrd]; exact hv) hsc (by rw [hrd]; rfl) _ _

theorem enqStep_keeps {s t : State} {pick : Nat} (h : InvParts s) (e : enqStep s pick = .next t) : InvParts t := by
  cases enqStep_next s t pick e with
  | idle _ e => subst e; exact h
  | byte sent len payload pending q hwop hq _ e => subst e; exact parts_writeByte h hwop hq _
  | published sent len payload hwop hl e =>
    subst e
    obtain ⟨hsc, -, rfl, -⟩ := (writerInv_enq s sent len payload [] hwop).1 h.writer
    exact ((parts_storeNext h hsc hl).emit .itemEnqueued).endCommand .done {}

theorem deqStep_keeps {s t : State} {r pick : Nat} (h : InvParts s) (hr : r < s.params.NRD)
    (e : deqStep s r pick = .next t) : InvParts t := by
  cases deqStep_next s t r pick e with
  | idle _ e => subst e; exact h
  | byte sent dropped idx copy pending q hrop hq _ e => subst e; exact parts_copyByte h hr hrop hq _
  | finished sent dropped idx copy _ e =>
    rw [finishCopy] at e
    cases e
    exact (parts_idleReader h hr).endCommand .done _

/-- An agent that issues a command has nothing in flight when the command executes. -/
theorem nothingInFlight_present {s : State} {a : Nat} (ts : List Turn) (n : Choices) (cmd : Command)
    (hf : s.inFlight a = .nothing) : NothingInFlight (State.present { s with turns := ts, choices := n } a cmd) := by
  obtain ⟨hw, hr⟩ := inFlight_nothing s a hf
  exact ⟨hw, hr⟩

theorem step_keeps {s t : State} (h : InvParts s) (e : step s = .next t) : InvParts t := by
  cases step_kind s _ e with
  | idle ts n _ e => cases e; exact parts_withTurns h ts n
  | reset ts n _ e => cases e; exact parts_applyReset (parts_withTurns h ts n)
  | enq ts n a pick _ hf e =>
    exact enqStep_keeps (parts_withCur h (h.writer_port a (inFlight_enq s a hf).1) ts n) e
  | deq ts n a r pick _ hf e =>
    obtain ⟨hr, ho, -⟩ := inFlight_deq s a r hf
    rw [h.readers_length] at hr
    exact deqStep_keeps (parts_withCur h ((h.reader r hr).2.owner_port a ho) ts n) hr e
  | command ts n a cmd i hi hc _ e =>
    exact exec_keeps ((parts_withTurns h ts n).present a cmd (nextLine_port s a _ hc))
      (nothingInFlight_present ts n cmd hi.2.1) e
  | illegal ts n a cmd _ _ _ hc _ e =>
    cases e
    exact ((parts_withTurns h ts n).present a cmd (nextLine_port s a _ hc)).endCommand .illegalCommand {}
  | host ts n a line _ _ _ e => cases e; exact (parts_withTurns h ts n).setPort a _

/-! ### No access outside the image -/

/-- The outcome is no fault. -/
def NoFault (o : StepOutcome) : Prop := ∀ f, o ≠ .fault f

theorem noFault_next (t : State) : NoFault (.next t) := fun _ e => nomatch e

theorem noFault_refused (e : Refusal) : NoFault (.refused e) := fun _ e => nomatch e

theorem noFault_withChannel (s : State) (c : Nat) {k : Channel → StepOutcome} (h : ∀ ch, NoFault (k ch)) :
    NoFault (s.withChannel c k) := by
  rcases withChannel_cases s c k with ⟨_, e⟩ | ⟨_, e⟩ <;> rw [e]
  · exact noFault_next _
  · exact h _

theorem noFault_withReader (s : State) (r : Nat) {k : Reader → StepOutcome} (h : ∀ rd, NoFault (k rd)) :
    NoFault (s.withReader r k) := by
  rcases withReader_cases s r k with ⟨_, e⟩ | ⟨_, e⟩ <;> rw [e]
  · exact noFault_next _
  · exact h _

theorem noFault_withDin (s : State) {k : List Byte → StepOutcome} (h : ∀ din, NoFault (k din)) :
    NoFault (s.withDin k) := by
  rcases withDin_cases s k with ⟨_, e⟩ | ⟨_, e⟩ <;> rw [e]
  · exact noFault_next _
  · exact h _

theorem noFault_asWriter (s : State) {k : State → StepOutcome} (h : ∀ u, NoFault (k u)) : NoFault (s.asWriter k) := by
  rcases asWriter_cases s k with ⟨_, e⟩ | ⟨_, _, _, e⟩ <;> rw [e]
  · exact h _
  · exact noFault_refused _

theorem noFault_asReader (s : State) (r : Nat) {k : State → StepOutcome} (h : ∀ u, NoFault (k u)) :
    NoFault (s.asReader r k) := by
  rcases asReader_cases s r k with ⟨_, e⟩ | ⟨_, _, _, e⟩ <;> rw [e]
  · exact h _
  · exact noFault_refused _

/-- The first micro-step of a command accesses no slot byte. -/
theorem exec_noFault (i : Instr) (s : State) : NoFault (exec i s) := by
  cases i with
  | cksum => exact noFault_withDin s fun _ => noFault_next _
  | regRead => rw [exec, execRegRead]; split <;> exact noFault_next _
  | rbRemcap c => exact noFault_withChannel s c fun _ => noFault_next _
  | rbAppend c =>
    refine noFault_withChannel s c fun _ => noFault_withDin s fun _ => ?_
    split <;> exact noFault_next _
  | rbFind c =>
    rw [exec, execRbFind]
    refine noFault_withChannel s c fun _ => ?_
    split
    · exact noFault_next _
    · split <;> exact noFault_next _
  | rbReaduint c auto =>
    rw [exec, execRbReaduint]
    refine noFault_withChannel s c fun _ => ?_
    split
    · exact noFault_next _
    · split <;> exact noFault_next _
  | rbAdvance c =>
    rw [exec, execRbAdvance]
    refine noFault_withChannel s c fun _ => ?_
    split <;> exact noFault_next _
  | frAppend c =>
    refine noFault_withChannel s c fun _ => noFault_withDin s fun _ => ?_
    split <;> exact noFault_next _
  | frScan c =>
    rw [exec, execFrScan]
    refine noFault_withChannel s c fun _ => ?_
    split <;> exact noFault_next _
  | brInit => exact noFault_asWriter s fun _ => noFault_next _
  | brEnq =>
    rw [exec, execBrEnq]
    split
    · exact noFault_next _
    · split
      · exact noFault_next _
      · exact noFault_asWriter s fun _ => noFault_next _
  | brRinit r =>
    refine noFault_withReader s r fun _ => noFault_asReader s r fun _ => ?_
    split
    · exact noFault_refused _
    · exact noFault_next _
  | brDeq r =>
    rw [exec, execBrDeq]
    refine noFault_withReader s r fun _ => ?_
    split
    · exact noFault_next _
    · refine noFault_asReader s r fun _ => ?_
      split <;> exact noFault_next _
  | brIsempty r =>
    rw [exec, execBrIsempty]
    refine noFault_withReader s r fun _ => ?_
    split
    · exact noFault_next _
    · exact noFault_asReader s r fun _ => noFault_next _

/-- The offsets an enqueue has pending lie in the image. -/
theorem enqStep_noFault {s : State} (h : InvParts s) (pick : Nat) : NoFault (enqStep s pick) := by
  rw [enqStep]
  split
  · exact noFault_next _
  · rw [publishItem]
    split
    · exact noFault_refused _
    · exact noFault_next _
  next hwop =>
    rw [writeSlotByte_ok (pending_lt_ringBytes_of_enq h hwop (choosePending_mem _ _ _))]
    exact noFault_next _

/-- The offsets a dequeue has pending lie in the image. -/
theorem deqStep_noFault {s : State} (h : InvParts s) {r : Nat} (hr : r < s.params.NRD) (pick : Nat) :
    NoFault (deqStep s r pick) := by
  rw [deqStep]
  split
  · exact noFault_next _
  · exact noFault_next _
  next hrop =>
    rw [copySlotByte_ok (pending_place_of_deq h hr hrop (choosePending_mem _ _ _)).2.2]
    exact noFault_next _

/-! ### The obligations -/

/-- Settles O10: every memory, unit, cursor and port is at its reset value. -/
theorem resetMeetsTheInvariant : Obligations.ResetMeetsTheInvariant := by
  have hreset (p : Params) (hp : p.valid = true) : (State.resetWith p).inv = true :=
    (inv_iff _).2 (parts_resetWith hp)
  exact ⟨hreset, hreset Params.vectors (by decide)⟩

/-- Settles O11: by the kind of step; each keeps every part of the invariant. -/
theorem everyStepKeepsTheInvariant : Obligations.EveryStepKeepsTheInvariant := fun s t hinv e =>
  (inv_iff t).2 (step_keeps ((inv_iff s).1 hinv) e)

/-- Settles O12: only the byte micro-steps access a slot, at pending offsets, which lie in the image. -/
theorem invariantStatesNeverFault : Obligations.InvariantStatesNeverFault := by
  intro s hinv f e
  have h := (inv_iff s).1 hinv
  cases step_kind s _ e with
  | idle _ _ _ e | reset _ _ _ e | illegal _ _ _ _ _ _ _ _ _ e | host _ _ _ _ _ _ _ e => cases e
  | enq ts n a pick _ hf e =>
    exact enqStep_noFault (parts_withCur h (h.writer_port a (inFlight_enq s a hf).1) ts n) pick f e
  | deq ts n a r pick _ hf e =>
    obtain ⟨hr, ho, -⟩ := inFlight_deq s a r hf
    rw [h.readers_length] at hr
    exact deqStep_noFault (parts_withCur h ((h.reader r hr).2.owner_port a ho) ts n) hr pick f e
  | command ts n a cmd i _ _ _ e => exact exec_noFault i _ f e

end Sys2Proof.Proofs.Invariant

/-! ## Whose turn it is (spec/20_memory.md R58, R59; spec/30_encoding.md R70, R83; spec/60_exceptions.md R251, R259) -/

namespace Sys2Proof.Proofs.Turns

open Sys2Proof.Machine

/-! ### A step by the turn laid down -/

theorem step_of_turn {s : State} {turn : Turn} {ts : List Turn} (h : s.turns = turn :: ts) :
    step s = takeMove turn { s with turns := ts } := by
  rw [step, State.takeTurn, h]

theorem step_of_no_turn {s : State} (h : s.turns = []) :
    (s.active = [] → step s = .next s) ∧
      ∀ a as, s.active = a :: as →
        step s = moveAgent { s with choices := s.nextChoices } (s.chooseAgent a as) (Config.freePick s.choices.made) := by
  constructor
  · intro hactive
    rw [step, State.takeTurn, h, hactive]
    rfl
  · intro a as hactive
    rw [step, State.takeTurn, h, hactive]
    rfl

theorem moveAgent_of_nothing {s : State} {a : Nat} (h : s.inFlight a = .nothing) (pick : Nat) :
    moveAgent s a pick = runLine s a := by
  rw [moveAgent, h]

theorem runLine_of_none {s : State} {a : Nat} (h : s.nextLine a = none) : runLine s a = .next s := by
  rw [runLine, h]

theorem runLine_of_instr {s : State} {a : Nat} {cmd : Command} {i : Instr} (h : s.nextLine a = some (.command cmd))
    (hdecode : decode cmd.word = .instr i) : runLine s a = exec i (s.present a cmd) := by
  rw [runLine, h]
  simp only [issue, hdecode]

theorem runLine_of_host {s : State} {a : Nat} {line : Line} (h : s.nextLine a = some line)
    (hhost : ∀ cmd, line ≠ .command cmd) : runLine s a = .next (s.runHostLine a line) := by
  rw [runLine, h]
  cases line with
  | command cmd => exact absurd rfl (hhost cmd)
  | bcode | bncode | bstat | halt => rfl

/-- The port of a host line, after it. -/
theorem runHostLine_port {s : State} {a : Nat} (line : Line) (ha : a < s.ports.length) :
    (s.runHostLine a line).port a = { s.port a with pc := line.nextPc (s.port a) } :=
  s.port_setPort_same a _ ha

/-- Settles O5: the turn's agent runs its line, and presenting changes the operands of its port alone. -/
theorem stepIssuesTheDecodedCommand : Obligations.StepIssuesTheDecodedCommand := by
  intro s a pick ts cmd i hturns hfree hline hdecode
  have ha : a < s.ports.length := nextLine_port s a _ hline
  let v : State := { s with turns := ts }
  have hport : (v.present a cmd).port a = { s.port a with arg0 := cmd.arg0, arg1 := cmd.arg1, din := cmd.din } :=
    v.present_port a cmd ha
  have hstep : step s = exec i (v.present a cmd) := by
    rw [step_of_turn hturns, takeMove, moveAgent_of_nothing (s := v) hfree, runLine_of_instr (s := v) hline hdecode]
  refine ⟨_, rfl, hstep, rfl, v.present_arg0 a cmd ha, v.present_arg1 a cmd ha, v.present_din a cmd ha, ?_, ?_,
    fun b hb => v.port_setPort_ne a b _ hb, rfl, ⟨rfl, rfl, rfl, rfl, rfl, rfl, rfl⟩, rfl, rfl, rfl, rfl⟩ <;>
    rw [hport]

/-- Settles O6: by what the port has in flight. -/
theorem stepContinuesTheCommandInFlight : Obligations.StepContinuesTheCommandInFlight := by
  intro s a pick ts hturns
  let v : State := { s with turns := ts }
  refine ⟨fun hflight => ?_, fun r hflight => ?_⟩
  · obtain ⟨hwriter, hwop⟩ := inFlight_enq s a hflight
    have hv : v.inFlight a = .enq := hflight
    refine ⟨hwriter, hwop, ?_⟩
    rw [step_of_turn hturns, takeMove, moveAgent, hv]
  · obtain ⟨-, howner, hrop⟩ := inFlight_deq s a r hflight
    have hv : v.inFlight a = .deq r := hflight
    refine ⟨howner, hrop, ?_⟩
    rw [step_of_turn hturns, takeMove, moveAgent, hv]

/-- Settles O7: the line moves its port's index to where `Line.nextPc` says. -/
theorem stepRunsAHostLine : Obligations.StepRunsAHostLine := by
  intro s a pick ts line hturns hfree hline hhost
  have ha : a < s.ports.length := nextLine_port s a _ hline
  let v : State := { s with turns := ts }
  have hport : (v.runHostLine a line).port a = { s.port a with pc := line.nextPc (s.port a) } :=
    runHostLine_port line ha
  have hstep : step s = .next (v.runHostLine a line) := by
    rw [step_of_turn hturns, takeMove, moveAgent_of_nothing (s := v) hfree, runLine_of_host (s := v) hline hhost]
  refine ⟨_, hstep, rfl, ⟨rfl, rfl, rfl, rfl, rfl, rfl, rfl⟩, rfl, rfl, rfl, fun b hb => v.port_setPort_ne a b _ hb,
    ?port, ?bcode, ?bncode, ?bstat, ?halt⟩
  case port => rw [hport]
  case bcode => rintro k L rfl; rw [hport]; rfl
  case bncode =>
    rintro k L rfl
    rw [hport]
    exact (ite_not _ _ _).symm
  case bstat => rintro st L rfl; rw [hport]; rfl
  case halt =>
    rintro rfl
    rw [State.nextLine, hport]
    exact List.getElem?_eq_none (le_refl _)

/-! ### Free turns -/

/-- Settles O8: a free choice falls on an active agent, and a kept one on its port. -/
theorem freeTurnMovesAnAgentThatCanAct : Obligations.FreeTurnMovesAnAgentThatCanAct := by
  intro s hturns
  obtain ⟨hnobody, hsomebody⟩ := step_of_no_turn hturns
  refine ⟨hnobody, fun hne => ?_⟩
  obtain ⟨a, as, hactive⟩ := List.exists_cons_of_ne_nil hne
  obtain ⟨hlt, hcan⟩ := (mem_active s _).1 (chooseAgent_mem s a as hactive)
  exact ⟨_, _, hlt, hcan, fun hkept hflight => chooseAgent_kept s a as hkept hflight, hsomebody a as hactive⟩

/-! ### A run that has ended -/

/-- Where a run has ended, no port has anything in flight or a line left. -/
theorem runEnded_port {s : State} (h : s.runEnded = true) (a : Nat) : s.inFlight a = .nothing ∧ s.nextLine a = none := by
  simp only [State.runEnded, Bool.and_eq_true, List.all_eq_true, List.mem_range, decide_eq_true_eq,
    Option.isNone_iff_eq_none] at h
  obtain ⟨⟨hlines, hwop⟩, hreaders⟩ := h
  constructor
  · cases hf : s.inFlight a with
    | nothing => rfl
    | enq => exact absurd hwop (inFlight_enq s a hf).2
    | deq r =>
      obtain ⟨hr, -, hrop⟩ := inFlight_deq s a r hf
      exact absurd (hreaders _ (getD_mem _ _ _ hr)) hrop
  · cases hl : s.nextLine a with
    | none => rfl
    | some line => rw [hlines a (nextLine_port s a line hl)] at hl; cases hl

theorem runEnded_active {s : State} (h : s.runEnded = true) : s.active = [] := by
  refine List.eq_nil_iff_forall_not_mem.2 fun a ha => ?_
  obtain ⟨hflight, hline⟩ := runEnded_port h a
  have hcan := ((mem_active s a).1 ha).2
  simp [State.canAct, hflight, hline] at hcan

/-- Settles O15: no agent can act, and the turn of one that cannot changes nothing. -/
theorem endedRunsStayEnded : Obligations.EndedRunsStayEnded := by
  intro s hended
  refine ⟨fun hturns => (step_of_no_turn hturns).1 (runEnded_active hended), fun turn ts hturns hreset => ?_⟩
  rw [step_of_turn hturns]
  cases turn with
  | reset => exact absurd rfl hreset
  | idle => rfl
  | agent a pick =>
    obtain ⟨hflight, hline⟩ := runEnded_port hended a
    let v : State := { s with turns := ts }
    rw [takeMove, moveAgent_of_nothing (s := v) hflight, runLine_of_none (s := v) hline]

end Sys2Proof.Proofs.Turns

/-! ## Parameters and command lists (spec/10_state.md R20, R21) -/

namespace Sys2Proof.Proofs.Programs

open Sys2Proof.Machine Sys2Proof.Proofs.ResetInput

/-- The parameters, the number of ports and every agent's list are as before. -/
structure SamePrograms (s t : State) : Prop where
  params : t.params = s.params
  ports_length : t.ports.length = s.ports.length
  program : ∀ a, (t.port a).program = (s.port a).program

theorem SamePrograms.of_ports {s t : State} (hp : t.params = s.params) (hports : t.ports = s.ports) :
    SamePrograms s t :=
  ⟨hp, by rw [hports], fun a => by rw [State.port, State.port, hports]⟩

/-- Replacing a port by one with the same list. -/
theorem SamePrograms.setPort {s t : State} (h : SamePrograms s t) (a : Nat) {p : Port}
    (hp : p.program = (t.port a).program) : SamePrograms s (t.setPort a p) := by
  refine ⟨h.params, List.length_set.trans h.ports_length, fun b => ?_⟩
  rw [← h.program b]
  by_cases hb : b = a
  · subst hb
    by_cases hlt : b < t.ports.length
    · rw [t.port_setPort_same b p hlt, hp]
    · rw [State.setPort, List.set_eq_of_length_le (Nat.not_lt.1 hlt)]
  · rw [t.port_setPort_ne a b p hb]

/-- A command that ends, from a state with the parameters and ports of `s`. -/
theorem SamePrograms.of_endCommand {s t u : State} {st : Status} {res : Results} (e : t = u.endCommand st res)
    (hp : u.params = s.params) (hports : u.ports = s.ports) : SamePrograms s t :=
  e ▸ (SamePrograms.of_ports hp hports).setPort u.cur rfl

theorem SamePrograms.trans {s t u : State} (h : SamePrograms s t) (h' : SamePrograms t u) : SamePrograms s u :=
  ⟨h'.params.trans h.params, h'.ports_length.trans h.ports_length, fun a => (h'.program a).trans (h.program a)⟩

theorem present_programs (s : State) (a : Nat) (cmd : Command) : SamePrograms s (s.present a cmd) :=
  have h : SamePrograms s { s with cur := a } := .of_ports rfl rfl
  h.setPort a rfl

theorem runHostLine_programs (s : State) (a : Nat) (line : Line) : SamePrograms s (s.runHostLine a line) :=
  have h : SamePrograms s s := .of_ports rfl rfl
  h.setPort a rfl

theorem exec_programs {i : Instr} {s t : State} (e : exec i s = .next t) : SamePrograms s t := by
  cases exec_next i s t e with
  | raised _ _ e | reported _ e | channel _ _ _ _ _ e | init _ _ e | rinit _ _ _ _ _ e | owned _ _ _ _ _ e
    | empty _ _ _ _ _ _ e => exact .of_endCommand e rfl rfl
  | enq _ _ _ _ e | deq _ _ _ _ _ _ _ e => subst e; exact .of_ports rfl rfl

theorem enqStep_programs {s t : State} {pick : Nat} (e : enqStep s pick = .next t) : SamePrograms s t := by
  cases enqStep_next s t pick e with
  | idle _ e | byte _ _ _ _ _ _ _ _ e => subst e; exact .of_ports rfl rfl
  | published _ _ _ _ _ e => exact .of_endCommand e rfl rfl

theorem deqStep_programs {s t : State} {r pick : Nat} (e : deqStep s r pick = .next t) : SamePrograms s t := by
  cases deqStep_next s t r pick e with
  | idle _ e | byte _ _ _ _ _ _ _ _ _ e => subst e; exact .of_ports rfl rfl
  | finished _ _ _ _ _ e =>
    rw [finishCopy] at e
    exact .of_endCommand (Host.Outcome.next.inj e) rfl rfl

theorem step_programs {s t : State} (e : step s = .next t) : SamePrograms s t := by
  have hturns (ts : List Turn) (n : Choices) (a : Nat) : SamePrograms s { s with turns := ts, choices := n, cur := a } :=
    .of_ports rfl rfl
  cases step_kind s _ e with
  | idle ts n _ e => cases e; exact hturns ts n s.cur
  | reset ts n _ e =>
    cases e
    exact ⟨rfl, List.length_map _, fun a => by rw [port_applyReset]; rfl⟩
  | enq ts n a _ _ _ e => exact (hturns ts n a).trans (enqStep_programs e)
  | deq ts n a _ _ _ _ e => exact (hturns ts n a).trans (deqStep_programs e)
  | command ts n a cmd _ _ _ _ e =>
    exact ((hturns ts n s.cur).trans (present_programs _ a cmd)).trans (exec_programs e)
  | illegal ts n a cmd _ _ _ _ _ e =>
    cases e
    exact ((hturns ts n s.cur).trans (present_programs _ a cmd)).trans (.of_endCommand rfl rfl rfl)
  | host ts n a line _ _ _ e => cases e; exact (hturns ts n s.cur).trans (runHostLine_programs _ a line)

/-- Settles O14: by the kind of step; a port is only ever replaced by one with the same list. -/
theorem stepsKeepParametersAndPrograms : Obligations.StepsKeepParametersAndPrograms := by
  intro s t e
  obtain ⟨hparams, hlength, hprogram⟩ := step_programs e
  exact ⟨hparams, hlength, hprogram⟩

end Sys2Proof.Proofs.Programs

/-! ## Error ends and the agents' contract (spec/60_exceptions.md R240, R243, R258) -/

namespace Sys2Proof.Proofs.ErrorsAndRefusals

open Sys2Proof.Machine

/-! ### Error ends -/

/-- A command that ends at once with an error. -/
theorem raises_of_eq {i : Instr} {s : State} {st : Status} (hcur : s.cur < s.ports.length)
    (h : exec i s = .next (s.endCommand st {})) :
    ∃ t, exec i s = .next t ∧ endsWith s t st {} ∧ sameBlock s t :=
  ⟨_, h, endCommand_endsWith s st {} hcur⟩

theorem exec_badChannel {i : Instr} {s : State} {c : Nat} (hi : i.channelUnit? = some c) (hc : s.params.NCH ≤ c) :
    exec i s = .next (s.endCommand .badUnit {}) := by
  cases i with
  | cksum | regRead | brInit | brEnq | brRinit _ | brDeq _ | brIsempty _ => cases hi
  | rbRemcap _ => cases hi; rw [exec, execRbRemcap, withChannel_bad s c _ hc]
  | rbAppend _ => cases hi; rw [exec, execRbAppend, withChannel_bad s c _ hc]
  | rbFind _ => cases hi; rw [exec, execRbFind, withChannel_bad s c _ hc]
  | rbReaduint _ auto => cases hi; rw [exec, execRbReaduint, withChannel_bad s c _ hc]
  | rbAdvance _ => cases hi; rw [exec, execRbAdvance, withChannel_bad s c _ hc]
  | frAppend _ => cases hi; rw [exec, execFrAppend, withChannel_bad s c _ hc]
  | frScan _ => cases hi; rw [exec, execFrScan, withChannel_bad s c _ hc]

theorem exec_badReader {i : Instr} {s : State} {r : Nat} (hi : i.readerUnit? = some r) (hr : s.params.NRD ≤ r) :
    exec i s = .next (s.endCommand .badUnit {}) := by
  cases i with
  | cksum | regRead | brInit | brEnq | rbRemcap _ | rbAppend _ | rbFind _ | rbReaduint _ _ | rbAdvance _ | frAppend _
    | frScan _ => cases hi
  | brRinit _ => cases hi; rw [exec, execBrRinit, withReader_bad s r _ hr]
  | brDeq _ => cases hi; rw [exec, execBrDeq, withReader_bad s r _ hr]
  | brIsempty _ => cases hi; rw [exec, execBrIsempty, withReader_bad s r _ hr]

/-- Settles O17: the unit check comes first. -/
theorem unitsOutOfRangeEndInBadUnit : Obligations.UnitsOutOfRangeEndInBadUnit := by
  rintro i s hcur (⟨c, hi, hc⟩ | ⟨r, hi, hr⟩)
  · exact raises_of_eq hcur (exec_badChannel hi hc)
  · exact raises_of_eq hcur (exec_badReader hi hr)

/-- Settles O18: each operand check comes before every other effect of its command. -/
theorem operandsOutOfRangeEndInBadOperand : Obligations.OperandsOutOfRangeEndInBadOperand := by
  rintro s c i hcur hc
    (⟨rfl, h⟩ | ⟨rfl, h⟩ | ⟨rfl, h⟩ | ⟨rfl, h⟩ | ⟨⟨auto, rfl⟩, h⟩ | ⟨rfl, h⟩ | ⟨rfl, h⟩) <;>
    refine raises_of_eq hcur ?_
  · rw [exec, execCksum, withDin_bad s _ h]
  · rw [exec, execRbAppend, withChannel_ok s c _ hc, withDin_bad s _ h]
  · rw [exec, execFrAppend, withChannel_ok s c _ hc, withDin_bad s _ h]
  · rw [exec, execRbFind, withChannel_ok s c _ hc, if_pos h, State.raise]
  · rw [exec, execRbReaduint, withChannel_ok s c _ hc, if_pos (by omega), State.raise]
  · rw [exec, execRbAdvance, withChannel_ok s c _ hc, if_pos h, State.raise]
  · rw [exec, execBrEnq, if_pos h, State.raise]

/-- Settles O19: the counters are looked at before the contract and before every effect. -/
theorem countersWithoutValueEndInUninitialized : Obligations.CountersWithoutValueEndInUninitialized := by
  rintro s r i hcur hr (⟨rfl, hlen, hsc⟩ | ⟨rfl | rfl, h⟩) <;> refine raises_of_eq hcur ?_
  · rw [exec, execBrEnq, if_neg (not_not.2 hlen), if_pos hsc, State.raise]
  · rw [exec, execBrDeq, withReader_ok s r _ hr, if_pos h.symm, State.raise]
  · rw [exec, execBrIsempty, withReader_ok s r _ hr, if_pos h.symm, State.raise]

/-! ### Refusals -/

theorem asWriter_refused {s : State} {a : Nat} (k : State → StepOutcome) (hw : s.writer = some a) (ha : a ≠ s.cur) :
    s.asWriter k = .refused .secondWriter := by
  refine if_neg ?_
  simp [hw, ha]

theorem asReader_refused {s : State} {r a : Nat} (k : State → StepOutcome) (ho : (s.reader r).owner = some a)
    (ha : a ≠ s.cur) : s.asReader r k = .refused (.sharedCursor r) := by
  refine if_neg ?_
  simp [ho, ha]

/-- Settles O20: past its checks, each ring command asks for its role. -/
theorem brokenContractsAreRefused : Obligations.BrokenContractsAreRefused := by
  intro s r a ha hr
  refine ⟨fun hw => ⟨?_, fun hlen hsc => ?_⟩, fun ho => ⟨?_, fun hv hsc => ?_⟩⟩
  · rw [exec, execBrInit, asWriter_refused _ hw ha]
  · rw [exec, execBrEnq, if_neg (not_not.2 hlen), if_neg (by simp [hsc]), asWriter_refused _ hw ha]
  · rw [exec, execBrRinit, withReader_ok s r _ hr, asReader_refused _ ho ha]
  · have hvalid : ¬((s.reader r).valid = false ∨ s.scValid = false) := by simp [hv, hsc]
    constructor
    · rw [exec, execBrDeq, withReader_ok s r _ hr, if_neg hvalid, asReader_refused _ ho ha]
    · rw [exec, execBrIsempty, withReader_ok s r _ hr, if_neg hvalid, asReader_refused _ ho ha]

/-- Settles O13: only E2 and the first micro-step of a command are refused, each for the breach it looks for. -/
theorem stepsRefuseOnlyContractBreaches : Obligations.StepsRefuseOnlyContractBreaches := by
  intro s e h
  cases step_kind s _ h with
  | idle _ _ _ e | reset _ _ _ e | illegal _ _ _ _ _ _ _ _ _ e | host _ _ _ _ _ _ _ e => cases e
  | enq ts n b pick hm hf h =>
    obtain ⟨he, hwop, hlaps⟩ := enqStep_refused _ _ _ h
    obtain ⟨r, -, hvalid, hfar⟩ := (lapsReader_iff _).1 hlaps
    exact ⟨b, hm, .inr (.inr (.inl ⟨he, hf, hwop, r, hvalid, hfar⟩))⟩
  | deq ts n b r pick _ _ h => exact absurd h (deqStep_refused _ r pick e)
  | command ts n b cmd i hi _ _ h =>
    have hissues {j : Instr} (h : i = j) : s.issues b j := h ▸ hi
    refine ⟨b, hi.1, ?_⟩
    cases exec_refused i _ e h with
    | writer a hcmd ha hne he =>
      exact .inl ⟨he, hcmd.imp hissues hissues, a, ha, hne⟩
    | cursor r a hcmd ha hne he =>
      exact .inr (.inl ⟨r, a, he, hcmd.imp hissues (Or.imp hissues hissues), ha, hne⟩)
    | lapped r hcmd hp he => exact .inr (.inr (.inr ⟨he, ⟨r, hissues hcmd⟩, hp⟩))

end Sys2Proof.Proofs.ErrorsAndRefusals

/-! ## What the checksum sees (spec/41_checksum.md R102) -/

namespace Sys2Proof.Proofs.ChecksumChanges

open Sys2Proof.Machine Sys2Proof.Proofs.Checksum

/-- Replacing a byte moves the sum by the difference of the bytes. -/
theorem sum_set (bs : List Byte) (i : Nat) (b : Byte) (h : i < bs.length) :
    ((bs.set i b).map BitVec.toNat).sum + (bs.getD i 0).toNat = (bs.map BitVec.toNat).sum + b.toNat := by
  induction bs generalizing i with
  | nil => cases h
  | cons x xs ih =>
    cases i with
    | zero =>
      simp only [List.set_cons_zero, List.map_cons, List.sum_cons, List.getD_cons_zero]
      omega
    | succ i =>
      have htail := ih i (Nat.lt_of_succ_lt_succ h)
      simp only [List.set_cons_succ, List.map_cons, List.sum_cons, List.getD_cons_succ]
      omega

/-- Equal checksums are equal sums modulo 2^32. -/
theorem checksum_eq_iff (bs cs : List Byte) :
    checksum bs = checksum cs ↔ (bs.map BitVec.toNat).sum % 2 ^ 32 = (cs.map BitVec.toNat).sum % 2 ^ 32 := by
  rw [← BitVec.toNat_inj, checksum_toNat, checksum_toNat]

/-- One replaced byte moves the sum by less than 2^32, and not by 0. -/
theorem checksum_set_ne {bs : List Byte} {i : Nat} {b : Byte} (h : i < bs.length) (hb : b ≠ bs.getD i 0) :
    checksum (bs.set i b) ≠ checksum bs := by
  have hsum := sum_set bs i b h
  have hne : b.toNat ≠ (bs.getD i 0).toNat := fun e => hb (BitVec.eq_of_toNat_eq e)
  have h1 := b.isLt
  have h2 := (bs.getD i 0).isLt
  rw [ne_eq, checksum_eq_iff]
  omega

/-- Settles O22: by what a replaced byte makes of the sum. -/
theorem checksumSeesOneChangeButNoPermutation : Obligations.ChecksumSeesOneChangeButNoPermutation := by
  refine ⟨fun bs i b hi hb => checksum_set_ne hi hb, fun bs cs h => checksum_perm h, ?cancel, fun bs => ?digits⟩
  case cancel =>
    intro bs i j b c hi hj hij hsame
    have hsum1 := sum_set bs i b hi
    have hsum2 := sum_set (bs.set i b) j c (by simpa using hj)
    rw [getD_set_ne bs i j b 0 (Ne.symm hij)] at hsum2
    rw [checksum_eq_iff]
    congr 1
    omega
  case digits =>
    obtain ⟨hlow, hhigh, -⟩ := DecimalForm.decimalFormReadsBack (checksum bs).toNat true (checksum bs).isLt
    exact ⟨hlow, hhigh⟩

end Sys2Proof.Proofs.ChecksumChanges

/-! ## A channel as a queue (spec/42_ring_byte_channel.md R129, R132, R133; spec/43_sentinel_framer.md R153) -/

namespace Sys2Proof.Proofs.ChannelQueue

open Sys2Proof.Machine Sys2Proof.Proofs.RingByteChannel Sys2Proof.Proofs.SentinelFramer
open Sys2Proof.Proofs.ChannelUpdates Sys2Proof.Proofs.Programs

/-! ### RB_READUINT -/

/-- A value the digit loop answers fits 32 bits. -/
theorem readDigits_lt {radix v n : Nat} {xs : List Byte} (hv : v < 2 ^ 32) (h : readDigits radix v xs = some n) :
    n < 2 ^ 32 := by
  induction xs generalizing v with
  | nil => cases h; exact hv
  | cons x xs ih =>
    rw [readDigits] at h
    split at h
    · cases h
    · split at h
      · cases h
      next hlow => exact ih (by omega) h

theorem parseUint_lt {bs : List Byte} {auto : Bool} {n : Nat} (h : parseUint bs auto = some n) : n < 2 ^ 32 := by
  rw [parseUint] at h
  split at h
  · cases h
  · exact readDigits_lt (by decide) h

/-- Within bounds, RB_READUINT decodes the region of the unread bytes. -/
theorem exec_rbReaduint_ok {s : State} {c : Nat} (auto : Bool) (hc : c < s.params.NCH)
    (h1 : s.arg0.toNat ≤ s.arg1.toNat) (h2 : s.arg1.toNat ≤ occupied s.params.N (s.channel c)) :
    exec (.rbReaduint c auto) s = .next (s.endCommand .done
      (match parseUint (((unread s.params.N (s.channel c)).take s.arg1.toNat).drop s.arg0.toNat) auto with
        | some v => { code := 1, val0 := wrap32 v }
        | none => { code := 0 })) := by
  rw [exec, execRbReaduint, withChannel_ok s c _ hc, if_neg (not_not.2 ⟨h1, h2⟩), readUint_unread _ _ _ _ auto h1 h2]
  cases parseUint (((unread s.params.N (s.channel c)).take s.arg1.toNat).drop s.arg0.toNat) auto <;> rfl

/-- Settles O26: by what the decoder answers on the region. -/
theorem rbReaduintDecodesTheRegion : Obligations.RbReaduintDecodesTheRegion := by
  intro s c auto hinv hc h1 h2
  have hexec := exec_rbReaduint_ok auto hc h1 h2
  have hcur := ((inv_iff s).1 hinv).cur
  cases hparse : parseUint (((unread s.params.N (s.channel c)).take s.arg1.toNat).drop s.arg0.toNat) auto with
  | none =>
    rw [hparse] at hexec
    obtain ⟨hends, hsame⟩ := endCommand_endsWith s .done { code := 0 } hcur
    exact ⟨_, hexec, hsame, hends⟩
  | some v =>
    rw [hparse] at hexec
    obtain ⟨hends, hsame⟩ := endCommand_endsWith s .done { code := 1, val0 := wrap32 v } hcur
    exact ⟨_, hexec, hsame, parseUint_lt hparse, hends⟩

/-! ### What a command makes of each unit -/

/-- A command leaves a unit as it was, or is one of those that replace the unit they name. -/
theorem exec_channel {i : Instr} {s t : State} (e : exec i s = .next t) (d : Nat) :
    t.channel d = s.channel d ∨ (i.channelUnit? = some d ∧ UnitNext i s d (t.channel d)) := by
  have hparams := (exec_programs e).params
  rcases exec_channels e with hsame | ⟨c, ch, hunit, -, hset, hnext⟩
  · left
    rw [State.channel, State.channel, hsame, hparams]
  · have ht : t.channel d = (s.setChannel c ch).channel d := by
      rw [State.channel, State.channel, hset, hparams]
      rfl
    by_cases hd : d = c
    · subst hd
      by_cases hlen : d < s.channels.length
      · rw [ht, s.channel_setChannel_same d ch hlen]
        exact .inr ⟨hunit, hnext⟩
      · rw [ht, State.setChannel, List.set_eq_of_length_le (Nat.not_lt.1 hlen)]
        exact .inl rfl
    · rw [ht, s.channel_setChannel_ne c d ch hd]
      exact .inl rfl

/-- Settles O32: a replaced unit is the one the command names. -/
theorem commandsTouchOnlyTheirChannel : Obligations.CommandsTouchOnlyTheirChannel := by
  intro i s t d e hunit
  rcases exec_channel e d with hsame | ⟨hd, -⟩
  · exact hsame
  · exact absurd hd hunit

/-- Appending and consuming bytes leave the telemetry counters. -/
theorem appendBytes_telemetry {N : Nat} {ch ch' : Channel} {bs : List Byte} (h : appendBytes N ch bs = some ch') :
    sameTelemetry ch ch' := by
  rcases appendBytes_cases N ch bs with ⟨_, h'⟩ | ⟨_, h'⟩ <;> rw [h'] at h <;> cases h
  exact ⟨rfl, rfl, rfl⟩

/-- Settles O31: the RB_ commands only append, which is RB_APPEND, or consume. -/
theorem byteCommandsWriteNoTelemetry : Obligations.ByteCommandsWriteNoTelemetry := by
  intro s t c d auto i hi e
  rcases exec_channel e d with hsame | ⟨-, hnext⟩
  · rw [hsame]
    exact ⟨⟨rfl, rfl, rfl⟩, fun _ => rfl⟩
  · cases hnext with
    | appended h happ =>
      refine ⟨appendBytes_telemetry happ, fun hne => ?_⟩
      subst h
      simp at hi
      exact absurd (congrArg Instr.rbAppend hi) hne
    | framed h _ => subst h; simp at hi
    | advanced _ _ hch => rw [hch]; exact ⟨⟨rfl, rfl, rfl⟩, fun _ => rfl⟩
    | scanned _ _ h _ _ => subst h; simp at hi

/-! ### FR_APPEND -/

theorem exec_frAppend_of_some {s : State} {c : Nat} (hc : c < s.params.NCH) (hdin : s.din.length ≤ s.params.DIN_MAX)
    {ch : Channel} (h : appendBytes s.params.N (s.channel c) (encodeFrame s.din) = some ch) :
    exec (.frAppend c) s =
      .next (((s.setChannel c ch).emit (.frameAppended c)).endCommand .done { code := 1 }) := by
  rw [exec, execFrAppend, withChannel_ok s c _ hc, withDin_ok s _ hdin, h]
  rfl

theorem exec_frAppend_of_none {s : State} {c : Nat} (hc : c < s.params.NCH) (hdin : s.din.length ≤ s.params.DIN_MAX)
    (h : appendBytes s.params.N (s.channel c) (encodeFrame s.din) = none) :
    exec (.frAppend c) s = .next (s.endCommand .done { code := 0 }) := by
  rw [exec, execFrAppend, withChannel_ok s c _ hc, withDin_ok s _ hdin, h]
  rfl

/-- The replaced unit, read back after the frame's event. -/
theorem channel_frameAppended {s : State} {c : Nat} (hc : c < s.channels.length) (ch : Channel) (res : Results) :
    (((s.setChannel c ch).emit (.frameAppended c)).endCommand .done res).channel c = ch := by
  rw [State.endCommand_channel, State.emit_channel, s.channel_setChannel_same c ch hc]

/-- Settles O34: by whether the frame fits; where it does, the ring is the old one with the frame stored from the write
offset on. -/
theorem frAppendStoresTheWholeFrameOrNothing : Obligations.FrAppendStoresTheWholeFrameOrNothing := by
  intro s c hinv hc hdin frame
  have hparts := (inv_iff s).1 hinv
  obtain ⟨hlen, hch⟩ := hparts.channel c hc
  obtain ⟨hwf, -, -, -⟩ := (Channel.inv_iff _ _).1 hch
  rcases appendBytes_cases s.params.N (s.channel c) frame with ⟨hfull, happ⟩ | ⟨hfits, happ⟩
  · obtain ⟨hends, -, hring, -⟩ := endCommand_endsWith s .done { code := 0 } hparts.cur
    refine ⟨_, exec_frAppend_of_none hc hdin happ, hring, ⟨rfl, fun _ _ => rfl⟩, rfl, rfl, rfl, ⟨rfl, rfl, rfl⟩, rfl, ?_⟩
    rw [if_neg (Nat.not_le.2 hfull)]
    exact ⟨hends, rfl, rfl⟩
  · refine ⟨_, exec_frAppend_of_some hc hdin happ, ⟨rfl, rfl, rfl, rfl, rfl, rfl, rfl⟩,
      ⟨List.length_set, fun d hd => s.channel_setChannel_ne c d _ hd⟩, rfl, rfl, rfl, ?_⟩
    rw [channel_frameAppended hlen, if_pos hfits]
    have hN : frame.length ≤ s.params.N := by rw [remcap] at hfits; omega
    exact ⟨⟨rfl, rfl, rfl⟩, rfl, endCommand_endsWith_of s _ .done _ hparts.cur rfl rfl, rfl, rfl,
      fun k hk => read_writeRing_inside _ _ _ _ k hwf hN hk,
      fun j hj => read_writeRing_outside _ _ _ _ j hj⟩

/-! ### FR_SCAN -/

/-- A committed span takes its bytes from the front. -/
theorem unread_committed {N : Nat} {ch : Channel} {sp : Span} (hw : ch.writeOffset < N) (hr : ch.readOffset < N)
    (hsp : findSpan N ch = some sp) (how : FrameEnd) :
    unread N (countFrame (commitSpan N ch sp) how) = (unread N ch).drop sp.a4 := by
  obtain ⟨-, -, -, -, hle⟩ := span_bounds N ch sp hsp
  rw [← unread_advance N ch sp.a4 hw hr hle]
  rcases countFrame_cases (commitSpan N ch sp) how with ⟨-, h⟩ | ⟨-, h⟩ <;> rw [h] <;> rfl

theorem occupied_committed {N : Nat} {ch : Channel} {sp : Span} (hw : ch.writeOffset < N) (hr : ch.readOffset < N)
    (hsp : findSpan N ch = some sp) (how : FrameEnd) :
    occupied N (countFrame (commitSpan N ch sp) how) = occupied N ch - sp.a4 := by
  rw [← unread_length N ch, ← List.length_drop, ← unread_committed hw hr hsp how, unread_length]

/-- The CODE of a committed span: 0 exactly for Ok. -/
theorem frameEnd_number (how : FrameEnd) (h : how ≠ .incomplete) :
    (how = .ok ∧ how.number = 0) ∨ (how ≠ .ok ∧ (how.number = 2 ∨ how.number = 3 ∨ how.number = 4)) := by
  cases how <;> simp_all [FrameEnd.number]

/-- Judging a span never ends Incomplete. -/
theorem judgeSpan_ne_incomplete (N : Nat) (ch : Channel) (sp : Span) (cap : Nat) :
    (judgeSpan N ch sp cap).1 ≠ .incomplete := by
  rw [judgeSpan]
  split
  · exact fun e => nomatch e
  · split
    · exact fun e => nomatch e
    · split
      · exact fun e => nomatch e
      · dsimp only
        split <;> exact fun e => nomatch e

/-- A committed span counts as one valid frame or as one invalid (R156). -/
theorem committed_counts (N : Nat) (ch : Channel) (sp : Span) (how : FrameEnd) :
    (how = .ok → (countFrame (commitSpan N ch sp) how).validCount = ch.validCount + 1 ∧
      (countFrame (commitSpan N ch sp) how).invalidCount = ch.invalidCount) ∧
    (how ≠ .ok → (countFrame (commitSpan N ch sp) how).validCount = ch.validCount ∧
      (countFrame (commitSpan N ch sp) how).invalidCount = ch.invalidCount + 1) := by
  rcases countFrame_cases (commitSpan N ch sp) how with ⟨hok, h⟩ | ⟨hne, h⟩ <;> rw [h]
  · exact ⟨fun _ => ⟨rfl, rfl⟩, fun hne => absurd hok hne⟩
  · exact ⟨fun hok => absurd hok hne, fun _ => ⟨rfl, rfl⟩⟩

/-- Settles O35: without a span the scan only reports; with one, the unit is the committed and counted one. -/
theorem frScanCountsByItsEnd : Obligations.FrScanCountsByItsEnd := by
  intro s c hinv hc N ch
  have hparts := (inv_iff s).1 hinv
  obtain ⟨hlen, -⟩ := hparts.channel c hc
  cases hspan : findSpan N ch with
  | none =>
    obtain ⟨hends, -, hring, hrest⟩ := endCommand_endsWith s .done { code := 1 } hparts.cur
    exact ⟨_, _, exec_frScan_of_none hc hspan, hring, hrest, ⟨rfl, fun _ _ => rfl⟩, hends, rfl, .inl ⟨rfl, rfl⟩⟩
  | some sp =>
    obtain ⟨hends, hring, hrest, hothers⟩ := setChannel_endCommand_frame (s := s) (c := c) rfl hparts.cur
    obtain ⟨h1, h2, h3, h4⟩ := (findSpan_some N ch sp).1 hspan
    let how := (judgeSpan N ch sp s.arg0.toNat).1
    obtain ⟨hdata, hwo, hro, hdis⟩ := committed_offsets N ch sp how
    refine ⟨_, _, exec_frScan_of_some hc hspan, hring, hrest, hothers, hends, rfl, .inr ⟨_, _, _, _, h1, h2, h3, h4, ?_⟩⟩
    rw [channel_setChannel_endCommand hlen]
    refine ⟨hdata, hwo, hro, hdis, ?_⟩
    obtain ⟨hvalid, hinvalid⟩ := committed_counts N ch sp how
    rcases frameEnd_number how (judgeSpan_ne_incomplete _ _ _ _) with ⟨hok, hnum⟩ | ⟨hbad, hnum⟩
    · exact .inl ⟨hnum, hvalid hok⟩
    · exact .inr ⟨hnum, hinvalid hbad⟩

/-- Settles O37: a scan with a CODE other than Incomplete found a span, whose markers do not overlap. -/
theorem frScanMakesProgress : Obligations.FrScanMakesProgress := by
  intro s t c hinv hc e hcode
  have hparts := (inv_iff s).1 hinv
  obtain ⟨hlen, hch⟩ := hparts.channel c hc
  obtain ⟨-, -, hw, hr⟩ := (Channel.inv_iff _ _).1 hch
  cases hspan : findSpan s.params.N (s.channel c) with
  | none =>
    rw [exec_frScan_of_none hc hspan] at e
    cases e
    rw [s.endCommand_port_same _ _ hparts.cur] at hcode
    exact absurd rfl hcode
  | some sp =>
    rw [exec_frScan_of_some hc hspan] at e
    cases e
    obtain ⟨h1, h12, h23, h34, h4⟩ := span_bounds _ _ sp hspan
    rw [channel_setChannel_endCommand hlen]
    obtain ⟨-, -, hro, -⟩ := committed_offsets s.params.N (s.channel c) sp
      (judgeSpan s.params.N (s.channel c) sp s.arg0.toNat).1
    exact ⟨_, _, _, _, h1, h12, h23, h34, by omega, h4, hro, occupied_committed hw hr hspan _⟩

/-! ### The queue -/

/-- Settles O30: each of the four commands that replace a unit moves its queue in its own way, and no other command
replaces one. -/
theorem channelsAreByteQueues : Obligations.ChannelsAreByteQueues := by
  intro s t c hinv hc queue
  have hparts := (inv_iff s).1 hinv
  obtain ⟨hlen, hch⟩ := hparts.channel c hc
  obtain ⟨hwf, -, hw, hr⟩ := (Channel.inv_iff _ _).1 hch
  have hocc := occupied_lt s.params.N (s.channel c) (by omega)
  have hlength : (queue s).length = occupied s.params.N (s.channel c) := unread_length _ _
  refine ⟨hlength, by omega, fun e hdin => ?append, fun e hdin => ?frame, fun e hn => ?advance, fun e => ?scan,
    fun i h1 h2 h3 h4 e => ?other⟩
  case append =>
    rcases appendBytes_cases s.params.N (s.channel c) s.din with ⟨hfull, happ⟩ | ⟨hfits, happ⟩
    · rw [exec_rbAppend_of_none hc hdin happ] at e
      cases e
      exact (if_neg (Nat.not_le.2 hfull)).symm
    · rw [exec_rbAppend_of_some hc hdin happ] at e
      cases e
      rw [if_pos hfits, ← unread_append _ _ _ _ hwf hw hr happ]
      exact congrArg (unread s.params.N) (channel_setChannel_endCommand hlen _ _)
  case frame =>
    rcases appendBytes_cases s.params.N (s.channel c) (encodeFrame s.din) with ⟨hfull, happ⟩ | ⟨hfits, happ⟩
    · rw [exec_frAppend_of_none hc hdin happ] at e
      cases e
      exact (if_neg (Nat.not_le.2 hfull)).symm
    · rw [exec_frAppend_of_some hc hdin happ] at e
      cases e
      rw [if_pos hfits, ← unread_append _ _ _ _ hwf hw hr happ]
      exact congrArg (unread s.params.N) (channel_frameAppended hlen _ _)
  case advance =>
    rw [hlength] at hn
    rw [exec_rbAdvance_ok hc hn] at e
    cases e
    rw [← unread_advance _ _ _ hw hr hn]
    exact congrArg (unread s.params.N) (channel_setChannel_endCommand hlen _ _)
  case scan =>
    have hparams := (exec_programs e).params
    rcases exec_channel e c with hsame | ⟨-, hnext⟩
    · exact ⟨0, Nat.zero_le _, congrArg₂ (fun p => unread p.N) hparams hsame⟩
    · cases hnext with
      | appended hi _ | framed hi _ | advanced hi _ _ => cases hi
      | scanned sp how _ hsp hch' =>
        refine ⟨sp.a4, hlength ▸ (span_bounds _ _ sp hsp).2.2.2.2, ?_⟩
        exact (congrArg₂ (fun p => unread p.N) hparams hch').trans (unread_committed hw hr hsp how)
  case other =>
    rcases exec_channel e c with hsame | ⟨-, hnext⟩
    · exact hsame
    · cases hnext with
      | appended hi _ => exact absurd hi h1
      | framed hi _ => exact absurd hi h2
      | advanced hi _ _ => exact absurd hi h3
      | scanned _ _ hi _ _ => exact absurd hi h4

end Sys2Proof.Proofs.ChannelQueue

/-! ## Frames scanned back (spec/43_sentinel_framer.md R159 to R161) -/

namespace Sys2Proof.Proofs.FrameScan

open Sys2Proof.Machine Sys2Proof.Proofs.RingByteChannel Sys2Proof.Proofs.SentinelFramer
open Sys2Proof.Proofs.ChannelQueue Sys2Proof.Proofs.ChecksumChanges Sys2Proof.Proofs.DecimalForm

/-- The frame of R152 with a payload and any checksum `k`. -/
def frameWith (p : List Byte) (k : Nat) : List Byte :=
  beforeSize ++ dec p.length ++ afterSize ++ p ++ beforeChecksum ++ dec k ++ afterChecksum

theorem encodeFrame_eq (p : List Byte) : encodeFrame p = frameWith p (checksum p).toNat := rfl

/-- No `m` starts in `X` where `X ++ m` follows, as R159 has it for payloads. -/
def StartsNowhere (m X : List Byte) : Prop := ∀ i, i < X.length → ((X ++ m).drop i).take 8 ≠ m

/-- A marker starts at no byte that is not its first. -/
theorem startsNowhere_of_head {m X : List Byte} {x : Byte} (hm : m.head? = some x) (h : x ∉ X) :
    StartsNowhere m X := by
  intro i hi e
  have hhead : (((X ++ m).drop i).take 8).head? = some X[i] := by
    rw [List.head?_take, if_neg (by decide), List.head?_drop, List.getElem?_append_left hi, List.getElem?_eq_getElem hi]
  rw [e, hm] at hhead
  exact h (Option.some.inj hhead ▸ List.getElem_mem hi)

/-- No byte of a decimal form is one outside '0' to '9'. -/
theorem not_mem_dec {v : Nat} (hv : v < 2 ^ 32) {x : Byte} (hx : x.toNat < 0x30 ∨ 0x39 < x.toNat) : x ∉ dec v := by
  intro hmem
  obtain ⟨-, -, hdigits, -⟩ := decimalFormReadsBack v true hv
  have := hdigits x hmem
  omega

theorem parseUint_dec {v : Nat} (hv : v < 2 ^ 32) : parseUint (dec v) true = some v := by
  obtain ⟨-, -, -, -, -, -, h⟩ := decimalFormReadsBack v true hv
  exact h

/-- The middle part of a string. -/
theorem middle_of_append {bs A X B : List Byte} {a b : Nat} (h : bs = A ++ (X ++ B)) (ha : a = A.length)
    (hb : b = A.length + X.length) : (bs.take b).drop a = X := by
  subst h ha hb
  rw [← List.append_assoc, List.take_left' (by simp), List.drop_left' rfl]

section Scan

variable {N : Nat} {ch : Channel} {g p : List Byte} {k : Nat}

/-- Where the four searches end in unread bytes that are garbage and then a frame. -/
def frameSpan (g p : List Byte) (k : Nat) : Span where
  a1 := g.length + 8
  a2 := g.length + 8 + (dec p.length).length + 8
  a3 := g.length + 8 + (dec p.length).length + 8 + p.length + 8
  a4 := g.length + 8 + (dec p.length).length + 8 + p.length + 8 + (dec k).length + 8

theorem frameWith_length (p : List Byte) (k : Nat) :
    (frameWith p k).length = 8 + (dec p.length).length + 8 + p.length + 8 + (dec k).length + 8 := by
  simp only [frameWith, beforeSize, afterSize, beforeChecksum, afterChecksum, List.length_append, List.length_cons,
    List.length_nil]

theorem frameSpan_a4 (g p : List Byte) (k : Nat) : (frameSpan g p k).a4 = (g ++ frameWith p k).length := by
  rw [List.length_append, frameWith_length]
  dsimp only [frameSpan]
  omega

/-- The frame's four markers are the first ones found. -/
theorem findSpan_frame (hun : unread N ch = g ++ frameWith p k) (hp : p.length < 2 ^ 32) (hk : k < 2 ^ 32)
    (hg : StartsNowhere beforeSize g) (hpay : StartsNowhere beforeChecksum p) :
    findSpan N ch = some (frameSpan g p k) := by
  have hsize : StartsNowhere afterSize (dec p.length) :=
    startsNowhere_of_head rfl (not_mem_dec hp (.inl (by decide)))
  have hsum : StartsNowhere afterChecksum (dec k) := startsNowhere_of_head rfl (not_mem_dec hk (.inr (by decide)))
  have h1 := findMarker_split N ch [] g beforeSize _ rfl (by rw [hun, frameWith]; simp only [List.append_assoc]; rfl) hg
  have h2 := findMarker_split N ch (g ++ beforeSize) (dec p.length) afterSize
    (p ++ beforeChecksum ++ dec k ++ afterChecksum) rfl (by rw [hun, frameWith]; simp only [List.append_assoc]) hsize
  have h3 := findMarker_split N ch (g ++ beforeSize ++ dec p.length ++ afterSize) p beforeChecksum
    (dec k ++ afterChecksum) rfl (by rw [hun, frameWith]; simp only [List.append_assoc]) hpay
  have h4 := findMarker_split N ch (g ++ beforeSize ++ dec p.length ++ afterSize ++ p ++ beforeChecksum) (dec k)
    afterChecksum [] rfl (by rw [hun, frameWith]; simp only [List.append_assoc, List.append_nil]) hsum
  have hmarkers : beforeSize.length = 8 ∧ afterSize.length = 8 ∧ beforeChecksum.length = 8 := ⟨rfl, rfl, rfl⟩
  obtain ⟨hbs, has, hbc⟩ := hmarkers
  simp only [List.length_append, List.length_nil, Nat.zero_add, hbs, has, hbc] at h1 h2 h3 h4
  exact (findSpan_some N ch _).2 ⟨h1, h2, h3, h4⟩

theorem sizeField_frame (hun : unread N ch = g ++ frameWith p k) (hp : p.length < 2 ^ 32) :
    sizeField N ch (frameSpan g p k) = some p.length := by
  have hmid : ((unread N ch).take ((frameSpan g p k).a2 - 8)).drop (frameSpan g p k).a1 = dec p.length :=
    middle_of_append (A := g ++ beforeSize) (B := afterSize ++ p ++ beforeChecksum ++ dec k ++ afterChecksum)
      (by rw [hun, frameWith]; simp only [List.append_assoc])
      (by rw [List.length_append]; rfl) (by rw [List.length_append]; rfl)
  rw [sizeField, hmid, parseUint_dec hp]

theorem sumField_frame (hun : unread N ch = g ++ frameWith p k) (hk : k < 2 ^ 32) :
    sumField N ch (frameSpan g p k) = some k := by
  have hmid : ((unread N ch).take ((frameSpan g p k).a4 - 8)).drop (frameSpan g p k).a3 = dec k :=
    middle_of_append (A := g ++ beforeSize ++ dec p.length ++ afterSize ++ p ++ beforeChecksum) (B := afterChecksum)
      (by rw [hun, frameWith]; simp only [List.append_assoc])
      (by simp only [List.length_append]; rfl) (by simp only [List.length_append]; rfl)
  rw [sumField, hmid, parseUint_dec hk]

/-- The bytes copied from such a span are the payload. -/
theorem copy_frame (hun : unread N ch = g ++ frameWith p k) :
    ringBytes N ch (ch.readOffset + (frameSpan g p k).a2) p.length = p := by
  have hocc : occupied N ch = (frameSpan g p k).a4 := by rw [frameSpan_a4, ← hun, unread_length]
  have hle : (frameSpan g p k).a2 + p.length ≤ occupied N ch := by rw [hocc]; dsimp only [frameSpan]; omega
  have hregion := ringBytes_region N ch ch.readOffset _ (frameSpan g p k).a2 _ (Nat.le_add_right _ p.length) hle
  rw [Nat.add_sub_cancel_left] at hregion
  rw [hregion]
  exact middle_of_append (A := g ++ beforeSize ++ dec p.length ++ afterSize)
    (B := beforeChecksum ++ dec k ++ afterChecksum) (hun.trans (by rw [frameWith]; simp only [List.append_assoc]))
    (by simp only [List.length_append]; rfl) (by simp only [List.length_append]; rfl)

/-- How the scan of such a frame ends: by the payload's own checksum. -/
theorem spanResults_frame {cap : Nat} (hun : unread N ch = g ++ frameWith p k) (hp : p.length < 2 ^ 32)
    (hk : k < 2 ^ 32) (hg : StartsNowhere beforeSize g) (hpay : StartsNowhere beforeChecksum p) (hcap : p.length ≤ cap) :
    spanResults N ch (frameSpan g p k) cap =
      if (checksum p).toNat = k then { code := 0, val0 := wrap32 p.length, dout := p } else { code := 4, dout := p } := by
  rw [spanResults_of_fields (findSpan_frame hun hp hk hg hpay) (sizeField_frame hun hp) (sumField_frame hun hk),
    if_neg (Nat.not_lt.2 hcap), copy_frame hun]

end Scan

/-- What FR_SCAN makes of a channel whose unread bytes are garbage and then a frame: its span consumed and counted, the
payload in DOUT. -/
theorem exec_frScan_frame {s : State} {c : Nat} {g p : List Byte} {k : Nat} (h : InvParts s) (hc : c < s.params.NCH)
    (hun : unread s.params.N (s.channel c) = g ++ frameWith p k) (hk : k < 2 ^ 32) (hg : StartsNowhere beforeSize g)
    (hpay : StartsNowhere beforeChecksum p) (hcap : p.length ≤ s.arg0.toNat) :
    ∃ (t : State) (how : FrameEnd), exec (.frScan c) s = .next t ∧
      endsWith s t .done
        (if (checksum p).toNat = k then { code := 0, val0 := wrap32 p.length, dout := p }
          else { code := 4, dout := p }) ∧
      t.channel c = countFrame (commitSpan s.params.N (s.channel c) (frameSpan g p k)) how ∧
      ((checksum p).toNat = k ↔ how = .ok) := by
  have hp : p.length < 2 ^ 32 := Nat.lt_of_le_of_lt hcap s.arg0.isLt
  have hspan := findSpan_frame hun hp hk hg hpay
  have hres := spanResults_frame hun hp hk hg hpay hcap
  obtain ⟨hlen, -⟩ := h.channel c hc
  refine ⟨_, _, exec_frScan_of_some hc hspan, ?_, channel_setChannel_endCommand hlen _ _, ?_⟩
  · rw [← hres]
    exact (setChannel_endCommand_frame rfl h.cur).1
  · have hcode : (judgeSpan s.params.N (s.channel c) (frameSpan g p k) s.arg0.toNat).1.number =
        if (checksum p).toNat = k then 0 else 4 :=
      (congrArg Results.code hres).trans (apply_ite Results.code _ _ _)
    rcases frameEnd_number _ (judgeSpan_ne_incomplete s.params.N (s.channel c) (frameSpan g p k) s.arg0.toNat) with
      ⟨hok, hnum⟩ | ⟨hbad, hnum⟩
    · rw [hnum] at hcode
      refine iff_of_true (by_contra fun hne => ?_) hok
      rw [if_neg hne] at hcode
      cases hcode
    · refine iff_of_false (fun heq => ?_) hbad
      rw [if_pos heq] at hcode
      rw [hcode] at hnum
      rcases hnum with hnum | hnum | hnum <;> cases hnum

/-- Settles O40: the altered payload's checksum is not the one the frame states. -/
theorem alteredFramesFailIntegrity : Obligations.AlteredFramesFailIntegrity := by
  intro s c i p b hinv hc hi hb hun hpay hcap
  have hne : (checksum (p.set i b)).toNat ≠ (checksum p).toNat := fun e =>
    checksum_set_ne hi hb (BitVec.eq_of_toNat_eq e)
  have hlen : (p.set i b).length = p.length := List.length_set
  have hun' : unread s.params.N (s.channel c) = [] ++ frameWith (p.set i b) (checksum p).toNat := by
    rw [hun, frameWith, hlen]
    rfl
  obtain ⟨t, how, hexec, hends, hchannel, hhow⟩ := exec_frScan_frame ((inv_iff s).1 hinv) hc hun' (checksum p).isLt
    (fun i hi => nomatch hi) (fun j hj => hpay j (hlen ▸ hj)) (hlen ▸ hcap)
  rw [if_neg hne] at hends
  obtain ⟨-, hcounts⟩ := committed_counts s.params.N (s.channel c) (frameSpan [] (p.set i b) (checksum p).toNat) how
  obtain ⟨hvalid, hinvalid⟩ := hcounts (mt hhow.2 hne)
  rw [← hchannel] at hvalid hinvalid
  exact ⟨t, hexec, hends, hinvalid, hvalid⟩

/-- Settles O41: the first marker found is the frame's, right after the garbage. -/
theorem scansResynchronize : Obligations.ScansResynchronize := by
  intro s c g p hinv hc hun hg hpay hcap
  obtain ⟨t, how, hexec, hends, hchannel, hhow⟩ := exec_frScan_frame ((inv_iff s).1 hinv) hc hun (checksum p).isLt
    hg hpay hcap
  rw [if_pos rfl] at hends
  obtain ⟨hcounts, -⟩ := committed_counts s.params.N (s.channel c) (frameSpan g p (checksum p).toNat) how
  obtain ⟨-, -, -, hdis⟩ := committed_offsets s.params.N (s.channel c) (frameSpan g p (checksum p).toNat) how
  rw [← hchannel] at hdis hcounts
  exact ⟨t, hexec, hends, hdis, (hcounts (hhow.1 rfl)).1⟩

theorem appendBytes_of_fits {N : Nat} {ch : Channel} {bs : List Byte} (h : bs.length ≤ remcap N ch) :
    ∃ ch', appendBytes N ch bs = some ch' := by
  rcases appendBytes_cases N ch bs with ⟨hfull, -⟩ | ⟨-, happ⟩
  · exact absurd h (Nat.not_le.2 hfull)
  · exact ⟨_, happ⟩

/-- Settles O39: the appended frame is all of the queue, and its scan empties it. -/
theorem framesRoundTrip : Obligations.FramesRoundTrip := by
  intro s c a cmd hinv hc hempty hdin hfits hpay ha hcap
  have hparts := (inv_iff s).1 hinv
  obtain ⟨hlen, hch⟩ := hparts.channel c hc
  obtain ⟨hwf, hbelow, hw, hr⟩ := (Channel.inv_iff _ _).1 hch
  obtain ⟨ch, happ⟩ := appendBytes_of_fits hfits
  have hch' : ch.inv s.params.N = true := (Channel.inv_iff _ _).2 (append_keeps _ _ ch _ hwf hbelow hr happ)
  obtain ⟨-, -, hw', hr'⟩ := (Channel.inv_iff _ _).1 hch'
  obtain ⟨hvalid, hinvalid, hdisregarded⟩ := appendBytes_telemetry happ
  let t : State := ((s.setChannel c ch).emit (.frameAppended c)).endCommand .done { code := 1 }
  have htport : t.port s.cur = (s.port s.cur).finish .done { code := 1 } :=
    (endCommand_endsWith_of s _ .done { code := 1 } hparts.cur rfl rfl).1
  have htparts : InvParts t :=
    ((hparts.setChannel c ch hch').emit _).endCommand .done { code := 1 }
  have hta : a < t.ports.length := by rw [State.endCommand_ports, List.length_set]; exact ha
  have htchannel : (t.present a cmd).channel c = ch := channel_frameAppended hlen ch { code := 1 }
  have hun : unread (t.present a cmd).params.N ((t.present a cmd).channel c) =
      [] ++ frameWith s.din (checksum s.din).toNat := by
    rw [htchannel]
    refine (unread_append _ _ ch _ hwf hw hr happ).trans ?_
    rw [List.length_eq_zero_iff.1 ((unread_length _ _).trans hempty)]
    rfl
  obtain ⟨u, how, hexec, hends, hchannel, hhow⟩ := exec_frScan_frame (htparts.present a cmd hta) hc hun
    (checksum s.din).isLt (fun i hi => nomatch hi) hpay (by rw [t.present_arg0 a cmd hta]; exact hcap)
  rw [if_pos rfl] at hends
  have huport : u.port a = _ := hends.1
  rw [htchannel] at hchannel
  have hspan : findSpan s.params.N ch = some (frameSpan [] s.din (checksum s.din).toNat) :=
    findSpan_frame (htchannel ▸ hun) (Nat.lt_of_le_of_lt hcap cmd.arg0.isLt) (checksum s.din).isLt
      (fun i hi => nomatch hi) hpay
  obtain ⟨hcounts, -⟩ := committed_counts s.params.N ch (frameSpan [] s.din (checksum s.din).toNat) how
  obtain ⟨-, -, -, hdis⟩ := committed_offsets s.params.N ch (frameSpan [] s.din (checksum s.din).toNat) how
  have hocc := occupied_committed hw' hr' hspan how
  have ha4 : (frameSpan [] s.din (checksum s.din).toNat).a4 = occupied s.params.N ch := by
    rw [frameSpan_a4, ← unread_length, ← htchannel]
    exact congrArg List.length hun.symm
  obtain ⟨hc1, hc2⟩ := hcounts (hhow.1 rfl)
  refine ⟨t, u, exec_frAppend_of_some hc hdin happ, by rw [htport]; rfl, by rw [htport]; rfl, hexec,
    by rw [huport]; rfl, by rw [huport]; rfl, by rw [huport]; rfl, by rw [huport]; rfl, ?_, ?_, ?_, ?_⟩ <;> rw [hchannel]
  · exact hc1.trans (by rw [hvalid])
  · exact hc2.trans hinvalid
  · exact hdis.trans ((BitVec.add_zero _).trans hdisregarded)
  · exact hocc.trans (by rw [ha4, Nat.sub_self])

end Sys2Proof.Proofs.FrameScan

/-! ## REG_READ (spec/45_system.md R220, R221) -/

namespace Sys2Proof.Proofs.Registers

open Sys2Proof.Machine Sys2Proof.Proofs.ErrorsAndRefusals

/-! ### The map by its ranges -/

theorem readRegister_channel (s : State) {c k : Nat} (hc : c < s.params.NCH) (hmax : s.params.NCH ≤ 256) (hk : k < 16) :
    readRegister s (0x1000 + 16 * c + k) = channelRegister s.params.N (s.channel c) k := by
  have hunit : (0x1000 + 16 * c + k - 0x1000) / 16 = c := by omega
  have hreg : (0x1000 + 16 * c + k - 0x1000) % 16 = k := by omega
  rw [readRegister, if_neg (by omega), if_neg (by omega), if_pos (by omega), hunit, hreg, if_pos hc]

theorem readRegister_reader (s : State) {r k : Nat} (hr : r < s.params.NRD) (hk : k < 16) :
    readRegister s (0x2000 + 16 * r + k) = readerRegister (s.reader r) k := by
  have hunit : (0x2000 + 16 * r + k - 0x2000) / 16 = r := by omega
  have hreg : (0x2000 + 16 * r + k - 0x2000) % 16 = k := by omega
  rw [readRegister, if_neg (by omega), if_neg (by omega), if_neg (by omega), hunit, hreg, if_pos hr]

/-! ### Numbers that name no register -/

theorem paramRegister_none (p : Params) {n : Nat} (h : n ∉ [0x10, 0x11, 0x12, 0x13, 0x14, 0x15]) :
    paramRegister p n = .noRegister := by
  unfold paramRegister
  split <;> simp_all

theorem ringRegister_none (s : State) {n : Nat} (h : n ∉ [0x0800, 0x0801]) : ringRegister s n = .noRegister := by
  unfold ringRegister
  split <;> simp_all

theorem channelRegister_none (N : Nat) (ch : Channel) {k : Nat} (h : 7 ≤ k) :
    channelRegister N ch k = .noRegister := by
  obtain ⟨j, rfl⟩ := Nat.exists_eq_add_of_le' h
  rfl

theorem readerRegister_none (rd : Reader) {k : Nat} (h : 2 ≤ k) : readerRegister rd k = .noRegister := by
  obtain ⟨j, rfl⟩ := Nat.exists_eq_add_of_le' h
  rfl

/-- Every number outside the map's rows names no register. -/
theorem readRegister_none (s : State) {n : Nat}
    (hfixed : n ∉ [0x10, 0x11, 0x12, 0x13, 0x14, 0x15, 0x0800, 0x0801])
    (hchannel : ∀ c k, c < s.params.NCH → k < 7 → n ≠ 0x1000 + 16 * c + k)
    (hreader : ∀ r k, r < s.params.NRD → k < 2 → n ≠ 0x2000 + 16 * r + k) : readRegister s n = .noRegister := by
  rw [readRegister]
  split
  · exact paramRegister_none _ fun h => hfixed (by simp at h ⊢; tauto)
  · split
    · exact ringRegister_none _ fun h => hfixed (by simp at h ⊢; tauto)
    · split
      · split
        next hc =>
          exact channelRegister_none _ _ (Nat.not_lt.1 fun hk => hchannel _ _ hc hk (by omega))
        · rfl
      · split
        next hr => exact readerRegister_none _ (Nat.not_lt.1 fun hk => hreader _ _ hr hk (by omega))
        · rfl

/-! ### The command -/

/-- What REG_READ answers for a value of the map that may be missing. -/
def Answers (s : State) (o : Option Word) : Prop :=
  ∃ t, exec .regRead s = .next t ∧ sameBlock s t ∧
    match o with
    | some v => endsWith s t .done { val0 := v }
    | none => endsWith s t .uninitialized {}

/-- The map's answer for a register that exists. -/
def RegValue.ofOption : Option Word → RegValue
  | some v => .value v
  | none => .noValue

theorem answers_of_readRegister {s : State} (hcur : s.cur < s.ports.length) {n : Nat} {o : Option Word}
    (hn : s.arg0.toNat = n) (h : readRegister s n = RegValue.ofOption o) : Answers s o := by
  cases o with
  | none =>
    obtain ⟨hends, hsame⟩ := endCommand_endsWith s .uninitialized {} hcur
    exact ⟨_, by rw [exec, execRegRead, hn, h]; rfl, hsame, hends⟩
  | some v =>
    obtain ⟨hends, hsame⟩ := endCommand_endsWith s .done { val0 := v } hcur
    exact ⟨_, by rw [exec, execRegRead, hn, h]; rfl, hsame, hends⟩

/-- A counter's register, by the flag that gives it a value. -/
theorem ofOption_ite (b : Bool) (v : Word) :
    (if b = true then RegValue.value v else .noValue) = RegValue.ofOption (if b = true then some v else none) := by
  cases b <;> rfl

/-- Settles O59: row by row of the map. -/
theorem regReadAnswersTheRegisterMap : Obligations.RegReadAnswersTheRegisterMap := by
  intro s hinv p n answers
  have hparts := (inv_iff s).1 hinv
  have hcur := hparts.cur
  have hNCH := (Params.valid_parts _ hparts.params).NCH_high
  have hrow {m : Nat} {o : Option Word} (hn : n = m) (h : readRegister s m = RegValue.ofOption o) : answers o :=
    answers_of_readRegister hcur hn h
  clear_value answers
  refine ⟨(hrow · rfl), (hrow · rfl), (hrow · rfl), (hrow · rfl), (hrow · rfl), (hrow · rfl),
    (hrow · (ofOption_ite _ _)), (hrow · rfl), fun c hc => ?channel, fun r hr => ?reader, fun h1 h2 h3 => ?none⟩
  case channel =>
    have hreg {k : Nat} {v : Word} (hk : k < 16) (hn : n = 0x1000 + 16 * c + k)
        (h : channelRegister s.params.N (s.channel c) k = .value v) : answers (some v) :=
      hrow hn ((readRegister_channel s hc hNCH hk).trans h)
    exact ⟨(hreg (by decide) · rfl), (hreg (by decide) · rfl), (hreg (by decide) · rfl), (hreg (by decide) · rfl),
      (hreg (by decide) · rfl), (hreg (by decide) · rfl), (hreg (by decide) · rfl)⟩
  case reader =>
    exact ⟨(hrow · ((readRegister_reader s hr (by decide)).trans (ofOption_ite _ _))),
      (hrow · (readRegister_reader s hr (by decide)))⟩
  case none =>
    have hexec : exec .regRead s = .next (s.endCommand .badOperand {}) := by
      rw [exec, execRegRead, readRegister_none s h1 h2 h3, State.raise]
    exact raises_of_eq hcur hexec

end Sys2Proof.Proofs.Registers

/-! ## One micro-step of the broadcast ring (spec/44_broadcast_ring.md R182, R186 to R197) -/

namespace Sys2Proof.Proofs.RingMicroSteps

open Sys2Proof.Machine Sys2Proof.Proofs.Invariant Sys2Proof.Proofs.SlotMicroSteps

/-! ### What each micro-step answers -/

section Answers

variable {s : State} {r : Nat}

theorem exec_brInit_ok (hw : s.writer = none ∨ s.writer = some s.cur) :
    exec .brInit s = .next ((zeroCounter { s with writer := some s.cur }).endCommand .done {}) := by
  rw [exec, execBrInit, asWriter_ok s _ hw, State.done]

theorem enqStep_of_last {sent len : Word} {payload : List Byte} (hwop : s.wop = .enq sent len payload [])
    (pick : Nat) : enqStep s pick = publishItem s sent := by
  rw [enqStep, hwop]

theorem publishItem_ok (h : s.lapsReader = false) (sent : Word) :
    publishItem s sent = .next (((storeNext s sent).emit .itemEnqueued).endCommand .done {}) := by
  rw [publishItem, h]
  rfl

theorem exec_brRinit_ok (hr : r < s.params.NRD) (ho : (s.reader r).owner = none ∨ (s.reader r).owner = some s.cur)
    (hpub : s.published < 2 ^ 32) :
    exec (.brRinit r) s = .next ((zeroCursor (s.owning r) r).endCommand .done {}) := by
  rw [exec, execBrRinit, withReader_ok s r _ hr, asReader_ok s r _ ho]
  exact if_neg (Bool.eq_false_iff.1 ((tooFarAhead_false _).2 hpub))

theorem exec_brRinit_lapped (hr : r < s.params.NRD)
    (ho : (s.reader r).owner = none ∨ (s.reader r).owner = some s.cur) (hpub : 2 ^ 32 ≤ s.published) :
    exec (.brRinit r) s = .refused .counterLapped := by
  rw [exec, execBrRinit, withReader_ok s r _ hr, asReader_ok s r _ ho]
  exact if_pos ((tooFarAhead_iff _).2 hpub)

theorem exec_brIsempty_ok (hr : r < s.params.NRD) (hv : (s.reader r).valid = true) (hsc : s.scValid = true)
    (ho : (s.reader r).owner = none ∨ (s.reader r).owner = some s.cur) :
    exec (.brIsempty r) s =
      .next ((s.owning r).endCommand .done { code := boolCode (s.sendCounter == (s.reader r).numRecv) }) := by
  rw [exec, execBrIsempty, withReader_ok s r _ hr, if_neg (by simp [hv, hsc]), asReader_ok s r _ ho, State.done]
  rfl

theorem exec_brDeq_empty (hr : r < s.params.NRD) (hv : (s.reader r).valid = true) (hsc : s.scValid = true)
    (ho : (s.reader r).owner = none ∨ (s.reader r).owner = some s.cur)
    (hun : s.sendCounter - (s.reader r).numRecv = 0) :
    exec (.brDeq r) s = .next (((s.owning r).setLag r 0).endCommand .done { code := 0 }) := by
  rw [exec, execBrDeq, withReader_ok s r _ hr, if_neg (by simp [hv, hsc]), asReader_ok s r _ ho]
  exact if_pos hun

theorem exec_brDeq_take (hr : r < s.params.NRD) (hv : (s.reader r).valid = true) (hsc : s.scValid = true)
    (ho : (s.reader r).owner = none ∨ (s.reader r).owner = some s.cur)
    (hun : s.sendCounter - (s.reader r).numRecv ≠ 0) :
    exec (.brDeq r) s =
      .next (startCopy (s.owning r) r s.sendCounter (s.sendCounter - (s.reader r).numRecv)) := by
  rw [exec, execBrDeq, withReader_ok s r _ hr, if_neg (by simp [hv, hsc]), asReader_ok s r _ ho]
  exact if_neg hun

/-- What D3 and D4 report of a copy, by their test (R195, R196). -/
def copyResults (Q : Nat) (sent2 numRecv dropped : Word) (copy : List (Option Byte)) : Results :=
  { code := if stillWhole Q sent2 numRecv then 1 else 2
    val0 := if stillWhole Q sent2 numRecv then dropped else dropped + 1
    val1 := wordOfBytes (copyBytes copy)
    dout := (copyBytes copy).drop 4 }

theorem finishCopy_eq (s : State) (r : Nat) (dropped : Word) (copy : List (Option Byte)) :
    finishCopy s r dropped copy = .next ((s.setReader r { s.reader r with rop := .idle }).endCommand .done
      (copyResults s.params.Q s.sendCounter (s.reader r).numRecv dropped copy)) := rfl

theorem deqStep_of_last {sent dropped idx : Word} {copy : List (Option Byte)}
    (hrop : (s.reader r).rop = .deq sent dropped idx copy []) (pick : Nat) :
    deqStep s r pick = .next ((s.setReader r { s.reader r with rop := .idle }).endCommand .done
      (copyResults s.params.Q s.sendCounter (s.reader r).numRecv dropped copy)) := by
  rw [deqStep, hrop]
  exact finishCopy_eq s r dropped copy

end Answers

/-! ### What is left of a lag -/

/-- BR_INIT leaves of a lag the enqueues since the cursor was set (R277). -/
theorem lag_zeroCounter (s : State) (r : Nat) : (zeroCounter s).lag r = { left := 0, since := (s.lag r).since } :=
  List.getD_map s.lags Lag.reset fun l : Lag => ({ l with left := 0 } : Lag)

theorem lag_storeNext {s : State} (sent : Word) {r : Nat} (h : r < s.lags.length) :
    (storeNext s sent).lag r = { s.lag r with since := (s.lag r).since + 1 } := by
  simp [storeNext, State.lag, countEnqueue, h]

/-! ### The writer -/

/-- Settles O42: the counter's four bytes are 0, the lags keep the enqueues since. -/
theorem brInitZeroesTheCounter : Obligations.BrInitZeroesTheCounter := by
  intro s hinv hw
  have hparts := (inv_iff s).1 hinv
  refine ⟨_, exec_brInit_ok hw, endCommand_endsWith_of s _ .done {} hparts.cur rfl rfl, rfl, ⟨rfl, rfl, rfl, rfl⟩,
    readWord_writeWord _ _ _ hparts.image_wf, rfl, fun k hk => read_writeWord_outside _ _ _ _ (.inr hk), rfl, rfl, rfl,
    fun r _ => ?_⟩
  rw [State.endCommand_lag, lag_zeroCounter]
  exact ⟨Nat.zero_add _, rfl⟩

/-- Settles O45: E2 stores the next counter and counts one enqueue, unless that laps a reader. -/
theorem enqueuesPublishAfterTheirLastByte : Obligations.EnqueuesPublishAfterTheirLastByte := by
  intro s sent len payload pick hinv hwop
  have hparts := (inv_iff s).1 hinv
  have hlaps := lapsReader_iff s
  rw [hparts.readers_length] at hlaps
  rw [enqStep_of_last hwop]
  split
  next hfar => exact if_pos (hlaps.2 hfar)
  next hnear =>
    refine ⟨_, publishItem_ok (Bool.eq_false_iff.2 (mt hlaps.1 hnear)) sent,
      endCommand_endsWith_of s _ .done {} hparts.cur rfl rfl, readWord_writeWord _ _ _ hparts.image_wf, rfl, rfl, rfl,
      fun r hr => ?_, fun k hk => read_writeWord_outside _ _ _ _ (.inr hk), rfl, rfl, rfl, rfl, rfl⟩
    have hlag : r < s.lags.length := by rw [hparts.lags_length]; exact hr
    rw [State.endCommand_lag, State.emit_lag, lag_storeNext sent hlag]
    exact ⟨rfl, rfl⟩

/-! ### The readers -/

theorem owning_owner_other {s : State} {r q : Nat} (hq : q ≠ r) : (s.owning r).reader q = s.reader q :=
  s.reader_setReader_ne r q _ hq

/-- Settles O48: the cursor of the one agent is set to 0 and its lag to all that is published. -/
theorem brRinitZeroesTheCursor : Obligations.BrRinitZeroesTheCursor := by
  intro s r hinv hr ho
  have hparts := (inv_iff s).1 hinv
  have hlen : r < s.readers.length := (hparts.reader r hr).1
  split
  next hfar => exact exec_brRinit_lapped hr ho hfar
  next hnear =>
    have hread : (zeroCursor (s.owning r) r).reader r =
        { s.reader r with owner := some s.cur, numRecv := 0, valid := true, received := 0 } := by
      rw [zeroCursor]
      refine (State.reader_setReader_same (s.owning r) r _ (by simpa using hlen)).trans ?_
      rw [reader_owning hlen]
    have hlag : (zeroCursor (s.owning r) r).lag r = ⟨s.published, 0⟩ :=
      State.lag_setLag_same _ r _ (by rw [State.setReader_lags, State.setReader_lags, hparts.lags_length]; exact hr)
    refine ⟨_, exec_brRinit_ok hr ho (Nat.not_le.1 hnear), endCommand_endsWith_of s _ .done {} hparts.cur rfl rfl, rfl,
      ⟨rfl, rfl, rfl, rfl⟩, rfl, rfl, rfl, ⟨by simp, fun q hq => ?_⟩, ?_⟩
    · exact (State.reader_setReader_ne (s.owning r) r q _ hq).trans (owning_owner_other hq)
    · rw [State.endCommand_reader, State.endCommand_lag, hread, hlag]
      exact ⟨rfl, rfl, rfl, rfl, rfl, fun q hq => State.lag_setLag_ne _ r q _ hq⟩

/-- Settles O53: the cursor gets its owner, and nothing else of it changes. -/
theorem brIsemptyComparesCounterAndCursor : Obligations.BrIsemptyComparesCounterAndCursor := by
  intro s r hinv hr hv hsc ho
  have hparts := (inv_iff s).1 hinv
  have hcode : boolCode (s.sendCounter == (s.reader r).numRecv) =
      if s.sendCounter = (s.reader r).numRecv then 1 else 0 := by
    simp [boolCode]
  refine ⟨_, exec_brIsempty_ok hr hv hsc ho, ?_, rfl, ⟨rfl, rfl, rfl, rfl⟩, rfl, rfl, rfl,
    ⟨by simp, fun q hq => owning_owner_other hq⟩, ?_⟩
  · rw [← hcode]
    exact endCommand_endsWith_of s _ .done _ hparts.cur rfl rfl
  · rw [State.endCommand_reader, reader_owning (hparts.reader r hr).1]
    exact ⟨rfl, rfl, rfl, rfl⟩

/-! ### D1 -/

/-- R191: what a cursor has not seen, as a number. -/
theorem unseen_toNat (sent old : Word) : (sent - old).toNat = (sent.toNat + 2 ^ 32 - old.toNat) % 2 ^ 32 := by
  have h1 := sent.isLt
  have h2 := old.isLt
  rw [BitVec.toNat_sub]
  congr 1
  omega

/-- R192: what D1 drops. -/
theorem droppedItems_toNat (Q : Nat) (unseen : Word) :
    (droppedItems Q unseen).toNat = unseen.toNat - (Q - 1) := by
  have := unseen.isLt
  rw [droppedItems]
  split
  · rw [BitVec.toNat_sub, wrap32, BitVec.toNat_ofNat]
    omega
  · rw [Nat.sub_eq_zero_of_le (by omega)]
    rfl

/-- R193: the cursor after D1 has at most Q − 2 items unseen, and exactly one fewer where nothing was dropped. -/
theorem unseen_after_take {Q : Nat} (hQ : 2 ≤ Q) {sent old : Word} (hne : sent - old ≠ 0) :
    (sent - (old + droppedItems Q (sent - old) + 1)).toNat =
      if Q - 1 < (sent - old).toNat then Q - 2 else (sent - old).toNat - 1 := by
  have hlt := (sent - old).isLt
  have hdrop := droppedItems_toNat Q (sent - old)
  have hpos : (sent - old).toNat ≠ 0 := fun e => hne (BitVec.eq_of_toNat_eq e)
  have hdiff : sent - (old + droppedItems Q (sent - old) + 1) = (sent - old) - droppedItems Q (sent - old) - 1 := by
    ring
  rw [hdiff]
  generalize sent - old = unseen at hlt hdrop hpos
  generalize droppedItems Q unseen = dropped at hdrop
  rw [BitVec.toNat_sub, BitVec.toNat_sub, hdrop, show (1 : Word).toNat = 1 from rfl]
  split <;> omega

theorem wrap32_eq_pred_add_one {n : Nat} (h : 1 ≤ n) : wrap32 n = wrap32 (n - 1) + 1 := by
  obtain ⟨m, rfl⟩ := Nat.exists_eq_add_of_le' h
  exact BitVec.ofNat_add m 1

/-- The cursor after D1 of the executing port (R193). -/
theorem reader_startCopy {s : State} {r : Nat} (hr : r < s.readers.length) (sent unseen : Word) :
    (startCopy s r sent unseen).reader r =
      { s.reader r with
        numRecv := (s.reader r).numRecv + droppedItems s.params.Q unseen + 1
        received := (s.reader r).received + (droppedItems s.params.Q unseen).toNat + 1
        rop := .deq sent (droppedItems s.params.Q unseen)
          (wrap32 (((s.reader r).numRecv + droppedItems s.params.Q unseen + 1 - 1).toNat % s.params.Q))
          (List.replicate (4 + s.params.MAX) none)
          (slotOffsets s.params
            (wrap32 (((s.reader r).numRecv + droppedItems s.params.Q unseen + 1 - 1).toNat % s.params.Q)).toNat) } :=
  s.reader_setReader_same r _ hr

theorem lag_startCopy {s : State} {r : Nat} (hr : r < s.lags.length) (sent unseen : Word) :
    (startCopy s r sent unseen).lag r =
      ⟨(sent - ((s.reader r).numRecv + droppedItems s.params.Q unseen + 1)).toNat, 0⟩ :=
  State.lag_setLag_same _ r _ hr

/-- Settles O49: by whether anything is unseen. -/
theorem brDeqTakesAnItemOrReportsEmpty : Obligations.BrDeqTakesAnItemOrReportsEmpty := by
  intro s r hinv hr hv hsc ho Q sent old unseen
  have hparts := (inv_iff s).1 hinv
  have hp := Params.valid_parts _ hparts.params
  have hlen : r < s.readers.length := (hparts.reader r hr).1
  have hlags : r < s.lags.length := by rw [hparts.lags_length]; exact hr
  have hunseen : (sent - old).toNat = unseen := unseen_toNat sent old
  have hother (q : Nat) (hq : q ≠ r) : (s.owning r).reader q = s.reader q := owning_owner_other hq
  by_cases hun : sent - old = 0
  · have hzero : unseen = 0 := by rw [← hunseen, hun]; rfl
    refine ⟨_, exec_brDeq_empty hr hv hsc ho hun, rfl, ⟨rfl, rfl, rfl, rfl⟩, rfl, rfl, rfl, ⟨by simp, hother⟩, ?_⟩
    have hread : (((s.owning r).setLag r 0).endCommand .done { code := 0 }).reader r =
        { s.reader r with owner := some s.cur } := reader_owning hlen
    have hlag : (((s.owning r).setLag r 0).endCommand .done { code := 0 }).lag r = ⟨0, 0⟩ :=
      State.lag_setLag_same (s.owning r) r 0 hlags
    rw [hread, hlag, if_pos hzero]
    refine ⟨hv, ?_, rfl, fun q hq => State.lag_setLag_ne _ r q 0 hq,
      endCommand_endsWith_of s _ .done _ hparts.cur rfl rfl, rfl, rfl⟩
    exact (congrArg BitVec.toNat hun).symm
  · have hpos : unseen ≠ 0 := by rw [← hunseen]; exact fun e => hun (BitVec.eq_of_toNat_eq e)
    have hread := reader_startCopy (s := s.owning r) (by simpa using hlen) sent (sent - old)
    have hlag := lag_startCopy (s := s.owning r) hlags sent (sent - old)
    rw [reader_owning hlen] at hread hlag
    have hdrop := droppedItems_toNat Q (sent - old)
    have hleft := unseen_after_take hp.Q_low hun
    refine ⟨_, exec_brDeq_take hr hv hsc ho hun, rfl, ⟨rfl, rfl, rfl, rfl⟩, rfl, rfl, rfl,
      ⟨by simp [startCopy], fun q hq => ?_⟩, ?_⟩
    · exact (State.reader_setReader_ne (s.owning r) r q _ hq).trans (hother q hq)
    · rw [hread, hlag, if_neg hpos]
      refine ⟨hv, rfl, rfl, fun q hq => State.lag_setLag_ne _ r q _ hq, ⟨rfl, rfl⟩, droppedItems Q (sent - old), _, _,
        ?_, rfl, wrap32_mod_toNat hparts.params _, rfl, slotOffsets_nodup _ _, fun o => mem_slotOffsets _ _ o,
        fun hfew => ⟨?_, ?_⟩, fun hmany => ⟨?_, ?_⟩⟩
      · rw [hdrop, hunseen]
        split <;> omega
      · have hnone : droppedItems Q (sent - old) = 0 := if_neg (by omega)
        show old + droppedItems Q (sent - old) + 1 = old + 1
        rw [hnone, add_zero]
      · refine hleft.trans ?_
        rw [if_neg (show ¬s.params.Q - 1 < (sent - old).toNat by omega), hunseen]
      · have hsome : droppedItems Q (sent - old) = sent - old - wrap32 (Q - 1) := if_pos (by omega)
        have hQ : wrap32 Q = wrap32 (Q - 1) + 1 := wrap32_eq_pred_add_one (Nat.le_of_succ_le hp.Q_low)
        show old + droppedItems Q (sent - old) + 1 = sent - wrap32 Q + 2
        rw [hsome, hQ]
        ring
      · refine hleft.le.trans ?_
        rw [if_pos (show s.params.Q - 1 < (sent - old).toNat by omega)]

/-! ### D3 and D4 -/

/-- A copy with no byte missing is its bytes. -/
theorem map_copyBytes {copy : List (Option Byte)} (h : ∀ k, k < copy.length → (copy.getD k none).isSome = true) :
    (copyBytes copy).map some = copy := by
  apply List.ext_getElem (by simp [copyBytes])
  intro k h1 h2
  obtain ⟨b, hb⟩ := Option.isSome_iff_exists.1 (h k h2)
  rw [List.getD_eq_getElem _ _ h2] at hb
  simp [copyBytes, hb]

@[simp] theorem copyBytes_length (copy : List (Option Byte)) : (copyBytes copy).length = copy.length := by
  simp [copyBytes]

/-- Where nothing is pending, every byte of the copy is there. -/
theorem map_copyBytes_of_inv {s : State} (h : InvParts s) {r : Nat} (hr : r < s.params.NRD)
    {sent dropped idx : Word} {copy : List (Option Byte)}
    (hrop : (s.reader r).rop = .deq sent dropped idx copy []) :
    (copyBytes copy).map some = copy ∧ copy.length = 4 + s.params.MAX := by
  have hop := (h.reader r hr).2.rop
  rw [hrop, readerOpInv_deq] at hop
  obtain ⟨-, hlen, -, -, hcopied⟩ := hop
  refine ⟨map_copyBytes fun k hk => ?_, hlen⟩
  have hslot : slotBase s.params idx.toNat + k ∈ slotOffsets s.params idx.toNat :=
    (mem_slotOffsets _ _ _).2 ⟨by omega, by omega⟩
  have hthere := (hcopied _ hslot).resolve_left (by simp)
  rwa [Nat.add_sub_cancel_left] at hthere

/-- A little-endian word as a number (R52). -/
theorem wordOfBytes_toNat (bs : List Byte) :
    (wordOfBytes bs).toNat = (bs.getD 0 0).toNat + 2 ^ 8 * (bs.getD 1 0).toNat + 2 ^ 16 * (bs.getD 2 0).toNat +
      2 ^ 24 * (bs.getD 3 0).toNat := by
  have append_toNat {n m : Nat} (x : BitVec n) (y : BitVec m) : (x ++ y).toNat = x.toNat * 2 ^ m + y.toNat := by
    rw [BitVec.toNat_append, ← Nat.shiftLeft_add_eq_or_of_lt y.isLt, Nat.shiftLeft_eq]
  rw [wordOfBytes, append_toNat, append_toNat, append_toNat]
  omega

theorem stillWhole_iff (Q : Nat) (sent2 numRecv : Word) :
    stillWhole Q sent2 numRecv = true ↔ (sent2 - numRecv + 1).toNat < Q := decide_eq_true_iff

/-- Settles O51: by the test of D4. -/
theorem dequeuesDecideOkOrRacy : Obligations.DequeuesDecideOkOrRacy := by
  intro s r pick sent dropped idx copy hinv hr hrop test
  have hparts := (inv_iff s).1 hinv
  have hp := Params.valid_parts _ hparts.params
  obtain ⟨hcopy, hlen⟩ := map_copyBytes_of_inv hparts hr hrop
  have hwhole := stillWhole_iff s.params.Q s.sendCounter (s.reader r).numRecv
  refine ⟨_, copyBytes copy, _, deqStep_of_last hrop pick, endCommand_endsWith_of s _ .done _ hparts.cur rfl rfl,
    hcopy.symm, (copyBytes_length copy).trans hlen, wordOfBytes_toNat _, rfl, fun hlt => ?ok, fun hle => ?racy,
    fun hsent hfew => ?quiet, s.reader_setReader_same r _ (hparts.reader r hr).1,
    ⟨by simp, fun q hq => s.reader_setReader_ne r q _ hq⟩, rfl, ⟨rfl, rfl, rfl, rfl⟩, rfl, rfl, rfl⟩
  case ok => exact ⟨if_pos (hwhole.2 hlt), if_pos (hwhole.2 hlt)⟩
  case racy =>
    have hnot : ¬stillWhole s.params.Q s.sendCounter (s.reader r).numRecv = true := fun h =>
      Nat.not_lt.2 hle (hwhole.1 h)
    exact ⟨if_neg hnot, if_neg hnot⟩
  case quiet =>
    refine if_pos (hwhole.2 ?_)
    have hQ := hp.Q_high
    rw [hsent, BitVec.toNat_add, show (1 : Word).toNat = 1 from rfl, Nat.mod_eq_of_lt (by omega)]
    exact hfew

end Sys2Proof.Proofs.RingMicroSteps

/-! ## What a step makes of the counter and of a cursor (spec/44_broadcast_ring.md R187, R198) -/

namespace Sys2Proof.Proofs.RingSteps

open Sys2Proof.Machine Sys2Proof.Proofs.Invariant Sys2Proof.Proofs.RingMicroSteps

/-! ### The counter -/

/-- The first micro-step of a command leaves the counter, or is BR_INIT. -/
theorem exec_sendCounter {i : Instr} {s t : State} (e : exec i s = .next t) (hwf : Memory.wf s.image = true) :
    t.sendCounter = s.sendCounter ∨ (i = .brInit ∧ t.sendCounter = 0 ∧ t.scValid = true ∧ t.readers = s.readers) := by
  cases exec_next i s t e with
  | raised _ _ e | reported _ e | channel _ _ _ _ _ e | enq _ _ _ _ e | rinit _ _ _ _ _ e | owned _ _ _ _ _ e
    | empty _ _ _ _ _ _ e | deq _ _ _ _ _ _ _ e => subst e; exact .inl rfl
  | init hi _ e => subst e; exact .inr ⟨hi, readWord_writeWord _ _ _ hwf, rfl, rfl⟩

/-- A later micro-step of a dequeue leaves the counter. -/
theorem deqStep_sendCounter {s t : State} {r pick : Nat} (e : deqStep s r pick = .next t) :
    t.sendCounter = s.sendCounter := by
  cases deqStep_next s t r pick e with
  | idle _ e | byte _ _ _ _ _ _ _ _ _ e => subst e; rfl
  | finished _ _ _ _ _ e => rw [finishCopy] at e; cases e; rfl

/-- A later micro-step of an enqueue leaves the counter, or is E2. -/
theorem enqStep_sendCounter {s t : State} {pick : Nat} (h : InvParts s) (e : enqStep s pick = .next t) :
    t.sendCounter = s.sendCounter ∨
      ((∃ len payload, s.wop = .enq s.sendCounter len payload []) ∧ t.wop = .idle ∧
        t.sendCounter = s.sendCounter + 1 ∧ t.scValid = true) := by
  cases enqStep_next s t pick e with
  | idle _ e => subst e; exact .inl rfl
  | byte sent len payload pending q hwop hq _ e =>
    subst e
    obtain ⟨-, -, -, -, -, hslot⟩ := (writerInv_enq s sent len payload pending hwop).1 h.writer
    have hQ := (Params.valid_parts _ h.params).Q_low
    exact .inl (readWord_write_outside _ _ _ _ (.inr (slot_within _ _ _ (Nat.mod_lt _ (by omega)) (hslot q hq)).1))
  | published sent len payload hwop _ e =>
    obtain ⟨hsc, -, rfl, -⟩ := (writerInv_enq s sent len payload [] hwop).1 h.writer
    subst e
    exact .inr ⟨⟨len, payload, hwop⟩, rfl, readWord_writeWord _ _ _ h.image_wf, hsc⟩

/-- Settles O47: by the kind of step; the byte micro-steps write slots, past the counter. -/
theorem sendCounterMovesOnlyByPublishing : Obligations.SendCounterMovesOnlyByPublishing := by
  intro s t hinv e
  have h := (inv_iff s).1 hinv
  cases step_kind s _ e with
  | idle _ _ _ e | illegal _ _ _ _ _ _ _ _ _ e | host _ _ _ _ _ _ _ e => cases e; exact .inl rfl
  | reset _ _ ht e => cases e; exact .inr (.inr (.inr ⟨ht, rfl⟩))
  | enq ts n a pick hm hf e =>
    have hu := parts_withCur h (h.writer_port a (inFlight_enq s a hf).1) ts n
    rcases enqStep_sendCounter hu e with hsame | ⟨hwop, hidle, hnext, hsc⟩
    · exact .inl hsame
    · exact .inr (.inl ⟨⟨a, hm, hf⟩, hwop, hidle, hnext, hsc⟩)
  | deq ts n a r pick _ _ e =>
    have hsame := deqStep_sendCounter e
    exact .inl hsame
  | command ts n a cmd i hi _ _ e =>
    rcases exec_sendCounter e h.image_wf with hsame | ⟨rfl, hzero, hsc, hreaders⟩
    · exact .inl hsame
    · exact .inr (.inr (.inl ⟨⟨a, hi⟩, hzero, hsc, hreaders⟩))

/-! ### A cursor of another agent -/

/-- A cursor read back from a list of cursors in which another one was replaced. -/
theorem reader_of_set_ne {s t : State} {q r : Nat} {rd : Reader} (h : t.readers = s.readers.set q rd) (hr : r ≠ q) :
    t.reader r = s.reader r := by
  rw [State.reader, h]
  exact getD_set_ne _ _ _ _ _ hr

theorem reader_of_readers {s t : State} (h : t.readers = s.readers) (r : Nat) : t.reader r = s.reader r := by
  rw [State.reader, State.reader, h]

/-- The first micro-step of a command leaves every cursor, or replaces one that its port may use. -/
theorem exec_readers {i : Instr} {s t : State} (e : exec i s = .next t) :
    t.readers = s.readers ∨ ∃ q rd, i.readerUnit? = some q ∧
      ((s.reader q).owner = none ∨ (s.reader q).owner = some s.cur) ∧ t.readers = s.readers.set q rd := by
  cases exec_next i s t e with
  | raised _ _ e | reported _ e | channel _ _ _ _ _ e | init _ _ e | enq _ _ _ _ e => subst e; exact .inl rfl
  | rinit q hi _ _ ho e => subst e hi; exact .inr ⟨q, _, rfl, ho, List.set_set _⟩
  | owned q _ hi _ ho e => subst e hi; exact .inr ⟨q, _, rfl, ho, rfl⟩
  | empty q _ hi _ ho _ e => subst e hi; exact .inr ⟨q, _, rfl, ho, rfl⟩
  | deq q hi _ ho _ _ _ e => subst e hi; exact .inr ⟨q, _, rfl, ho, List.set_set _⟩

theorem enqStep_readers {s t : State} {pick : Nat} (e : enqStep s pick = .next t) : t.readers = s.readers := by
  cases enqStep_next s t pick e with
  | idle _ e | byte _ _ _ _ _ _ _ _ e | published _ _ _ _ _ e => subst e; rfl

theorem deqStep_readers {s t : State} {r pick : Nat} (e : deqStep s r pick = .next t) :
    t.readers = s.readers ∨ ∃ rd, t.readers = s.readers.set r rd := by
  cases deqStep_next s t r pick e with
  | idle _ e => subst e; exact .inl rfl
  | byte _ _ _ _ _ _ _ _ _ e => subst e; exact .inr ⟨_, rfl⟩
  | finished _ _ _ _ _ e => rw [finishCopy] at e; cases e; exact .inr ⟨_, rfl⟩

theorem not_moves_of_reset {s : State} (h : ∃ ts, s.turns = .reset :: ts) (a : Nat) : ¬s.moves a := by
  obtain ⟨ts, hturns⟩ := h
  rintro ⟨pick, hm⟩
  rw [State.takeTurn, hturns] at hm
  cases hm

/-- A move of agent `a` leaves every cursor that another agent uses. -/
theorem step_reader_of_other {s t : State} {a b r : Nat} (hm : s.moves a) (e : step s = .next t)
    (ho : (s.reader r).owner = some b) (hb : b ≠ a) : t.reader r = s.reader r := by
  have hne {q c : Nat} (hc : s.moves c) (hq : (s.reader q).owner = none ∨ (s.reader q).owner = some c) : r ≠ q := by
    rintro rfl
    rw [ho, moves_unique s c a hc hm] at hq
    rcases hq with hq | hq <;> cases hq
    exact hb rfl
  cases step_kind s _ e with
  | idle _ _ _ e | illegal _ _ _ _ _ _ _ _ _ e | host _ _ _ _ _ _ _ e => cases e; rfl
  | reset _ _ ht _ => exact absurd hm (not_moves_of_reset ht a)
  | enq _ _ _ _ _ _ e =>
    have hsame := enqStep_readers e
    exact reader_of_readers (s := s) hsame r
  | deq _ _ c q _ hc hf e =>
    rcases deqStep_readers e with hsame | ⟨rd, hset⟩
    · exact reader_of_readers (s := s) hsame r
    · exact reader_of_set_ne (s := s) hset (hne hc (.inr (inFlight_deq s c q hf).2.1))
  | command _ _ c _ _ hi _ _ e =>
    rcases exec_readers e with hsame | ⟨q, rd, -, hq, hset⟩
    · exact reader_of_readers (s := s) hsame r
    · exact reader_of_set_ne (s := s) hset (hne hi.1 hq)

/-! ### A dequeue beside other cursors -/

section Alike

variable {s : State} {q r : Nat} {rd : Reader}

theorem setReader_comm (hq : q ≠ r) (x : Reader) :
    (s.setReader q rd).setReader r x = (s.setReader r x).setReader q rd := by
  simp only [State.setReader, List.set_comm _ _ hq]

theorem owning_setReader (hq : q ≠ r) : (s.setReader q rd).owning r = (s.owning r).setReader q rd := by
  rw [State.owning, s.reader_setReader_ne q r rd hq.symm]
  exact setReader_comm hq _

theorem startCopy_setReader (hq : q ≠ r) (sent unseen : Word) :
    startCopy (s.setReader q rd) r sent unseen = (startCopy s r sent unseen).setReader q rd := by
  simp only [startCopy, s.reader_setReader_ne q r rd hq.symm, State.setReader_params, setReader_comm hq]
  rfl

/-- A micro-step that does the same whatever cursor `q` holds. -/
def Alike (s : State) (q : Nat) (rd : Reader) (run : State → StepOutcome) : Prop :=
  match run s with
  | .next t => run (s.setReader q rd) = .next (t.setReader q rd)
  | .fault f => run (s.setReader q rd) = .fault f
  | .refused e => run (s.setReader q rd) = .refused e

theorem alike_of_next {run : State → StepOutcome} {t : State} (h : run s = .next t)
    (h' : run (s.setReader q rd) = .next (t.setReader q rd)) : Alike s q rd run := by
  rw [Alike, h]
  exact h'

theorem alike_of_refused {run : State → StepOutcome} {e : Refusal} (h : run s = .refused e)
    (h' : run (s.setReader q rd) = .refused e) : Alike s q rd run := by
  rw [Alike, h]
  exact h'

theorem alike_of_fault {run : State → StepOutcome} {f : Fault} (h : run s = .fault f)
    (h' : run (s.setReader q rd) = .fault f) : Alike s q rd run := by
  rw [Alike, h]
  exact h'

/-- D1, with or without something unseen, or refused, or ended by a check. -/
theorem alike_brDeq (hq : q ≠ r) : Alike s q rd (exec (.brDeq r)) := by
  have hreader : (s.setReader q rd).reader r = s.reader r := s.reader_setReader_ne q r rd hq.symm
  by_cases hr : r < s.params.NRD
  swap
  · refine alike_of_next (ErrorsAndRefusals.exec_badReader rfl (Nat.not_lt.1 hr))
      (ErrorsAndRefusals.exec_badReader rfl (Nat.not_lt.1 hr))
  by_cases hchecks : (s.reader r).valid = false ∨ s.scValid = false
  · have hraise (u : State) (hu : r < u.params.NRD) (h : (u.reader r).valid = false ∨ u.scValid = false) :
        exec (.brDeq r) u = .next (u.endCommand .uninitialized {}) := by
      rw [exec, execBrDeq, withReader_ok u r _ hu, if_pos h, State.raise]
    exact alike_of_next (hraise s hr hchecks) (hraise _ hr (by rw [hreader]; exact hchecks))
  obtain ⟨hv, hsc⟩ : (s.reader r).valid = true ∧ s.scValid = true := by simpa using hchecks
  by_cases ho : (s.reader r).owner = none ∨ (s.reader r).owner = some s.cur
  swap
  · obtain ⟨a, howner⟩ := Option.ne_none_iff_exists'.1 fun h => ho (.inl h)
    have ha : a ≠ s.cur := fun h => ho (.inr (h ▸ howner))
    obtain ⟨-, href⟩ := (ErrorsAndRefusals.brokenContractsAreRefused s r a ha hr).2 howner
    obtain ⟨-, href'⟩ := (ErrorsAndRefusals.brokenContractsAreRefused (s.setReader q rd) r a ha hr).2
      (by rw [hreader]; exact howner)
    exact alike_of_refused (href hv hsc).1 (href' (by rw [hreader]; exact hv) hsc).1
  by_cases hun : s.sendCounter - (s.reader r).numRecv = 0
  · have hempty := exec_brDeq_empty (s := s.setReader q rd) hr (by rw [hreader]; exact hv) hsc
      (by rw [hreader]; exact ho) (by rw [hreader]; exact hun)
    rw [owning_setReader hq] at hempty
    exact alike_of_next (exec_brDeq_empty hr hv hsc ho hun) hempty
  · have htake := exec_brDeq_take (s := s.setReader q rd) hr (by rw [hreader]; exact hv) hsc
      (by rw [hreader]; exact ho) (by rw [hreader]; exact hun)
    rw [owning_setReader hq, startCopy_setReader hq, hreader] at htake
    exact alike_of_next (exec_brDeq_take hr hv hsc ho hun) htake

/-- D2, or D3 with D4. -/
theorem alike_deqStep (hq : q ≠ r) (pick : Nat) : Alike s q rd fun u => deqStep u r pick := by
  have hreader : (s.setReader q rd).reader r = s.reader r := s.reader_setReader_ne q r rd hq.symm
  cases hrop : (s.reader r).rop with
  | idle =>
    have hidle (u : State) (h : (u.reader r).rop = .idle) : deqStep u r pick = .next u := by rw [deqStep, h]
    exact alike_of_next (hidle s hrop) (hidle _ (by rw [hreader]; exact hrop))
  | deq sent dropped idx copy pending =>
    have hrop' : ((s.setReader q rd).reader r).rop = .deq sent dropped idx copy pending := by rw [hreader]; exact hrop
    cases pending with
    | nil =>
      have hlast := deqStep_of_last hrop' pick
      rw [hreader, setReader_comm hq] at hlast
      exact alike_of_next (deqStep_of_last hrop pick) hlast
    | cons o os =>
      have hstep := SlotMicroSteps.deqStep_of_pending hrop pick
      have hstep' := SlotMicroSteps.deqStep_of_pending hrop' pick
      by_cases hin : choosePending o os pick < s.params.ringBytes
      · rw [SlotMicroSteps.copySlotByte_ok hin] at hstep
        rw [SlotMicroSteps.copySlotByte_ok (s := s.setReader q rd) hin, hreader, setReader_comm hq] at hstep'
        exact alike_of_next hstep hstep'
      · exact alike_of_fault (hstep.trans (if_neg hin)) (hstep'.trans (if_neg hin))

end Alike

/-- Settles O54: a step replaces only cursors of the agent that moves, and a dequeue looks at its own cursor only. -/
theorem readersAreIndependent : Obligations.ReadersAreIndependent :=
  ⟨fun _ _ _ _ _ hm e ho hb => step_reader_of_other hm e ho hb,
    fun _ _ _ _ hq => ⟨alike_brDeq hq, fun pick => alike_deqStep hq pick⟩⟩

/-! ### Drop accounting -/

theorem settled_of_idle {rd : Reader} (h : rd.rop = .idle) : rd.settled = rd.numRecv := by
  rw [Reader.settled, h]

theorem settled_of_deq {rd : Reader} {sent dropped idx : Word} {copy : List (Option Byte)} {pending : List Nat}
    (h : rd.rop = .deq sent dropped idx copy pending) : rd.settled = rd.numRecv - dropped - 1 := by
  rw [Reader.settled, h]

/-- A command that is no BR_RINIT of the cursor leaves what its finished dequeues account for; D1 adds to `numRecv` what
it holds back. -/
theorem exec_settled {i : Instr} {s t : State} {r : Nat} (h : InvParts s) (hfree : NothingInFlight s)
    (hr : r < s.params.NRD) (e : exec i s = .next t) :
    (t.reader r).settled = (s.reader r).settled ∨
      (i = .brRinit r ∧ (t.reader r).settled = 0 ∧ (t.reader r).valid = true ∧ (t.reader r).rop = .idle) := by
  have hlen := (h.reader r hr).1
  have howning (q : Nat) : ((s.owning q).reader r).settled = (s.reader r).settled := by
    by_cases hq : r = q
    · subst hq
      rw [reader_owning hlen]
      rfl
    · rw [owning_owner_other hq]
  cases exec_next i s t e with
  | raised _ _ e | reported _ e | channel _ _ _ _ _ e | init _ _ e | enq _ _ _ _ e => subst e; exact .inl rfl
  | owned q _ _ _ _ e | empty q _ _ _ _ _ e => subst e; exact .inl (howning q)
  | rinit q hi _ _ ho e =>
    subst e
    by_cases hq : r = q
    · subst hq
      right
      have hread : (zeroCursor (s.owning r) r).reader r =
          { (s.owning r).reader r with numRecv := 0, valid := true, received := 0 } :=
        State.reader_setReader_same (s.owning r) r _ (by simpa using hlen)
      have hidle : ((s.owning r).reader r).rop = .idle := by
        rw [reader_owning hlen]
        exact hfree.rop_idle h hr ho
      rw [State.endCommand_reader, hread]
      exact ⟨hi, settled_of_idle hidle, rfl, hidle⟩
    · left
      rw [State.endCommand_reader, ← howning q]
      exact congrArg Reader.settled (State.reader_setReader_ne (s.owning q) q r _ hq)
  | deq q hi _ ho _ _ _ e =>
    subst e
    left
    by_cases hq : r = q
    · subst hq
      rw [settled_of_idle (hfree.rop_idle h hr ho),
        settled_of_deq (congrArg Reader.rop (reader_startCopy (s := s.owning r) (by simpa using hlen) _ _)),
        reader_startCopy (s := s.owning r) (by simpa using hlen), reader_owning hlen]
      dsimp only
      ring
    · rw [← howning q]
      exact congrArg Reader.settled (State.reader_setReader_ne (s.owning q) q r _ hq)

/-- A dequeue that ends reports what `settled` grows by. -/
theorem copyResults_settled {rd : Reader} {sent dropped idx : Word} {copy : List (Option Byte)}
    (hrop : rd.rop = .deq sent dropped idx copy []) (Q : Nat) (sent2 : Word) :
    ((copyResults Q sent2 rd.numRecv dropped copy).code = 1 ∧
        rd.numRecv = rd.settled + (copyResults Q sent2 rd.numRecv dropped copy).val0 + 1) ∨
      ((copyResults Q sent2 rd.numRecv dropped copy).code = 2 ∧
        rd.numRecv = rd.settled + (copyResults Q sent2 rd.numRecv dropped copy).val0) := by
  rw [settled_of_deq hrop]
  by_cases hwhole : stillWhole Q sent2 rd.numRecv = true
  · left
    rw [copyResults, if_pos hwhole, if_pos hwhole]
    exact ⟨rfl, by ring⟩
  · right
    rw [copyResults, if_neg hwhole, if_neg hwhole]
    exact ⟨rfl, by ring⟩

/-- Settles O55: by the kind of step; only D3 with D4 lets go of what D1 held back. -/
theorem dropsAreAccountedExactly : Obligations.DropsAreAccountedExactly := by
  intro s t r hinv hr e
  have h := (inv_iff s).1 hinv
  have hlen := (h.reader r hr).1
  have hno {a : Nat} (hm : s.moves a) (hf : s.inFlight a ≠ .deq r) :
      ∀ b, s.moves b → s.inFlight b = .deq r → (t.reader r).rop ≠ .idle := fun b hb hfb =>
    absurd (moves_unique s a b hm hb ▸ hfb) hf
  have hfree {a : Nat} (hf : s.inFlight a = .nothing) : s.inFlight a ≠ .deq r := by
    rw [hf]
    exact fun e => nomatch e
  cases step_kind s _ e with
  | idle _ _ hn e =>
    cases e
    exact .inl ⟨rfl, fun a hm hf => absurd hf (hfree (hn a hm))⟩
  | reset _ _ ht e =>
    cases e
    refine .inr (.inr (.inl ⟨ht, ?_⟩))
    rw [ResetInput.reader_applyReset]
    exact ⟨rfl, rfl, rfl⟩
  | enq _ _ a _ hm hf e =>
    have hsame := enqStep_readers e
    refine .inl ⟨congrArg Reader.settled (reader_of_readers (s := s) hsame r), hno hm ?_⟩
    rw [hf]
    exact fun e => nomatch e
  | illegal _ _ a _ _ hm hf _ _ e => cases e; exact .inl ⟨rfl, hno hm (hfree hf)⟩
  | host _ _ a _ hm hf _ e => cases e; exact .inl ⟨rfl, hno hm (hfree hf)⟩
  | command ts n a cmd i hi hc _ e =>
    have hpresent := (parts_withTurns h ts n).present a cmd (nextLine_port s a _ hc)
    rcases exec_settled hpresent (nothingInFlight_present ts n cmd hi.2.1) hr e with
      hsame | ⟨rfl, hzero, hvalid, hidle⟩
    · exact .inl ⟨hsame, hno hi.1 (hfree hi.2.1)⟩
    · exact .inr (.inl ⟨⟨a, hi⟩, hzero, hvalid, hidle⟩)
  | deq ts n a q pick hm hf e =>
    by_cases hq : q = r
    swap
    · have hother : t.reader r = s.reader r := by
        rcases deqStep_readers e with hsame | ⟨rd, hset⟩
        · exact reader_of_readers (s := s) hsame r
        · exact reader_of_set_ne (s := s) hset (Ne.symm hq)
      refine .inl ⟨congrArg Reader.settled hother, hno hm ?_⟩
      rw [hf]
      exact fun e => hq (InFlight.deq.inj e)
    subst hq
    obtain ⟨-, howner, hop⟩ := inFlight_deq s a q hf
    let u : State := { s with turns := ts, choices := n, cur := a }
    cases deqStep_next u t q pick e with
    | idle hidle _ => exact absurd hidle hop
    | byte sent dropped idx copy pending o hrop _ _ e =>
      subst e
      rw [u.reader_setReader_same q _ hlen]
      exact .inl ⟨(settled_of_deq hrop).symm, fun _ _ _ e => nomatch e⟩
    | finished sent dropped idx copy hrop e =>
      have ha : a < s.ports.length := (h.reader q hr).2.owner_port a howner
      rw [finishCopy_eq] at e
      cases e
      have hport := (endCommand_endsWith_of u (u.setReader q { u.reader q with rop := .idle }) .done
        (copyResults u.params.Q u.sendCounter (u.reader q).numRecv dropped copy) ha rfl rfl).1
      rw [show u.cur = a from rfl] at hport
      have hread := u.reader_setReader_same q { u.reader q with rop := .idle } hlen
      refine .inr (.inr (.inr ⟨a, hm, hf, howner, ?_⟩))
      rw [hport, State.endCommand_reader, hread]
      exact ⟨rfl, rfl, rfl, copyResults_settled hrop _ _⟩

end Sys2Proof.Proofs.RingSteps

/-! ## Commands of the ring that nothing interrupts (spec/44_broadcast_ring.md R183 to R196, spec/20_memory.md R58) -/

namespace Sys2Proof.Proofs.UninterruptedRuns

open Sys2Proof.Machine Sys2Proof.Proofs.Invariant Sys2Proof.Proofs.SlotMicroSteps Sys2Proof.Proofs.RingMicroSteps

/-! ### Runs -/

theorem run_zero (s : State) : Host.Core.run Sys2Proof.core 0 s = .next s := rfl

theorem run_succ {s u : State} (h : step s = .next u) (k : Nat) :
    Host.Core.run Sys2Proof.core (k + 1) s = Host.Core.run Sys2Proof.core k u := by
  have hcore : Sys2Proof.core.step s = .next u := h
  simp only [Host.Core.run, hcore]

/-- The turns of one agent laid down: the first of them, and the others. -/
theorem turns_cons {s : State} {a n : Nat} {picks : List Nat} {rest : List Turn} (hlen : picks.length = n + 1)
    (h : s.turns = picks.map (Turn.agent a) ++ rest) :
    ∃ (pick : Nat) (picks' : List Nat), picks'.length = n ∧ s.turns = .agent a pick :: (picks'.map (Turn.agent a) ++ rest) := by
  obtain ⟨pick, picks', rfl⟩ := List.exists_cons_of_length_eq_add_one hlen
  exact ⟨pick, picks', Nat.succ.inj hlen, h⟩

/-- The first micro-step of a command whose turn it is. -/
theorem step_of_command {s : State} {a pick : Nat} {ts : List Turn} {cmd : Command} {i : Instr}
    (hturns : s.turns = .agent a pick :: ts) (hfree : s.inFlight a = .nothing)
    (hline : s.nextLine a = some (.command cmd)) (hdecode : decode cmd.word = .instr i) :
    step s = exec i (State.present { s with turns := ts } a cmd) := by
  obtain ⟨u, rfl, hstep, -⟩ := Turns.stepIssuesTheDecodedCommand s a pick ts cmd i hturns hfree hline hdecode
  exact hstep

/-- The port of a command that was presented on port `a` and has ended there. -/
theorem port_of_ended {s t : State} {a : Nat} {cmd : Command} {st : Status} {res : Results} (ha : a < s.ports.length)
    (h : t.ports = (s.present a cmd).ports.set a (((s.present a cmd).port a).finish st res)) :
    (t.port a).status = st.number ∧ (t.port a).code = res.code ∧ (t.port a).val0 = res.val0 ∧
      (t.port a).val1 = res.val1 ∧ (t.port a).dout = res.dout ∧ (t.port a).pc = (s.port a).pc + 1 ∧
      ∀ b, b ≠ a → t.port b = s.port b := by
  have hport : t.port a = ((s.present a cmd).port a).finish st res := by
    rw [State.port, h]
    exact getD_set_same _ _ _ _ (by simpa using ha)
  rw [hport, s.present_port a cmd ha]
  refine ⟨rfl, rfl, rfl, rfl, rfl, rfl, fun b hb => ?_⟩
  rw [State.port, h]
  exact (getD_set_ne _ _ _ _ _ hb).trans (s.port_setPort_ne a b _ hb)

/-! ### The bytes of a slot -/

/-- The item's bytes for the offsets of its slot are the item's bytes in slot order (R185). -/
theorem map_itemByteAt (p : Params) (i : Nat) (len : Word) {payload : List Byte} (h : payload.length = p.MAX) :
    (slotOffsets p i).map (itemByteAt (slotBase p i) len payload) = itemBytes len payload := by
  apply List.ext_getElem (by simp [h])
  intro k h1 h2
  simp only [List.getElem_map, slotOffsets, List.getElem_range', itemByteAt, Nat.one_mul, Nat.add_sub_cancel_left,
    List.getD_eq_getElem _ _ h2]

/-- A slot is the item where each of its bytes is the item's. -/
theorem slotBytes_of_item {s : State} {i : Nat} {len : Word} {payload : List Byte} (hlen : payload.length = s.params.MAX)
    (h : ∀ o ∈ slotOffsets s.params i, Memory.read s.image o = itemByteAt (slotBase s.params i) len payload o) :
    s.slotBytes i = itemBytes len payload :=
  (List.map_congr_left h).trans (map_itemByteAt s.params i len hlen)

/-- A slot is as before where each of its bytes is. -/
theorem slotBytes_congr {s t : State} (hp : t.params = s.params) {i : Nat}
    (h : ∀ o ∈ slotOffsets s.params i, Memory.read t.image o = Memory.read s.image o) :
    t.slotBytes i = s.slotBytes i := by
  unfold State.slotBytes
  rw [hp]
  exact List.map_congr_left h

/-- A string of at least four bytes is the length and payload read from it (R51, R52). -/
theorem itemBytes_wordOfBytes {bs : List Byte} (h : 4 ≤ bs.length) : itemBytes (wordOfBytes bs) (bs.drop 4) = bs := by
  obtain ⟨b0, b1, b2, b3, rest, rfl⟩ : ∃ b0 b1 b2 b3 rest, bs = b0 :: b1 :: b2 :: b3 :: rest := by
    match bs, h with
    | b0 :: b1 :: b2 :: b3 :: rest, _ => exact ⟨b0, b1, b2, b3, rest, rfl⟩
  have hword := wordOfBytes_toNat (b0 :: b1 :: b2 :: b3 :: rest)
  simp only [List.getD_cons_zero, List.getD_cons_succ] at hword
  have hbyte (k : Nat) (b : Byte)
      (hb : (wordOfBytes (b0 :: b1 :: b2 :: b3 :: rest)).toNat / 2 ^ k % 2 ^ 8 = b.toNat) :
      (wordOfBytes (b0 :: b1 :: b2 :: b3 :: rest)).extractLsb' k 8 = b := by
    apply BitVec.eq_of_toNat_eq
    rw [BitVec.extractLsb'_toNat, Nat.shiftRight_eq_div_pow, hb]
  have h0 := b0.isLt
  have h1 := b1.isLt
  have h2 := b2.isLt
  have h3 := b3.isLt
  rw [itemBytes, hbyte 0 b0 (by omega), hbyte 8 b1 (by omega), hbyte 16 b2 (by omega), hbyte 24 b3 (by omega)]
  rfl

/-! ### An enqueue -/

/-- What an uninterrupted enqueue makes of a state with its bytes `pending`. -/
structure Stored (u : State) (a : Nat) (sent len : Word) (payload : List Byte) (pending : List Nat)
    (rest : List Turn) (t : State) : Prop where
  turns : t.turns = rest
  wop : t.wop = .idle
  sendCounter : t.sendCounter = sent + 1
  events : t.events = u.events ++ [.itemEnqueued]
  params : t.params = u.params
  channels : t.channels = u.channels
  readers : t.readers = u.readers
  ports : t.ports = u.ports.set a ((u.port a).finish .done {})
  image : ∀ k, 4 ≤ k → Memory.read t.image k =
    if k ∈ pending then itemByteAt (slotBase u.params (sent.toNat % u.params.Q)) len payload k
    else Memory.read u.image k

theorem inFlight_of_writer {s : State} {a : Nat} (hw : s.writer = some a) (hwop : s.wop ≠ .idle) :
    s.inFlight a = .enq := by
  rw [State.inFlight, if_pos ((enqueuing_iff s a).2 ⟨hw, hwop⟩)]

/-- Byte after byte in any order, then E2. -/
theorem run_enqueue {a n : Nat} {sent len : Word} {payload : List Byte} {rest : List Turn} :
    ∀ {u : State} {pending picks : List Nat}, InvParts u → u.writer = some a →
      u.wop = .enq sent len payload pending → u.lapsReader = false → pending.length = n → picks.length = n + 1 →
      u.turns = picks.map (Turn.agent a) ++ rest →
      ∃ t, Host.Core.run Sys2Proof.core (n + 1) u = .next t ∧ Stored u a sent len payload pending rest t := by
  induction n with
  | zero =>
    intro u pending picks hinv hw hwop hlaps hn hpicks hturns
    obtain rfl := List.length_eq_zero_iff.1 hn
    obtain ⟨pick, picks', hp, hturns⟩ := turns_cons hpicks hturns
    obtain rfl := List.length_eq_zero_iff.1 hp
    have hflight := inFlight_of_writer hw (by rw [hwop]; exact fun e => nomatch e)
    obtain ⟨-, -, hstep⟩ := (Turns.stepContinuesTheCommandInFlight u a pick _ hturns).1 hflight
    let v : State := { u with turns := rest, cur := a }
    have hlast : step u = .next (((storeNext v sent).emit .itemEnqueued).endCommand .done {}) :=
      hstep.trans ((enqStep_of_last (s := v) hwop pick).trans (publishItem_ok (s := v) hlaps sent))
    exact ⟨_, (run_succ hlast 0).trans (run_zero _), rfl, rfl, readWord_writeWord _ _ _ hinv.image_wf, rfl, rfl, rfl,
      rfl, rfl, fun k hk => read_writeWord_outside _ _ _ _ (.inr hk)⟩
  | succ n ih =>
    intro u pending picks hinv hw hwop hlaps hn hpicks hturns
    obtain ⟨o, os, rfl⟩ := List.exists_cons_of_length_eq_add_one hn
    obtain ⟨pick, picks', hp, hturns⟩ := turns_cons hpicks hturns
    have hflight := inFlight_of_writer hw (by rw [hwop]; exact fun e => nomatch e)
    obtain ⟨-, -, hstep⟩ := (Turns.stepContinuesTheCommandInFlight u a pick _ hturns).1 hflight
    have hq := choosePending_mem o os pick
    generalize hpick : choosePending o os pick = q at hq
    let v : State := { u with turns := picks'.map (Turn.agent a) ++ rest, cur := a }
    let b := itemByteAt (slotBase u.params (sent.toNat % u.params.Q)) len payload q
    have hbyte : step u = .next { v with
        image := Memory.write u.image q b, wop := .enq sent len payload ((o :: os).erase q) } := by
      rw [hstep, enqStep_of_pending (s := v) hwop, hpick]
      exact writeSlotByte_ok (s := v) (pending_lt_ringBytes_of_enq hinv hwop hq) sent len payload (o :: os)
    obtain ⟨-, -, -, -, hnodup, -⟩ := (writerInv_enq u sent len payload _ hwop).1 hinv.writer
    obtain ⟨t, hrun, ht⟩ := ih (step_keeps hinv hbyte) hw rfl hlaps
      ((List.length_erase_of_mem hq).trans (Nat.succ.inj hn)) hp rfl
    refine ⟨t, (run_succ hbyte _).trans hrun, { ht with image := fun k hk => (ht.image k hk).trans ?_ }⟩
    by_cases hkq : k = q
    · subst hkq
      rw [if_neg hnodup.not_mem_erase, if_pos hq]
      exact Memory.read_write_same _ _ _ hinv.image_wf
    · have hsame : Memory.read (Memory.write u.image q b) k = Memory.read u.image k :=
        Memory.read_write_ne _ _ _ _ hkq
      simp only [List.mem_erase_of_ne hkq, hsame]
      rfl

/-- Settles O46: E0, then `run_enqueue` from every byte of the slot pending. -/
theorem uninterruptedEnqueuesStoreTheirItem : Obligations.UninterruptedEnqueuesStoreTheirItem := by
  intro s a picks rest cmd hinv hfree hline hdecode hdin hsc hw hlaps hpicks hturns
  have hparts := (inv_iff s).1 hinv
  have ha : a < s.ports.length := nextLine_port s a _ hline
  have hQ := (Params.valid_parts _ hparts.params).Q_low
  let slot := s.sendCounter.toNat % s.params.Q
  have hslotQ : slot < s.params.Q := Nat.mod_lt _ (by omega)
  obtain ⟨pick, picks', hp, hturns⟩ := turns_cons (n := 4 + s.params.MAX + 1) (by omega) hturns
  let v : State := { s with turns := picks'.map (Turn.agent a) ++ rest }
  have hvdin : (v.present a cmd).din = cmd.din := v.present_din a cmd ha
  have hfirst : step s = .next { v.present a cmd with
      writer := some a, wop := .enq s.sendCounter cmd.arg0 cmd.din (slotOffsets s.params slot) } := by
    rw [step_of_command hturns hfree hline hdecode,
      exec_brEnq_ok (s := v.present a cmd) (by rw [hvdin]; exact hdin) hsc hw, hvdin, v.present_arg0 a cmd ha]
    rfl
  obtain ⟨t, hrun, ht⟩ := run_enqueue (step_keeps hparts hfirst) rfl rfl hlaps (slotOffsets_length _ _) hp rfl
  obtain ⟨hstatus, hcode, -, -, -, hpc, hothers⟩ := port_of_ended (s := v) (cmd := cmd) ha ht.ports
  have himage (k : Nat) (hk : 4 ≤ k) : Memory.read t.image k =
      if k ∈ slotOffsets s.params slot then itemByteAt (slotBase s.params slot) cmd.arg0 cmd.din k
      else Memory.read s.image k := ht.image k hk
  have hparams : t.params = s.params := ht.params
  refine ⟨t, ?_, ht.turns, ht.wop, ht.sendCounter, ht.events, ?item, fun i hi hne => ?slots, ht.channels, ht.readers,
    hothers, hstatus, hcode, hpc⟩
  · rw [show 2 + 4 + s.params.MAX = 4 + s.params.MAX + 1 + 1 by omega, run_succ hfirst, hrun]
  case item =>
    refine slotBytes_of_item (hdin.trans (congrArg Params.MAX hparams.symm)) fun o ho => ?_
    rw [hparams] at ho ⊢
    rw [himage o (slot_within _ _ _ hslotQ ho).1, if_pos ho]
  case slots =>
    refine slotBytes_congr hparams fun o ho => ?_
    rw [himage o (slot_within _ _ _ hi ho).1, if_neg (slots_disjoint _ _ _ _ hne ho)]

/-! ### A dequeue -/

/-- What an uninterrupted dequeue on cursor `r` makes of a state with the bytes `pending` not yet copied. -/
structure Delivered (u : State) (a r : Nat) (dropped idx : Word) (copy : List (Option Byte)) (pending : List Nat)
    (rest : List Turn) (t : State) (copy' : List (Option Byte)) : Prop where
  turns : t.turns = rest
  params : t.params = u.params
  channels : t.channels = u.channels
  image : t.image = u.image
  readers_length : t.readers.length = u.readers.length
  reader : t.reader r = { u.reader r with rop := .idle }
  others : ∀ q, q ≠ r → t.reader q = u.reader q
  ports : t.ports = u.ports.set a ((u.port a).finish .done
    (copyResults u.params.Q u.sendCounter (u.reader r).numRecv dropped copy'))
  length : copy'.length = copy.length
  copied : ∀ o ∈ slotOffsets u.params idx.toNat, copy'.getD (o - slotBase u.params idx.toNat) none =
    if o ∈ pending then some (Memory.read u.image o) else copy.getD (o - slotBase u.params idx.toNat) none

/-- Port `a` has nothing in flight but on cursor `r`. -/
def OnlyDequeue (s : State) (a r : Nat) : Prop :=
  (s.writer = some a → s.wop = .idle) ∧ ∀ q, q ≠ r → (s.reader q).owner = some a → (s.reader q).rop = .idle

theorem inFlight_of_owner {s : State} {a r : Nat} (honly : OnlyDequeue s a r) (ho : (s.reader r).owner = some a)
    (hrop : (s.reader r).rop ≠ .idle) : s.inFlight a = .deq r := by
  cases hf : s.inFlight a with
  | nothing => exact absurd ((inFlight_nothing s a hf).2 r ho) hrop
  | enq =>
    obtain ⟨hw, hwop⟩ := inFlight_enq s a hf
    exact absurd (honly.1 hw) hwop
  | deq q =>
    obtain ⟨-, howner, hop⟩ := inFlight_deq s a q hf
    by_cases hq : q = r
    · rw [hq]
    · exact absurd (honly.2 q hq howner) hop

/-- Byte after byte in any order, then D3 with D4. -/
theorem run_dequeue {a r n : Nat} {sent dropped idx : Word} {rest : List Turn} :
    ∀ {u : State} {copy : List (Option Byte)} {pending picks : List Nat}, InvParts u → r < u.params.NRD →
      OnlyDequeue u a r → (u.reader r).owner = some a → (u.reader r).rop = .deq sent dropped idx copy pending →
      pending.length = n → picks.length = n + 1 → u.turns = picks.map (Turn.agent a) ++ rest →
      ∃ t copy', Host.Core.run Sys2Proof.core (n + 1) u = .next t ∧
        Delivered u a r dropped idx copy pending rest t copy' := by
  induction n with
  | zero =>
    intro u copy pending picks hinv hr honly ho hrop hn hpicks hturns
    obtain rfl := List.length_eq_zero_iff.1 hn
    obtain ⟨pick, picks', hp, hturns⟩ := turns_cons hpicks hturns
    obtain rfl := List.length_eq_zero_iff.1 hp
    have hflight := inFlight_of_owner honly ho (by rw [hrop]; exact fun e => nomatch e)
    obtain ⟨-, -, hstep⟩ := (Turns.stepContinuesTheCommandInFlight u a pick _ hturns).2 r hflight
    let v : State := { u with turns := rest, cur := a }
    have hlast := hstep.trans (deqStep_of_last (s := v) hrop pick)
    exact ⟨_, copy, (run_succ hlast 0).trans (run_zero _), rfl, rfl, rfl, rfl, by simp; rfl,
      v.reader_setReader_same r _ (hinv.reader r hr).1, fun q hq => v.reader_setReader_ne r q _ hq, rfl, rfl,
      fun o _ => (if_neg (by simp)).symm⟩
  | succ n ih =>
    intro u copy pending picks hinv hr honly ho hrop hn hpicks hturns
    obtain ⟨o, os, rfl⟩ := List.exists_cons_of_length_eq_add_one hn
    obtain ⟨pick, picks', hp, hturns⟩ := turns_cons hpicks hturns
    have hflight := inFlight_of_owner honly ho (by rw [hrop]; exact fun e => nomatch e)
    obtain ⟨-, -, hstep⟩ := (Turns.stepContinuesTheCommandInFlight u a pick _ hturns).2 r hflight
    have hq := choosePending_mem o os pick
    generalize hpick : choosePending o os pick = q at hq
    obtain ⟨hbase, hplace, hin⟩ := pending_place_of_deq hinv hr hrop hq
    let v : State := { u with turns := picks'.map (Turn.agent a) ++ rest, cur := a }
    let rd : Reader := { u.reader r with
      rop := .deq sent dropped idx (copy.set (q - slotBase u.params idx.toNat) (some (Memory.read u.image q)))
        ((o :: os).erase q) }
    have hbyte : step u = .next (v.setReader r rd) := by
      rw [hstep, deqStep_of_pending (s := v) hrop, hpick]
      exact copySlotByte_ok (s := v) hin r sent dropped idx copy (o :: os)
    have hread : (v.setReader r rd).reader r = rd := v.reader_setReader_same r rd (hinv.reader r hr).1
    have hother (p : Nat) (hp : p ≠ r) : (v.setReader r rd).reader p = u.reader p := v.reader_setReader_ne r p rd hp
    have hop := (hinv.reader r hr).2.rop
    rw [hrop, readerOpInv_deq] at hop
    obtain ⟨-, -, hnodup, -, -⟩ := hop
    obtain ⟨t, copy', hrun, ht⟩ := ih (u := v.setReader r rd) (step_keeps hinv hbyte) hr
      ⟨honly.1, fun p hp => by rw [hother p hp]; exact honly.2 p hp⟩ (by rw [hread]; exact ho) (by rw [hread])
      ((List.length_erase_of_mem hq).trans (Nat.succ.inj hn)) hp rfl
    refine ⟨t, copy', (run_succ hbyte _).trans hrun,
      { turns := ht.turns, params := ht.params, channels := ht.channels, image := ht.image,
        readers_length := ht.readers_length.trans (by simp; rfl), reader := ht.reader.trans (by rw [hread]),
        others := fun p hp => (ht.others p hp).trans (hother p hp), ports := ht.ports.trans (by rw [hread]; rfl),
        length := ht.length.trans (by simp), copied := fun p hp => (ht.copied p hp).trans ?_ }⟩
    by_cases hpq : p = q
    · subst hpq
      rw [if_neg hnodup.not_mem_erase, if_pos hq]
      exact getD_set_same _ _ _ _ hplace
    · have hne : p - slotBase u.params idx.toNat ≠ q - slotBase u.params idx.toNat := by
        have := ((mem_slotOffsets _ _ _).1 hp).1
        omega
      simp only [List.mem_erase_of_ne hpq]
      exact congrArg₂ (fun x y => if p ∈ o :: os then x else y) rfl (getD_set_ne _ _ _ _ _ hne)

/-- A copy whose places hold the bytes of slot `i` is that slot. -/
theorem copyBytes_of_slot {s : State} {i : Nat} {copy : List (Option Byte)} (hlen : copy.length = 4 + s.params.MAX)
    (h : ∀ o ∈ slotOffsets s.params i, copy.getD (o - slotBase s.params i) none = some (Memory.read s.image o)) :
    copyBytes copy = s.slotBytes i := by
  apply List.ext_getElem (by simp [hlen])
  intro k h1 h2
  have hk : k < copy.length := by simpa using h1
  have hplace := h (slotBase s.params i + k) ((mem_slotOffsets _ _ _).2 ⟨by omega, by omega⟩)
  rw [Nat.add_sub_cancel_left, List.getD_eq_getElem _ _ hk] at hplace
  simp [copyBytes, hplace, State.slotBytes, slotOffsets]

/-- Settles O52: D1 takes an item, then `run_dequeue` from every byte of its slot pending; nothing is published in
between, so D4 answers Ok. -/
theorem uninterruptedDequeuesDeliverTheirSlot : Obligations.UninterruptedDequeuesDeliverTheirSlot := by
  intro s a r picks rest cmd hinv hfree hline hdecode hr hv hsc ho hne hpicks hturns
  have hparts := (inv_iff s).1 hinv
  have hp := Params.valid_parts _ hparts.params
  have ha : a < s.ports.length := nextLine_port s a _ hline
  have hlen : r < s.readers.length := (hparts.reader r hr).1
  have hun : s.sendCounter - (s.reader r).numRecv ≠ 0 := fun e => hne (by simpa using congrArg (· + (s.reader r).numRecv) e)
  obtain ⟨pick, picks', hpl, hturns⟩ := turns_cons (n := 4 + s.params.MAX + 1) (by omega) hturns
  let v : State := State.present { s with turns := picks'.map (Turn.agent a) ++ rest } a cmd
  let u : State := startCopy (v.owning r) r s.sendCounter (s.sendCounter - (s.reader r).numRecv)
  have hfirst : step s = .next u := by
    rw [step_of_command hturns hfree hline hdecode]
    exact exec_brDeq_take (s := v) hr hv hsc ho hun
  let dropped := droppedItems s.params.Q (s.sendCounter - (s.reader r).numRecv)
  let recv := (s.reader r).numRecv + dropped + 1
  let idx := wrap32 ((recv - 1).toNat % s.params.Q)
  have hvlen : r < (v.owning r).readers.length := List.length_set.symm ▸ hlen
  have howning : (v.owning r).reader r = { s.reader r with owner := some a } := reader_owning (s := v) hlen
  have hread : u.reader r = { s.reader r with
      owner := some a, numRecv := recv, received := (s.reader r).received + dropped.toNat + 1
      rop := .deq s.sendCounter dropped idx (List.replicate (4 + s.params.MAX) none)
        (slotOffsets s.params idx.toNat) } := by
    refine (reader_startCopy (s := v.owning r) hvlen _ _).trans ?_
    rw [howning]
    rfl
  have hother (q : Nat) (hq : q ≠ r) : u.reader q = s.reader q :=
    (State.reader_setReader_ne (v.owning r) r q _ hq).trans (owning_owner_other (s := v) hq)
  obtain ⟨hwidle, hridle⟩ := inFlight_nothing s a hfree
  obtain ⟨t, copy, hrun, ht⟩ := run_dequeue (u := u) (step_keeps hparts hfirst) hr
    ⟨hwidle, fun q hq => by rw [hother q hq]; exact hridle q⟩ (by rw [hread]) (by rw [hread]) (slotOffsets_length _ _) hpl rfl
  have hcopylen : copy.length = 4 + s.params.MAX := ht.length.trans List.length_replicate
  have hbytes : copyBytes copy = s.slotBytes idx.toNat :=
    copyBytes_of_slot hcopylen fun o ho => (ht.copied o ho).trans (if_pos ho)
  have hwhole : stillWhole s.params.Q s.sendCounter recv = true := by
    rw [stillWhole_iff, BitVec.toNat_add, unseen_after_take hp.Q_low hun]
    have hQ2 := hp.Q_low
    have hQ := hp.Q_high
    have hone : (1 : Word).toNat = 1 := rfl
    split <;> omega
  have hresults : copyResults u.params.Q u.sendCounter (u.reader r).numRecv dropped copy =
      { code := 1, val0 := dropped, val1 := wordOfBytes (s.slotBytes idx.toNat)
        dout := (s.slotBytes idx.toNat).drop 4 } := by
    rw [hread]
    show copyResults s.params.Q s.sendCounter recv dropped copy = _
    rw [copyResults, if_pos hwhole, if_pos hwhole, hbytes]
  have hports := ht.ports
  rw [hresults] at hports
  obtain ⟨hstatus, hcode, hval0, hval1, hdout, hpc, hothers⟩ :=
    port_of_ended (s := { s with turns := picks'.map (Turn.agent a) ++ rest }) (cmd := cmd) ha hports
  have hrecv : (t.reader r).numRecv = recv := by rw [ht.reader, hread]
  refine ⟨t, dropped, ?_, ht.turns, droppedItems_toNat _ _, hrecv, by rw [ht.reader], hstatus, hcode, hval0, ?_, hpc,
    hothers, ht.channels, ⟨ht.readers_length.trans (by simp [u, v, startCopy]), fun q hq => (ht.others q hq).trans (hother q hq)⟩,
    ht.image⟩
  · rw [show 2 + 4 + s.params.MAX = 4 + s.params.MAX + 1 + 1 by omega, run_succ hfirst, hrun]
  · rw [hval1, hdout, hrecv, ← wrap32_mod_toNat hparts.params]
    exact itemBytes_wordOfBytes (by rw [slotBytes_length]; omega)

end Sys2Proof.Proofs.UninterruptedRuns

/-! ## The history behind the ring (spec/20_memory.md R65, spec/44_broadcast_ring.md R187) -/

namespace Sys2Proof.Proofs.History

open Sys2Proof.Machine Sys2Proof.Proofs.Invariant Sys2Proof.Proofs.SlotMicroSteps Sys2Proof.Proofs.RingMicroSteps
open Sys2Proof.Proofs.RingSteps Sys2Proof.Proofs.UninterruptedRuns

/-! ### The history invariant taken apart -/

/-- The enqueue in flight has stored its bytes at the offsets of its slot that are no longer pending. -/
def Stores (s : State) : Prop :=
  ∀ sent len payload pending, s.wop = .enq sent len payload pending →
    ∀ o ∈ slotOffsets s.params (sent.toNat % s.params.Q), o ∈ pending ∨
      Memory.read s.image o = itemByteAt (slotBase s.params (sent.toNat % s.params.Q)) len payload o

/-- A dequeue in flight has copied bytes of its item only, or its item can no longer be delivered. -/
def Untorn (s : State) (log : List Item) (rd : Reader) : Prop :=
  ∀ sent dropped idx copy pending, rd.rop = .deq sent dropped idx copy pending →
    0 < rd.received ∧ (rd.received + s.params.Q ≤ s.published + 1 ∨
      ∀ o ∈ slotOffsets s.params idx.toNat, o ∈ pending ∨
        copy.getD (o - slotBase s.params idx.toNat) none =
          some ((itemOf log (rd.received - 1)).getD (o - slotBase s.params idx.toNat) 0))

theorem writerStored_iff (s : State) : s.writerStored = true ↔ Stores s := by
  unfold State.writerStored Stores
  cases s.wop with
  | idle => simp
  | enq sent len payload pending =>
    constructor
    · rintro h _ _ _ _ ⟨⟩
      simpa using h
    · intro h
      simpa using h sent len payload pending rfl

theorem copied_iff (s : State) (log : List Item) (rd : Reader) : rd.copied s log = true ↔ Untorn s log rd := by
  unfold Reader.copied Untorn
  cases rd.rop with
  | idle => simp
  | deq sent dropped idx copy pending =>
    constructor
    · rintro h _ _ _ _ _ ⟨⟩
      simpa using h
    · intro h
      simpa using h sent dropped idx copy pending rfl

/-- The parts of the history invariant. -/
structure HistoryParts (s : State) (log : List Item) : Prop where
  inv : InvParts s
  length : log.length = s.published
  payloads : ∀ it ∈ log, it.2.length = s.params.MAX
  slots : ∀ k, k < s.published → k + s.params.Q ≤ s.published ∨ s.slotBytes (k % s.params.Q) = itemOf log k
  stores : Stores s
  lags : ∀ r, r < s.params.NRD → (s.reader r).valid = true → (s.reader r).received + (s.lag r).items = s.published
  copies : ∀ r, r < s.params.NRD → Untorn s log (s.reader r)

theorem historyInv_iff (s : State) (log : List Item) : historyInv s log = true ↔ HistoryParts s log := by
  have lag (r : Nat) : (!(s.reader r).valid || decide ((s.reader r).received + (s.lag r).items = s.published)) = true ↔
      ((s.reader r).valid = true → (s.reader r).received + (s.lag r).items = s.published) := by
    cases (s.reader r).valid <;> simp
  simp only [historyInv, Bool.and_eq_true, inv_iff, decide_eq_true_eq, List.all_eq_true, List.mem_range,
    Bool.or_eq_true, writerStored_iff]
  constructor
  · rintro ⟨⟨⟨⟨⟨hinv, hlength⟩, hpayloads⟩, hslots⟩, hstores⟩, hreaders⟩
    exact ⟨hinv, hlength, hpayloads, hslots, hstores, fun r hr => (lag r).1 (by simpa using (hreaders r hr).1),
      fun r hr => (copied_iff s log _).1 (hreaders r hr).2⟩
  · intro h
    exact ⟨⟨⟨⟨⟨h.inv, h.length⟩, h.payloads⟩, h.slots⟩, h.stores⟩, fun r hr =>
      ⟨by simpa using (lag r).2 (h.lags r hr), (copied_iff s log _).2 (h.copies r hr)⟩⟩

/-- A cursor with nothing in flight. -/
theorem untorn_of_idle (s : State) (log : List Item) {rd : Reader} (h : rd.rop = .idle) : Untorn s log rd := by
  intro _ _ _ _ _ hrop
  rw [h] at hrop
  cases hrop

theorem stores_of_idle {s : State} (h : s.wop = .idle) : Stores s := by
  intro _ _ _ _ hwop
  rw [h] at hwop
  cases hwop

/-- `Untorn` looks at the parameters and the count of items, and at what the cursor has received and has in flight. -/
theorem Untorn.congr {s t : State} {log : List Item} {rd rd' : Reader} (h : Untorn s log rd)
    (hparams : t.params = s.params) (hpub : t.published = s.published) (hrop : rd'.rop = rd.rop)
    (hreceived : rd'.received = rd.received) : Untorn t log rd' := by
  intro sent dropped idx copy pending h'
  rw [hparams, hpub, hreceived]
  exact h sent dropped idx copy pending (hrop ▸ h')

theorem Stores.congr {s t : State} (h : Stores s) (hparams : t.params = s.params) (himage : t.image = s.image)
    (hwop : t.wop = s.wop) : Stores t := by
  intro sent len payload pending h'
  rw [hparams, himage]
  exact h sent len payload pending (hwop ▸ h')

/-! ### Counters and their numbers -/

theorem wrap32_toNat_mod {p : Params} (hp : ParamsParts p) (n : Nat) : (wrap32 n).toNat % p.Q = n % p.Q := by
  rw [wrap32, BitVec.toNat_ofNat, Nat.mod_mod_of_dvd _ hp.Q_dvd]

/-- Items fewer than `Q` apart have different slots. -/
theorem mod_ne_of_near {k n Q : Nat} (hlt : k < n) (hnear : n < k + Q) : k % Q ≠ n % Q := by
  intro e
  have := Nat.le_of_dvd (by omega) ((Nat.modEq_iff_dvd' (Nat.le_of_lt hlt)).1 e)
  omega

section Counters

variable {s : State} {log : List Item}

/-- The slot the writer fills is that of the next item. -/
theorem HistoryParts.writer_slot (h : HistoryParts s log) {sent len : Word} {payload : List Byte} {pending : List Nat}
    (hwop : s.wop = .enq sent len payload pending) : sent.toNat % s.params.Q = s.published % s.params.Q := by
  obtain ⟨hsc, -, hsent, -⟩ := (writerInv_enq s sent len payload pending hwop).1 h.inv.writer
  rw [hsent, h.inv.counter hsc, wrap32_toNat_mod (Params.valid_parts _ h.inv.params)]

/-- The slot a cursor copies is that of the item before those it has received. -/
theorem reader_slot {s : State} (hp : ParamsParts s.params) {rd : Reader} (hrecv : rd.numRecv = wrap32 rd.received)
    (hpos : 0 < rd.received) : (rd.numRecv - 1).toNat % s.params.Q = (rd.received - 1) % s.params.Q := by
  rw [hrecv, wrap32_eq_pred_add_one hpos, BitVec.add_sub_cancel, wrap32_toNat_mod hp]

/-- What a cursor has not seen is what the writer is ahead of it: fewer than 2^32 items (R258 item 5). -/
theorem HistoryParts.unseen_eq (h : HistoryParts s log) {r : Nat} (hr : r < s.params.NRD)
    (hvalid : (s.reader r).valid = true) (hsc : s.scValid = true) :
    (s.sendCounter - (s.reader r).numRecv).toNat = (s.lag r).items := by
  have hlag := h.lags r hr hvalid
  have hfew := h.inv.lags r hr hvalid
  rw [h.inv.counter hsc, (h.inv.reader r hr).2.numRecv hvalid, BitVec.toNat_sub, wrap32, wrap32, BitVec.toNat_ofNat,
    BitVec.toNat_ofNat]
  omega

/-- D1 with nothing unseen: the cursor has received all that is published. -/
theorem HistoryParts.received_all (h : HistoryParts s log) {r : Nat} (hr : r < s.params.NRD)
    (hvalid : (s.reader r).valid = true) (hun : s.sendCounter - (s.reader r).numRecv = 0) :
    (s.reader r).received + 0 = s.published := by
  have hlag := h.lags r hr hvalid
  cases hsc : s.scValid with
  | false =>
    have := h.inv.uncounted hsc
    omega
  | true =>
    have hitems := h.unseen_eq hr hvalid hsc
    rw [hun, show (0 : Word).toNat = 0 from rfl] at hitems
    omega

/-- D1 with an item to take: what it drops and takes and what it leaves unseen are all that was unseen. -/
theorem HistoryParts.received_take (h : HistoryParts s log) {r : Nat} (hr : r < s.params.NRD)
    (hvalid : (s.reader r).valid = true) (hsc : s.scValid = true)
    (hne : s.sendCounter - (s.reader r).numRecv ≠ 0) :
    (s.reader r).received + (droppedItems s.params.Q (s.sendCounter - (s.reader r).numRecv)).toNat + 1 +
      ((s.sendCounter - ((s.reader r).numRecv +
        droppedItems s.params.Q (s.sendCounter - (s.reader r).numRecv) + 1)).toNat + 0) = s.published := by
  have hQ := (Params.valid_parts _ h.inv.params).Q_low
  have hlag := h.lags r hr hvalid
  have hitems := h.unseen_eq hr hvalid hsc
  have hpos : (s.sendCounter - (s.reader r).numRecv).toNat ≠ 0 := fun e => hne (BitVec.eq_of_toNat_eq e)
  rw [unseen_after_take hQ hne, droppedItems_toNat]
  split <;> omega

end Counters

/-! ### Updates that keep the history -/

section Updates

variable {s t : State} {log : List Item}

/-- A step that may change one cursor and its lag, and nothing else that the history looks at. -/
theorem HistoryParts.of_reader (h : HistoryParts s log) (ht : InvParts t) (r : Nat) (hparams : t.params = s.params)
    (himage : t.image = s.image) (hwop : t.wop = s.wop) (hpub : t.published = s.published)
    (hothers : ∀ q, q ≠ r → t.reader q = s.reader q ∧ t.lag q = s.lag q)
    (hlag : r < s.params.NRD → (t.reader r).valid = true → (t.reader r).received + (t.lag r).items = s.published)
    (huntorn : r < s.params.NRD → Untorn t log (t.reader r)) : HistoryParts t log := by
  refine { inv := ht, length := h.length.trans hpub.symm, payloads := fun it hit => ?payloads,
           slots := fun k hk => ?slots, stores := h.stores.congr hparams himage hwop, lags := fun q hq hv => ?lags,
           copies := fun q hq => ?copies }
  case payloads => rw [hparams]; exact h.payloads it hit
  case slots =>
    rw [hpub] at hk ⊢
    rw [slotBytes_congr hparams fun o _ => by rw [himage], hparams]
    exact h.slots k hk
  case lags =>
    rw [hparams] at hq
    rw [hpub]
    by_cases hqr : q = r
    · subst hqr
      exact hlag hq hv
    · obtain ⟨hread, hl⟩ := hothers q hqr
      rw [hread] at hv ⊢
      rw [hl]
      exact h.lags q hq hv
  case copies =>
    rw [hparams] at hq
    by_cases hqr : q = r
    · subst hqr
      exact huntorn hq
    · rw [(hothers q hqr).1]
      exact (h.copies q hq).congr hparams hpub rfl rfl

/-- A step that changes nothing the history looks at. -/
theorem HistoryParts.of_same (h : HistoryParts s log) (ht : InvParts t) (hparams : t.params = s.params)
    (himage : t.image = s.image) (hwop : t.wop = s.wop) (hpub : t.published = s.published)
    (hreaders : t.readers = s.readers) (hlags : t.lags = s.lags) : HistoryParts t log := by
  have hread (q : Nat) : t.reader q = s.reader q := reader_of_readers hreaders q
  have hlag (q : Nat) : t.lag q = s.lag q := by rw [State.lag, State.lag, hlags]
  refine h.of_reader ht 0 hparams himage hwop hpub (fun q _ => ⟨hread q, hlag q⟩) (fun hr hv => ?_) fun hr => ?_
  · rw [hread] at hv ⊢
    rw [hlag]
    exact h.lags 0 hr hv
  · rw [hread]
    exact (h.copies 0 hr).congr hparams hpub rfl rfl

/-- Where no item is published, no cursor that has a value has received one, and no dequeue is in flight. -/
theorem HistoryParts.of_unpublished (h : HistoryParts s log) (hpub : s.published = 0) {r : Nat} (hr : r < s.params.NRD) :
    ((s.reader r).valid = true → (s.reader r).received = 0 ∧ (s.lag r).items = 0) ∧ (s.reader r).rop = .idle := by
  have hnone (hv : (s.reader r).valid = true) : (s.reader r).received = 0 ∧ (s.lag r).items = 0 := by
    have := h.lags r hr hv
    omega
  refine ⟨hnone, by_contra fun hrop => ?_⟩
  obtain ⟨hv, -⟩ := (h.inv.reader r hr).2.used hrop
  cases hop : (s.reader r).rop with
  | idle => exact hrop hop
  | deq sent dropped idx copy pending =>
    have hpos := (h.copies r hr sent dropped idx copy pending hop).1
    have := (hnone hv).1
    omega

/-- BR_INIT before the first item: the counter is set to the 0 it stands for. -/
theorem HistoryParts.zeroCounter (h : HistoryParts s log) (hidle : s.wop = .idle) (hpub : s.published = 0) :
    HistoryParts (zeroCounter s) log := by
  refine { inv := parts_zeroCounter h.inv hidle, length := h.length.trans hpub, payloads := h.payloads,
           slots := fun k hk => absurd hk (Nat.not_lt_zero k), stores := stores_of_idle hidle,
           lags := fun r hr hv => ?lags, copies := fun r hr => untorn_of_idle _ _ (h.of_unpublished hpub hr).2 }
  obtain ⟨hreceived, hitems⟩ := (h.of_unpublished hpub hr).1 hv
  have hsince : (s.lag r).since ≤ (s.lag r).items := Nat.le_add_left _ _
  rw [items_zeroCounter, zeroCounter_reader, zeroCounter_published]
  omega

/-- E0: nothing is stored yet. -/
theorem HistoryParts.startEnqueue (h : HistoryParts s log) (ht : InvParts t) (hparams : t.params = s.params)
    (himage : t.image = s.image) (hpub : t.published = s.published) (hreaders : t.readers = s.readers)
    (hlags : t.lags = s.lags) {sent len : Word} {payload : List Byte}
    (hwop : t.wop = .enq sent len payload (slotOffsets s.params (sent.toNat % s.params.Q))) : HistoryParts t log := by
  have hidle : HistoryParts { t with wop := .idle } log :=
    HistoryParts.of_same (s := { s with wop := .idle }) { h with
      inv := parts_withWop h.inv (writerInv_idle _ rfl), stores := stores_of_idle rfl }
      (parts_withWop ht (writerInv_idle _ rfl)) hparams himage rfl hpub hreaders hlags
  refine { hidle with inv := ht, stores := ?_ }
  intro sent' len' payload' pending' hwop' o ho
  rw [hwop] at hwop'
  cases hwop'
  rw [hparams] at ho
  exact .inl ho

/-- E1: the byte goes to the slot of the next item, which holds none of the last Q − 1. -/
theorem HistoryParts.writeByte (h : HistoryParts s log) {sent len : Word} {payload : List Byte} {pending : List Nat}
    {q : Nat} (hwop : s.wop = .enq sent len payload pending) (hq : q ∈ pending) :
    HistoryParts { s with
      image := Memory.write s.image q (itemByteAt (slotBase s.params (sent.toNat % s.params.Q)) len payload q)
      wop := .enq sent len payload (pending.erase q) } log := by
  obtain ⟨-, -, -, -, -, hslot⟩ := (writerInv_enq s sent len payload pending hwop).1 h.inv.writer
  refine { h with inv := parts_writeByte h.inv hwop hq _, slots := fun k hk => ?slots, stores := ?stores }
  case slots =>
    rcases h.slots k hk with hold | hitem
    · exact .inl hold
    · by_cases hnear : s.published < k + s.params.Q
      swap
      · exact .inl (Nat.not_lt.1 hnear)
      right
      rw [← hitem]
      refine slotBytes_congr ?_ fun o ho => ?_
      · rfl
      · refine Memory.read_write_ne _ _ _ _ ?_
        rintro rfl
        refine slots_disjoint _ _ _ _ ?_ ho (hslot o hq)
        rw [h.writer_slot hwop]
        exact mod_ne_of_near hk hnear
  case stores =>
    rintro _ _ _ _ ⟨⟩ o ho
    by_cases hoq : o = q
    · subst hoq
      exact .inr (Memory.read_write_same _ _ _ h.inv.image_wf)
    · rcases h.stores sent len payload pending hwop o ho with hpending | hstored
      · exact .inl ((List.mem_erase_of_ne hoq).2 hpending)
      · exact .inr ((Memory.read_write_ne _ _ _ _ hoq).trans hstored)

theorem itemOf_append {log : List Item} {k : Nat} (hk : k < log.length) (it : Item) :
    itemOf (log ++ [it]) k = itemOf log k := by
  rw [itemOf, itemOf, List.getD_append _ _ _ _ hk]

theorem itemOf_last (log : List Item) (it : Item) : itemOf (log ++ [it]) log.length = itemBytes it.1 it.2 := by
  rw [itemOf, List.getD_append_right _ _ _ _ (le_refl _), Nat.sub_self]
  rfl

/-- E2: the slot of the item in flight becomes that of the newest of the log. -/
theorem HistoryParts.storeNext (h : HistoryParts s log) {sent len : Word} {payload : List Byte}
    (hwop : s.wop = .enq sent len payload []) (hlaps : s.lapsReader = false) :
    HistoryParts (storeNext s sent) (log ++ [(len, payload)]) := by
  obtain ⟨hsc, -, hsent, hlen, -, -⟩ := (writerInv_enq s sent len payload [] hwop).1 h.inv.writer
  have hp := Params.valid_parts _ h.inv.params
  have hQ := hp.Q_low
  have hslotQ (k : Nat) : k % s.params.Q < s.params.Q := Nat.mod_lt _ (by omega)
  have hsame (k : Nat) : (Machine.storeNext s sent).slotBytes (k % s.params.Q) = s.slotBytes (k % s.params.Q) :=
    slotBytes_congr (s := s) (t := Machine.storeNext s sent) rfl fun o ho =>
      read_writeWord_outside _ _ _ _ (.inr (slot_within _ _ _ (hslotQ k) ho).1)
  refine { inv := hsent ▸ parts_storeNext h.inv hsc hlaps, length := ?length, payloads := fun it hit => ?payloads,
           slots := fun k hk => ?slots, stores := stores_of_idle rfl, lags := fun r hr hv => ?lags,
           copies := fun r hr => ?copies }
  case length => rw [List.length_append, h.length]; rfl
  case payloads =>
    rcases List.mem_append.1 hit with hold | hnew
    · exact h.payloads it hold
    · rw [List.mem_singleton.1 hnew]
      exact hlen
  case slots =>
    rw [storeNext_params, storeNext_published, hsame k]
    rw [storeNext_published] at hk
    rcases Nat.lt_succ_iff_lt_or_eq.1 hk with hold | rfl
    · rw [itemOf_append (by rw [h.length]; exact hold)]
      exact (h.slots k hold).imp_left Nat.le_succ_of_le
    · right
      rw [← h.length, itemOf_last, h.length, ← h.writer_slot hwop]
      refine slotBytes_of_item hlen fun o ho => ?_
      exact (h.stores sent len payload [] hwop o ho).resolve_left (by simp)
  case lags =>
    rw [items_storeNext _ _ _ (by rw [h.inv.lags_length]; exact hr), storeNext_reader, storeNext_published, ← Nat.add_assoc,
      h.lags r hr hv]
  case copies =>
    intro sent' dropped idx copy pending hrop
    rw [storeNext_reader] at hrop ⊢
    obtain ⟨hpos, hcopy⟩ := h.copies r hr sent' dropped idx copy pending hrop
    have hvalid := ((h.inv.reader r hr).2.used (by rw [hrop]; exact fun e => nomatch e)).1
    have hle := h.lags r hr hvalid
    have hlog : (s.reader r).received - 1 < log.length := by rw [h.length]; omega
    rw [itemOf_append hlog]
    exact ⟨hpos, hcopy.imp_left Nat.le_succ_of_le⟩

/-- The slot bytes of an item, place by place. -/
theorem HistoryParts.read_slot (h : HistoryParts s log) {k : Nat} (hk : k < s.published)
    (hnear : s.published < k + s.params.Q) {o : Nat} (ho : o ∈ slotOffsets s.params (k % s.params.Q)) :
    Memory.read s.image o = (itemOf log k).getD (o - slotBase s.params (k % s.params.Q)) 0 := by
  obtain ⟨hlow, hhigh⟩ := (mem_slotOffsets _ _ _).1 ho
  rw [← (h.slots k hk).resolve_left (Nat.not_le.2 hnear), slotBytes_getD _ _ _ (by omega), Nat.add_sub_cancel' hlow]

/-- D2: a byte of a slot that still holds the item, or an item that can no longer be delivered. -/
theorem HistoryParts.copyByte (h : HistoryParts s log) {r : Nat} (hr : r < s.params.NRD) {sent dropped idx : Word}
    {copy : List (Option Byte)} {pending : List Nat} {q : Nat}
    (hrop : (s.reader r).rop = .deq sent dropped idx copy pending) (hq : q ∈ pending) :
    HistoryParts (s.setReader r { s.reader r with
      rop := .deq sent dropped idx (copy.set (q - slotBase s.params idx.toNat) (some (Memory.read s.image q)))
        (pending.erase q) }) log := by
  obtain ⟨hlen, hrd⟩ := h.inv.reader r hr
  obtain ⟨hvalid, -⟩ := hrd.used (by rw [hrop]; exact fun e => nomatch e)
  obtain ⟨-, hplace, -⟩ := pending_place_of_deq h.inv hr hrop hq
  have hop := hrd.rop
  rw [hrop, readerOpInv_deq] at hop
  obtain ⟨hidx, -, -, hslot, -⟩ := hop
  obtain ⟨hpos, hcopy⟩ := h.copies r hr sent dropped idx copy pending hrop
  have hitem : idx.toNat = ((s.reader r).received - 1) % s.params.Q :=
    hidx.trans (reader_slot (Params.valid_parts _ h.inv.params) (hrd.numRecv hvalid) hpos)
  have hlag := h.lags r hr hvalid
  refine h.of_reader (parts_copyByte h.inv hr hrop hq _) r rfl rfl rfl rfl
    (fun p hp => ⟨s.reader_setReader_ne r p _ hp, rfl⟩) (fun _ _ => ?_) fun _ => ?_ <;>
    rw [s.reader_setReader_same r _ hlen]
  · exact hlag
  · rintro _ _ _ _ _ ⟨⟩
    by_cases hfar : (s.reader r).received + s.params.Q ≤ s.published + 1
    · exact ⟨hpos, .inl hfar⟩
    refine ⟨hpos, .inr fun o ho => ?_⟩
    by_cases hoq : o = q
    · subst hoq
      right
      refine (getD_set_same _ _ _ _ hplace).trans ?_
      rw [h.read_slot (k := (s.reader r).received - 1) (by omega) (by omega) (hitem ▸ hslot o hq), ← hitem]
      rfl
    · have hne : o - slotBase s.params idx.toNat ≠ q - slotBase s.params idx.toNat := by
        have ho' : o ∈ slotOffsets s.params idx.toNat := ho
        have := ((mem_slotOffsets _ _ _).1 ho').1
        have := ((mem_slotOffsets _ _ _).1 (hslot q hq)).1
        omega
      refine (hcopy.resolve_left hfar o ho).imp (List.mem_erase_of_ne hoq).2 fun hold => ?_
      exact (getD_set_ne _ _ _ _ _ hne).trans hold

end Updates

/-! ### Micro-steps -/

/-- Where the count of items stays, so does the log. -/
theorem logAfter_same {s t : State} (h : t.published = s.published) (log : List Item) : logAfter s t log = log :=
  if_pos h

theorem HistoryParts.log_same {s t : State} {log : List Item} (hpub : t.published = s.published)
    (h : HistoryParts t log) : HistoryParts t (logAfter s t log) := by
  rwa [logAfter_same hpub]

theorem logAfter_next {s t : State} (h : t.published = s.published + 1) (log : List Item) :
    logAfter s t log = log ++ [s.itemInFlight] := by
  rw [logAfter, if_neg (by omega), if_neg (by omega)]

theorem exec_history {i : Instr} {s t : State} {log : List Item} (h : HistoryParts s log) (hfree : NothingInFlight s)
    (e : exec i s = .next t) (hpub : s.published ≤ t.published) : HistoryParts t (logAfter s t log) := by
  have ht := exec_keeps h.inv hfree e
  have hp := Params.valid_parts _ h.inv.params
  have howning {r : Nat} (hr : r < s.params.NRD) : (s.owning r).reader r = { s.reader r with owner := some s.cur } :=
    reader_owning (h.inv.reader r hr).1
  have hlen {r : Nat} (hr : r < s.params.NRD) : r < (s.owning r).readers.length :=
    List.length_set.symm ▸ (h.inv.reader r hr).1
  have hlags {r : Nat} (hr : r < s.params.NRD) : r < s.lags.length := by rw [h.inv.lags_length]; exact hr
  cases exec_next i s t e with
  | raised _ _ e | reported _ e | channel _ _ _ _ _ e =>
    subst e
    exact .log_same (by rfl) (h.of_same ht rfl rfl rfl rfl rfl rfl)
  | init _ hw e =>
    subst e
    have hzero : s.published = 0 := Nat.eq_zero_of_le_zero hpub
    have hwriter := h.of_same h.inv.asWriter rfl rfl rfl rfl rfl rfl
    exact .log_same hzero.symm
      ((hwriter.zeroCounter (hfree.wop_idle h.inv hw) hzero).of_same ht rfl rfl rfl rfl rfl rfl)
  | enq _ _ _ _ e =>
    subst e
    exact .log_same (by rfl) (h.startEnqueue ht rfl rfl rfl rfl rfl rfl)
  | rinit r _ hr hfew ho e =>
    subst e
    have hread := State.reader_setReader_same (s.owning r) r
      { (s.owning r).reader r with numRecv := 0, valid := true, received := 0 } (hlen hr)
    have hlag := State.lag_setLag_same ((s.owning r).setReader r
      { (s.owning r).reader r with numRecv := 0, valid := true, received := 0 }) r s.published (hlags hr)
    refine .log_same (by rfl) (h.of_reader ht r rfl rfl rfl rfl
      (fun q hq => ⟨?other, State.lag_setLag_ne _ r q _ hq⟩) (fun _ _ => ?lag) fun _ => untorn_of_idle _ _ ?idle)
    case other => exact (State.reader_setReader_ne (s.owning r) r q _ hq).trans (owning_owner_other hq)
    case lag =>
      refine (congrArg₂ (fun rd l => rd.received + Lag.items l) hread hlag).trans ?_
      simp [Lag.items]
    case idle =>
      refine (congrArg Reader.rop hread).trans ?_
      rw [howning hr]
      exact hfree.rop_idle h.inv hr ho
  | owned r _ _ hr _ e =>
    subst e
    refine .log_same (by rfl) (h.of_reader ht r rfl rfl rfl rfl (fun q hq => ⟨owning_owner_other hq, rfl⟩)
      (fun _ hv => ?lag) fun _ => ?copy) <;> rw [State.endCommand_reader, howning hr] at *
    case lag => exact h.lags r hr hv
    case copy => exact (h.copies r hr).congr rfl rfl rfl rfl
  | empty r res _ hr ho hun e =>
    subst e
    refine .log_same (by rfl) (h.of_reader ht r rfl rfl rfl rfl
      (fun q hq => ⟨owning_owner_other hq, State.lag_setLag_ne _ r q _ hq⟩) (fun _ hv => ?lag) fun _ => ?copy)
    case lag =>
      have hread : (((s.owning r).setLag r 0).endCommand .done res).reader r =
        { s.reader r with owner := some s.cur } := howning hr
      have hlag : (((s.owning r).setLag r 0).endCommand .done res).lag r = ⟨0, 0⟩ :=
        State.lag_setLag_same (s.owning r) r 0 (hlags hr)
      rw [hread] at hv ⊢
      rw [hlag]
      exact h.received_all hr hv hun
    case copy =>
      have hread : (((s.owning r).setLag r 0).endCommand .done res).reader r =
        { s.reader r with owner := some s.cur } := howning hr
      rw [hread]
      exact (h.copies r hr).congr rfl rfl rfl rfl
  | deq r _ hr ho hv hsc hne e =>
    subst e
    have hread := reader_startCopy (s := s.owning r) (hlen hr) s.sendCounter (s.sendCounter - (s.reader r).numRecv)
    have hlag := lag_startCopy (s := s.owning r) (hlags hr) s.sendCounter (s.sendCounter - (s.reader r).numRecv)
    rw [howning hr] at hread hlag
    refine .log_same (by rfl) (h.of_reader ht r rfl rfl rfl rfl
      (fun q hq => ⟨?other, State.lag_setLag_ne _ r q _ hq⟩) (fun _ _ => ?lag) fun _ => ?copy)
    case other => exact (State.reader_setReader_ne (s.owning r) r q _ hq).trans (owning_owner_other hq)
    case lag =>
      rw [hread, hlag]
      exact h.received_take hr hv hsc hne
    case copy =>
      rw [hread]
      rintro _ _ _ _ _ ⟨⟩
      exact ⟨Nat.succ_pos _, .inr fun o ho => .inl ho⟩

theorem enqStep_history {s t : State} {pick : Nat} {log : List Item} (h : HistoryParts s log)
    (e : enqStep s pick = .next t) : HistoryParts t (logAfter s t log) := by
  cases enqStep_next s t pick e with
  | idle _ e => subst e; exact .log_same rfl h
  | byte sent len payload pending q hwop hq _ e => subst e; exact .log_same (by rfl) (h.writeByte hwop hq)
  | published sent len payload hwop hlaps e =>
    subst e
    have hitem : s.itemInFlight = (len, payload) := by rw [State.itemInFlight, hwop]
    rw [logAfter_next (by rfl), hitem]
    exact (h.storeNext hwop hlaps).of_same (enqStep_keeps h.inv e) rfl rfl rfl rfl rfl rfl

theorem deqStep_history {s t : State} {r pick : Nat} {log : List Item} (h : HistoryParts s log)
    (hr : r < s.params.NRD) (e : deqStep s r pick = .next t) : HistoryParts t (logAfter s t log) := by
  have ht := deqStep_keeps h.inv hr e
  cases deqStep_next s t r pick e with
  | idle _ e => subst e; exact .log_same rfl h
  | byte sent dropped idx copy pending q hrop hq _ e => subst e; exact .log_same (by rfl) (h.copyByte hr hrop hq)
  | finished sent dropped idx copy _ e =>
    rw [finishCopy_eq] at e
    cases e
    have hread := s.reader_setReader_same r { s.reader r with rop := .idle } (h.inv.reader r hr).1
    refine .log_same (by rfl) (h.of_reader ht r rfl rfl rfl rfl
      (fun q hq => ⟨s.reader_setReader_ne r q _ hq, rfl⟩) (fun _ hv => ?_) fun _ => ?_) <;>
      rw [State.endCommand_reader, hread] at *
    · exact h.lags r hr hv
    · exact untorn_of_idle _ _ rfl

/-! ### Reset -/

theorem parts_history_resetWith {p : Params} (hp : p.valid = true) : HistoryParts (State.resetWith p) [] where
  inv := parts_resetWith hp
  length := rfl
  payloads := fun _ h => nomatch h
  slots := fun _ h => absurd h (Nat.not_lt_zero _)
  stores := stores_of_idle rfl
  lags := fun r _ hv => by
    have hread : (State.resetWith p).reader r = Reader.reset := List.getElem?_getD_replicate_default_eq _ _ _
    rw [hread] at hv
    cases hv
  copies := fun r _ => untorn_of_idle _ _ (congrArg Reader.rop (List.getElem?_getD_replicate_default_eq _ _ _))

/-! ### The obligations -/

/-- Settles O56: nothing is published, no cursor has a value, nothing is in flight. -/
theorem historyHoldsAtReset : Obligations.HistoryHoldsAtReset := fun _ hp =>
  (historyInv_iff _ _).2 (parts_history_resetWith hp)

/-- Settles O57: by the kind of step; each micro-step of the ring keeps the history, and a step that would take the
counter back finds nothing published. -/
theorem everyStepKeepsTheHistory : Obligations.EveryStepKeepsTheHistory := by
  intro s t log hs e hpub
  have h := (historyInv_iff s log).1 hs
  rw [historyInv_iff]
  have hturns (ts : List Turn) (n : Choices) {a : Nat} (ha : a < s.ports.length) :
      HistoryParts { s with turns := ts, choices := n, cur := a } log :=
    h.of_same (parts_withCur h.inv ha ts n) rfl rfl rfl rfl rfl rfl
  have ht := step_keeps h.inv e
  cases step_kind s _ e with
  | idle ts n _ e => cases e; exact .log_same (by rfl) (h.of_same ht rfl rfl rfl rfl rfl rfl)
  | illegal _ _ _ _ _ _ _ _ _ e | host _ _ _ _ _ _ _ e =>
    cases e
    exact .log_same (by rfl) (h.of_same ht rfl rfl rfl rfl rfl rfl)
  | reset ts n _ e =>
    cases e
    have hzero : s.published = 0 := Nat.eq_zero_of_le_zero hpub
    obtain rfl := List.length_eq_zero_iff.1 (h.length.trans hzero)
    exact .log_same hzero.symm
      ((parts_history_resetWith h.inv.params).of_same ht rfl rfl rfl rfl rfl rfl)
  | enq ts n a pick _ hf e =>
    have hnext := enqStep_history (hturns ts n (h.inv.writer_port a (inFlight_enq s a hf).1)) e
    exact hnext
  | deq ts n a r pick _ hf e =>
    obtain ⟨hr, ho, -⟩ := inFlight_deq s a r hf
    rw [h.inv.readers_length] at hr
    have hnext := deqStep_history (hturns ts n ((h.inv.reader r hr).2.owner_port a ho)) hr e
    exact hnext
  | command ts n a cmd i hi hc _ e =>
    have hpresent := (parts_withTurns h.inv ts n).present a cmd (nextLine_port s a _ hc)
    have hbefore : HistoryParts (State.present { s with turns := ts, choices := n } a cmd) log :=
      h.of_same hpresent rfl rfl rfl rfl rfl rfl
    have hnext := exec_history hbefore (nothingInFlight_present ts n cmd hi.2.1) e hpub
    exact hnext

/-- A whole copy of an item that the writer has not come round to is that item. -/
theorem HistoryParts.copyBytes_item {s : State} {log : List Item} (h : HistoryParts s log) {r : Nat}
    (hr : r < s.params.NRD) {sent dropped idx : Word} {copy : List (Option Byte)}
    (hrop : (s.reader r).rop = .deq sent dropped idx copy [])
    (hnear : s.published + 1 < (s.reader r).received + s.params.Q) :
    ∃ it, log[(s.reader r).received - 1]? = some it ∧ copyBytes copy = itemBytes it.1 it.2 := by
  obtain ⟨hpos, hcopy⟩ := h.copies r hr sent dropped idx copy [] hrop
  obtain ⟨hvalid, -⟩ := (h.inv.reader r hr).2.used (by rw [hrop]; exact fun e => nomatch e)
  have hlag := h.lags r hr hvalid
  have hlt : (s.reader r).received - 1 < log.length := by rw [h.length]; omega
  obtain ⟨hmap, hlen⟩ := map_copyBytes_of_inv h.inv hr hrop
  have hitem : itemOf log ((s.reader r).received - 1) =
      itemBytes log[(s.reader r).received - 1].1 log[(s.reader r).received - 1].2 := by
    rw [itemOf, List.getD_eq_getElem _ _ hlt]
  refine ⟨_, List.getElem?_eq_getElem hlt, ?_⟩
  have hpayload := h.payloads _ (List.getElem_mem hlt)
  rw [← hitem]
  apply List.ext_getElem
  · rw [copyBytes_length, hlen, hitem, itemBytes_length, hpayload]
  · intro k h1 h2
    have hk : k < copy.length := by simpa using h1
    have hplace := (hcopy.resolve_left (Nat.not_le.2 hnear) (slotBase s.params idx.toNat + k)
      ((mem_slotOffsets _ _ _).2 ⟨by omega, by omega⟩)).resolve_left (by simp)
    rw [Nat.add_sub_cancel_left, List.getD_eq_getElem _ _ hk, List.getD_eq_getElem _ _ h2] at hplace
    simp [copyBytes, hplace]

/-- Settles O58: D4's Ok means the writer has not come round to the slot copied. -/
theorem okDequeuesDeliverTheItemEnqueued : Obligations.OkDequeuesDeliverTheItemEnqueued := by
  intro s t log r pick sent dropped idx copy hs hr hrop hfew e hcode
  have h := (historyInv_iff s log).1 hs
  have hrd := (h.inv.reader r hr).2
  obtain ⟨hvalid, hsc, -⟩ := hrd.used (by rw [hrop]; exact fun e => nomatch e)
  have hlag := h.lags r hr hvalid
  rw [deqStep_of_last hrop pick] at e
  cases e
  have hport := (endCommand_endsWith_of s (s.setReader r { s.reader r with rop := .idle }) .done
    (copyResults s.params.Q s.sendCounter (s.reader r).numRecv dropped copy) h.inv.cur rfl rfl).1
  rw [hport] at hcode ⊢
  have hwhole : stillWhole s.params.Q s.sendCounter (s.reader r).numRecv = true := by
    by_contra hracy
    rw [Port.finish_code, copyResults, if_neg hracy] at hcode
    cases hcode
  have hnear : s.published + 1 < (s.reader r).received + s.params.Q := by
    rw [stillWhole_iff, BitVec.toNat_add, h.unseen_eq hr hvalid hsc, show (1 : Word).toNat = 1 from rfl,
      Nat.mod_eq_of_lt (by omega)] at hwhole
    omega
  obtain ⟨it, hit, hbytes⟩ := h.copyBytes_item hr hrop hnear
  refine ⟨hrd.numRecv hvalid, (h.copies r hr _ _ _ _ _ hrop).1, hit.trans (congrArg some ?_)⟩
  rw [Port.finish_val1, Port.finish_dout]
  show it = (wordOfBytes (copyBytes copy), (copyBytes copy).drop 4)
  rw [hbytes, wordOfBytes_itemBytes, itemBytes_drop]

end Sys2Proof.Proofs.History

/-! ## Commands in flight are scheduled and end (spec/20_memory.md R59, spec/60_exceptions.md R254) -/

namespace Sys2Proof.Proofs.Liveness

open Sys2Proof.Machine Sys2Proof.Proofs.Invariant Sys2Proof.Proofs.Turns Sys2Proof.Proofs.UninterruptedRuns

/-! ### Runs that reach a state -/

/-- A run from `s` gets to a state where `P` holds. -/
def Reaches (P : State → Prop) (s : State) : Prop := ∃ k t, Host.Core.run Sys2Proof.core k s = .next t ∧ P t

theorem Reaches.here {P : State → Prop} {s : State} (h : P s) : Reaches P s := ⟨0, s, run_zero s, h⟩

theorem Reaches.step {P : State → Prop} {s u : State} (e : step s = .next u) : Reaches P u → Reaches P s
  | ⟨k, t, hrun, h⟩ => ⟨k + 1, t, (run_succ e k).trans hrun, h⟩

theorem Reaches.mono {P P' : State → Prop} {s : State} (himp : ∀ t, P t → P' t) : Reaches P s → Reaches P' s
  | ⟨k, t, hrun, h⟩ => ⟨k, t, hrun, himp t h⟩

/-- A run goes on from where another got to. -/
theorem Reaches.trans {P P' : State → Prop} {s : State} (hnext : ∀ t, P t → Reaches P' t) : Reaches P s → Reaches P' s := by
  rintro ⟨k, t, hrun, h⟩
  induction k generalizing s with
  | zero =>
    cases hrun
    exact hnext _ h
  | succ k ih =>
    cases e : Machine.step s with
    | next u => exact .step e (ih ((run_succ e k).symm.trans hrun))
    | fault f | refused f =>
      have hcore : Sys2Proof.core.step s = _ := e
      simp only [Host.Core.run, hcore] at hrun
      cases hrun

/-! ### One step of the wait -/

/-- A reset or a refusal is what comes next. -/
def CutShort (t : State) : Prop := (∃ ts, t.turns = .reset :: ts) ∨ ∃ e, step t = .refused e

/-- A state that meets the invariant steps on where nothing cuts it short. -/
theorem step_next_of_not_cutShort {s : State} (h : InvParts s) (hcut : ¬CutShort s) : ∃ t, step s = .next t ∧ InvParts t := by
  cases e : step s with
  | next t => exact ⟨t, rfl, step_keeps h e⟩
  | fault f => exact absurd e (invariantStatesNeverFault s ((inv_iff s).2 h) f)
  | refused why => exact absurd (.inr ⟨why, e⟩) hcut

theorem sameFlight_trans {s t u : State} {a : Nat} (h : SameFlight s t a) (h' : SameFlight t u a) : SameFlight s u a where
  inFlight := h'.inFlight.trans h.inFlight
  wop := fun hf => (h'.wop (h.inFlight.trans hf)).trans (h.wop hf)
  reader := fun r hf => (h'.reader r (h.inFlight.trans hf)).trans (h.reader r hf)

/-- The port of a command in flight exists. -/
theorem inFlight_port {s : State} (h : InvParts s) {a : Nat} (hf : s.inFlight a ≠ .nothing) : a < s.ports.length := by
  cases hfa : s.inFlight a with
  | nothing => exact absurd hfa hf
  | enq => exact h.writer_port a (inFlight_enq s a hfa).1
  | deq r =>
    obtain ⟨hr, howner, -⟩ := inFlight_deq s a r hfa
    rw [h.readers_length] at hr
    exact (h.reader r hr).2.owner_port a howner

/-- A step by a turn laid down uses it up and no free choice. -/
theorem step_turns_cons {s t : State} {turn : Turn} {ts : List Turn} (h : s.turns = turn :: ts) (hturn : turn ≠ .reset)
    (e : step s = .next t) : t.turns = ts ∧ t.choices = s.choices := by
  rw [step_of_turn h] at e
  cases turn with
  | agent a pick => exact moveAgent_turns { s with turns := ts } t a pick e
  | reset => exact absurd rfl hturn
  | idle => cases e; exact ⟨rfl, rfl⟩

/-- A step with no turn laid down uses up one free choice, where some agent can act. -/
theorem step_turns_nil {s t : State} (h : s.turns = []) {a : Nat} {as : List Nat} (hactive : s.active = a :: as)
    (e : step s = .next t) : t.turns = [] ∧ t.choices = s.nextChoices := by
  rw [(step_of_no_turn h).2 a as hactive] at e
  obtain ⟨hturns, hchoices⟩ := moveAgent_turns _ t _ _ e
  exact ⟨hturns.trans h, hchoices⟩

/-- The agent of a command in flight moves at the turn kept for it. -/
theorem moves_of_kept {s : State} (h : s.turns = []) {a : Nat} {as : List Nat} (hactive : s.active = a :: as)
    (hk : s.turnKept = true) (hf : s.inFlight s.keptPort ≠ .nothing) : s.moves s.keptPort :=
  ⟨Config.freePick s.choices.made, by
    rw [State.takeTurn, h, hactive]
    exact congrArg (Turn.agent · _) (chooseAgent_kept s a as hk hf)⟩

/-! ### The wait -/

/-- Where the wait of agent `a` for its turn ends. -/
def WaitOver (s : State) (a : Nat) (t : State) : Prop :=
  CutShort t ∨ (InvParts t ∧ SameFlight s t a ∧ t.moves a)

/-- What is left of the wait up to the kept turn number `last`: the turns laid down, the kept turns before `last`, the
free choices before the next of them. -/
def waitLeft (last : Nat) (s : State) : Nat ×ₗ Nat ×ₗ Nat :=
  toLex (s.turns.length, toLex (last - s.choices.kept, Config.freeGap s.choices.kept - s.choices.since))

theorem waitLeft_lt_iff (last : Nat) (s t : State) : waitLeft last t < waitLeft last s ↔
    t.turns.length < s.turns.length ∨ t.turns.length = s.turns.length ∧
      (last - t.choices.kept < last - s.choices.kept ∨ last - t.choices.kept = last - s.choices.kept ∧
        Config.freeGap t.choices.kept - t.choices.since < Config.freeGap s.choices.kept - s.choices.since) := by
  simp only [waitLeft, Prod.Lex.toLex_lt_toLex]

/-- A step in which the agent of a command in flight does not move leaves less of its wait, and does not pass the kept
turn of its port. -/
theorem step_waitLeft {s t : State} {a last : Nat} (h : InvParts s) (hf : s.inFlight a ≠ .nothing)
    (hlast : last % s.ports.length = a) (hkept : s.choices.kept ≤ last) (hcut : ¬CutShort s) (hm : ¬s.moves a)
    (e : step s = .next t) : t.choices.kept ≤ last ∧ waitLeft last t < waitLeft last s := by
  rw [waitLeft_lt_iff]
  cases hturns : s.turns with
  | cons turn ts =>
    obtain ⟨hrest, hsame⟩ := step_turns_cons hturns (fun hr => hcut (.inl ⟨ts, hr ▸ hturns⟩)) e
    exact ⟨hsame ▸ hkept, .inl (by simp [hrest])⟩
  | nil =>
    have hact : a ∈ s.active := (mem_active s a).2 ⟨inFlight_port h hf, by simp [State.canAct, hf]⟩
    obtain ⟨b, bs, hactive⟩ := List.exists_cons_of_ne_nil (List.ne_nil_of_mem hact)
    obtain ⟨hrest, hchoices⟩ := step_turns_nil hturns hactive e
    rw [hrest, hchoices, State.nextChoices]
    by_cases hk : s.turnKept = true
    · have hne : s.choices.kept ≠ last := by
        rintro rfl
        have hport : s.keptPort = a := hlast
        exact hm (hport ▸ moves_of_kept hturns hactive hk (hport ▸ hf))
      rw [if_pos hk]
      dsimp only
      exact ⟨by omega, .inr ⟨rfl, .inl (by omega)⟩⟩
    · have hgap : s.choices.since < Config.freeGap s.choices.kept := by simpa [State.turnKept] using hk
      rw [if_neg hk]
      dsimp only
      exact ⟨hkept, .inr ⟨rfl, .inr ⟨rfl, by omega⟩⟩⟩

/-- The agent of a command in flight gets its turn, at the latest at a kept turn of its port. -/
theorem reaches_waitOver {s : State} {a last : Nat} (h : InvParts s) (hf : s.inFlight a ≠ .nothing)
    (hlast : last % s.ports.length = a) (hkept : s.choices.kept ≤ last) : Reaches (WaitOver s a) s := by
  induction hw : waitLeft last s using WellFoundedLT.induction generalizing s with
  | _ w ih =>
    by_cases hcut : CutShort s
    · exact .here (.inl hcut)
    by_cases hm : s.moves a
    · exact .here (.inr ⟨h, .of_same a rfl rfl rfl, hm⟩)
    obtain ⟨u, e, hu⟩ := step_next_of_not_cutShort h hcut
    have hsame : SameFlight s u a := step_other s u a e hm fun ts hts => hcut (.inl ⟨ts, hts⟩)
    have hports : u.ports.length = s.ports.length := (Programs.stepsKeepParametersAndPrograms s u e).2.1
    obtain ⟨hle, hless⟩ := step_waitLeft h hf hlast hkept hcut hm e
    have hrest := ih _ (hw ▸ hless) hu (hsame.inFlight ▸ hf) (hports ▸ hlast) hle rfl
    exact .step e (hrest.mono fun t => .imp_right fun ⟨ht, htsame, htm⟩ => ⟨ht, sameFlight_trans hsame htsame, htm⟩)

/-- Some kept turn still to come is that of the port. -/
theorem reaches_turn {s : State} (h : InvParts s) {a : Nat} (hf : s.inFlight a ≠ .nothing) : Reaches (WaitOver s a) s := by
  have ha := inFlight_port h hf
  refine reaches_waitOver (last := s.ports.length * s.choices.kept + a) h hf ?_ ?_
  · rw [Nat.mul_add_mod, Nat.mod_eq_of_lt ha]
  · exact (Nat.le_mul_of_pos_left _ (Nat.zero_lt_of_lt ha)).trans (Nat.le_add_right ..)

/-- The command ends: each turn of its agent ends it or leaves fewer of its bytes pending. -/
theorem reaches_end {s : State} (h : InvParts s) {a : Nat} (hf : s.inFlight a ≠ .nothing) :
    Reaches (fun t => CutShort t ∨ t.inFlight a ≠ s.inFlight a) s := by
  induction hn : s.pendingCount a using Nat.strong_induction_on generalizing s with
  | _ n ih =>
    refine (reaches_turn h hf).trans fun t ht => ?_
    by_cases hcut : CutShort t
    · exact .here (.inl hcut)
    obtain ⟨hinv, hsame, hm⟩ := ht.resolve_left hcut
    obtain ⟨u, e, hu⟩ := step_next_of_not_cutShort hinv hcut
    refine .step e ?_
    by_cases hstill : u.inFlight a = s.inFlight a
    · have hless : u.pendingCount a < s.pendingCount a := by
        have hown := step_own t u a e hm (hsame.inFlight ▸ hf)
        rw [hsame.inFlight, hsame.pendingCount] at hown
        exact hown.resolve_left (not_not_intro hstill)
      rw [← hstill]
      exact ih _ (hn ▸ hless) hu (hstill ▸ hf) rfl
    · exact .here (.inr hstill)

/-- Settles O60: the wait for a turn ends, and so do the turns the command still needs. -/
theorem commandsInFlightAreScheduledAndEnd : Obligations.CommandsInFlightAreScheduledAndEnd := by
  intro s a hinv hf
  have h := (inv_iff s).1 hinv
  exact ⟨(reaches_turn h hf).mono fun t => .imp_right fun ⟨_, hsame, hm⟩ => ⟨hsame.inFlight, hm⟩, reaches_end h hf⟩

end Sys2Proof.Proofs.Liveness
